-- ==== Sys2Proof/Word.lean ====
section
/-! DEFINITION. The word types of the 8086 and of the 8259A (00_scope.md rules R4 and R5). -/

namespace Sys2Proof

/-- A byte: 8 bits (R5). -/
abbrev Byte := BitVec 8

/-- A word: 16 bits (R5), the width of every processor register (R4, `XLEN`). -/
abbrev Word := BitVec 16

/-- A physical address: 20 bits (R4, `PALEN`); its arithmetic wraps modulo 2^20 (R40). -/
abbrev Addr := BitVec 20

/-- One of the eight levels IR0 to IR7 of an 8259A (R120); its arithmetic wraps modulo 8 (R135, R139). -/
abbrev Level := BitVec 3

end Sys2Proof
end

