-- ==== Sys2Proof/Config.lean ====
section
/-! DEFINITION. What an implementation or a platform fixes (00_scope.md rule R4) and the values the spec leaves free. -/

namespace Sys2Proof

/-- One run of bytes of the launch memory (10_state.md rule R30, 92_eei_decisions.md D12): it exists, and it may or may
not be writable. -/
structure Region where
  /-- Physical address of the first byte. -/
  base : Nat
  /-- Number of bytes. -/
  size : Nat
  /-- Whether a write to these bytes has a step. -/
  writable : Bool
  deriving DecidableEq, Repr

/-- A function from words to words as plain data: the value at each word listed (the first entry for it counts), and the
value at every other word. Every function from words to words is one (`reservedFor_complete`). -/
structure WordMap where
  /-- Words and their values. -/
  listed : List (Word × Word)
  /-- The value at a word not listed. -/
  other : Word
  deriving DecidableEq, Repr

/-- The parameters R4 calls `OPEN`. `State` carries one value of this type and no step changes it, so a statement about
every state holds for every choice of the parameters (assumption 4). -/
structure Config where
  /-- `FLAGS_RESERVED`: `none` draws the reserved bits of the pushed image, `some m` takes them from the value of the
  function `m` at the defined flags (R28; assumption 5). -/
  flagsReserved : Option WordMap
  /-- `STI_SHADOW` (R87, D7). -/
  stiShadow : Bool
  /-- `PIC_PRESENT`: whether an 8259A drives INTR and answers the acknowledge (D14). -/
  picPresent : Bool
  /-- `PIC_COUNT`: how many 8259As the board has, one master and up to eight slaves (D16; assumption 41). -/
  picCount : Nat
  /-- Whether the features that rule R144 leaves outside its admitted subset are admitted (assumption 16). -/
  picFull : Bool
  /-- `PIC_BASE`: the I/O address at which the master is reached with A0 = 0 (R31, D15). -/
  picBase : Word
  /-- Distance from a chip's A0 = 0 port to its A0 = 1 port (D15; assumption 27). -/
  picA0Step : Word
  /-- `PIC_ISR_AFTER_ICW1` (R124, D17). -/
  picIsrAfterIcw1 : Byte
  /-- `PIC_SPURIOUS` (R143, D22). -/
  picSpurious : Bool
  /-- `EXIT`: the CS:IP pair at which a test run ends (R181, D23). -/
  exit : Option (Word × Word)
  /-- The launch memory: which bytes exist and which are writable (R30, D12). -/
  memoryMap : List Region
  deriving DecidableEq, Repr

/-- Free value (assumption 5): the word whose reserved bits the `n`-th draw puts into a pushed FLAGS image (R28, U1). -/
opaque Config.freeReserved : Nat → Word

/-- Free value (assumption 25): what the `n`-th draw leaves in AX, the register of the quotient, after a divide error
(R59, U10). -/
opaque Config.freeQuotient : Nat → Word

/-- Free value (assumption 25): what the `n`-th draw leaves in DX, the register of the remainder of a word division,
after a divide error (R59, U10). -/
opaque Config.freeRemainder : Nat → Word

/-- Free value (assumption 17): the poll word read when no request is present, below bit 7 (R141, U16). -/
opaque Config.freePollByte : Nat → Byte

/-- Free value (assumption 21): whether an acknowledge answers with the default level 7 type when `PIC_SPURIOUS` is
set (R143, D22). -/
opaque Config.freeSpurious : Nat → Bool

/-- Free value (assumption 19): the byte on the data bus in an acknowledge for a cascaded level to which no slave, or
more than one, answers (R142 gives none). -/
opaque Config.freeBusByte : Nat → Byte

end Sys2Proof
end

