-- ==== Sys2Proof/Machine/State.lean ====
section
/-! DEFINITION. The state of the machine: everything the spec gives it, as plain data (10_state.md; 60_exceptions.md
rule R121), the reasons it can stop, and the state right after reset. -/

namespace Sys2Proof.Machine

/-- Why the machine stops with a fault. None of them exists on the chip: they are the launch memory's
(10_state.md rule R30, 92_eei_decisions.md D12). -/
inductive Fault where
  /-- A byte access outside the launch memory "has no step (stuck)" (R30, U4). Raised by every read and write of a byte.
  Safe. -/
  | absentByte (address : Addr)
  /-- A write to a byte the launch memory does not make writable: no step (R30, D12; assumption 36). Raised by every
  write of a byte. Safe. -/
  | readOnlyByte (address : Addr)
  /-- A read of a byte that exists and that nothing has given a value (R50, U3). Raised by every read of a byte. Safe. -/
  | unwrittenByte (address : Addr)
  deriving DecidableEq, Repr

/-- Why the machine gives a situation no meaning. -/
inductive Refusal where
  /-- `exec` has no meaning for the instruction yet. Safe. -/
  | notModelled (mnemonic : String)
  /-- The first byte of the instruction is not one of the six of R62: it and its physical address (R63, D18). Raised by
  the fetch. Safe. -/
  | opcodeOutOfScope (first : Byte) (address : Addr)
  /-- `Push16` with SP = 0001H (R43, R45, D3). Safe. -/
  | wordPushAtFFFF
  /-- `Pop16` with SP = FFFFH (R43, R46, D3). Safe. -/
  | wordPopAtFFFF
  /-- A port access when no 8259A is present, or at a port at which none answers (R31, D14, D15). Safe. -/
  | noPicAtPort (port : Word)
  /-- A port access or an acknowledge on a board whose number of 8259As is not `PIC_COUNT`, is above nine, or is not one
  where the parameters admit only the subset of R144 (R4, R144, D16; assumption 41). Safe. -/
  | picCountNotAdmitted
  /-- `PicWrite` or `PicRead` on a slave the machine does not have (R142). No move of the agenda can raise it. Safe. -/
  | noSuchChip
  /-- A command other than ICW1 written to an 8259A before its first ICW1 (R122, R124, U11). Safe. -/
  | picWriteBeforeIcw1
  /-- A read of an 8259A before its first ICW1 (R133, R124, U11). Safe. -/
  | picReadBeforeIcw1
  /-- An acknowledge of an 8259A before its first ICW1 (R124, U11). Safe. -/
  | picAcknowledgeBeforeIcw1
  /-- An A0 = 0 command with D4 = 0 during the initialization sequence (R122, D21, U15). Safe. -/
  | picCommandDuringInit
  /-- An acknowledge of an 8259A in MCS-80/85 mode (R136, U18; 00_scope.md R3 item 10). Safe. -/
  | picMcsMode
  /-- ICW1 with SNGL = 0 outside the admitted subset (R144). Safe. -/
  | picCascadeNotAdmitted
  /-- ICW1 with IC4 = 0, or ICW4 with uPM = 0, outside the admitted subset (R144). Safe. -/
  | picMcsNotAdmitted
  /-- ICW4 with SFNM = 1 outside the admitted subset (R144). Safe. -/
  | picSpecialNestingNotAdmitted
  /-- OCW3 that sets special mask mode outside the admitted subset (R144). Safe. -/
  | picSpecialMaskNotAdmitted
  /-- OCW3 with the poll command outside the admitted subset (R144). Safe. -/
  | picPollNotAdmitted
  /-- ICW4 with a bit of D7 to D5 set (R128, U14). Safe. -/
  | picIcw4Reserved
  /-- A slave's ICW3 with a bit of D7 to D3 set (R127, U14). Raised by the write of ICW3, or by that of ICW4 where it is
  ICW4 that decides whether the chip is a slave (assumption 24). Safe. -/
  | picIcw3Reserved
  /-- OCW3 with D7 = 1 (R132, D21, U15). Safe. -/
  | picOcw3Reserved
  /-- An acknowledge of a cascaded chip on INTR whose ICW4 makes it a slave (R127; assumption 20). Safe. -/
  | picRoleConflict
  deriving DecidableEq, Repr

/-- The general registers (R20). -/
structure Regs where
  ax : Word
  bx : Word
  cx : Word
  dx : Word
  sp : Word
  bp : Word
  si : Word
  di : Word
  deriving DecidableEq, Repr

/-- The nine defined flags of FLAGS (R24); the reserved bits hold no state (R28). -/
structure Flags where
  CF : Bool
  PF : Bool
  AF : Bool
  ZF : Bool
  SF : Bool
  TF : Bool
  IF : Bool
  DF : Bool
  OF : Bool
  deriving DecidableEq, Repr

/-- Position of an 8259A in its initialization sequence (R121, R129). -/
inductive InitPhase where
  | uninit
  | wantICW2
  | wantICW3
  | wantICW4
  | ready
  deriving DecidableEq, Repr

/-- The state of one 8259A (R121). IRR is no field: it is a function of `ir`, `edge` and `ltim` (R134). -/
structure Pic where
  /-- Present level of each IR input. -/
  ir : Byte
  /-- Edge-sense latch of each input. -/
  edge : Byte
  /-- In-service register. -/
  isr : Byte
  /-- Interrupt mask register. -/
  imr : Byte
  /-- ICW1 D3: level triggered. -/
  ltim : Bool
  /-- ICW1 D2. -/
  adi : Bool
  /-- ICW1 D1: single. -/
  sngl : Bool
  /-- ICW1 D0: ICW4 needed. -/
  ic4 : Bool
  /-- ICW1 D7 to D5, MCS-80/85 only. -/
  a7_5 : BitVec 3
  /-- ICW2 D7 to D3: bits 7 to 3 of every type sent. -/
  t : BitVec 5
  /-- ICW2 D2 to D0, MCS-80/85 only. -/
  a10_8 : BitVec 3
  /-- ICW3: slave map of a master, identity of a slave in bits 2 to 0. -/
  s : Byte
  /-- ICW4 D4: special fully nested mode. -/
  sfnm : Bool
  /-- ICW4 D3: buffered mode. -/
  buf : Bool
  /-- ICW4 D2: master in buffered mode. -/
  ms : Bool
  /-- ICW4 D1: automatic end of interrupt. -/
  aeoi : Bool
  /-- ICW4 D0: 8086 mode. -/
  upm : Bool
  /-- Position in the initialization sequence. -/
  init : InitPhase
  /-- The level that has lowest priority. -/
  lowest : Level
  /-- Rotate in automatic EOI mode. -/
  autoRotate : Bool
  /-- A read with A0 = 0 gives ISR, not IRR. -/
  readIsr : Bool
  /-- Special mask mode. -/
  smm : Bool
  /-- A poll command waits for its read. -/
  poll : Bool
  /-- The SP/EN strap: master in non-buffered mode (R120, R127; assumption 18). -/
  sp : Bool
  deriving DecidableEq, Repr

/-- A slave 8259A: the master's IR input its INT output is wired to (R127, R142), the I/O address at which it is reached
with A0 = 0 (R31), and its own state. -/
structure Slave where
  line : Level
  base : Word
  chip : Pic
  deriving DecidableEq, Repr

/-- Names one of the chips. -/
inductive ChipId where
  /-- The chip whose INT output drives INTR. -/
  | master
  /-- The `k`-th of the slaves. -/
  | slave (k : Nat)
  deriving DecidableEq, Repr

/-- What may happen next (00_scope.md rule R9; assumption 7): a turn of the processor, a change the environment makes
between two turns (60_exceptions.md rule R112), or a turn in which the processor executes an out-of-scope instruction, as
far as the spec describes it (assumptions 25 and 26). -/
inductive Move where
  /-- The processor takes one `Step()` (R101). -/
  | processor
  /-- The processor executes an out-of-scope dividing instruction of `len` bytes that raises the divide error (R95);
  `wide` says that it is a word division, whose destination is DX and AX, not AX alone (R59). -/
  | divideError (len : Nat) (wide : Bool)
  /-- The processor executes an out-of-scope OUT of `len` bytes: it writes a byte to an I/O port (R31, R122). -/
  | portWrite (len : Nat) (port : Word) (d : Byte)
  /-- The processor executes an out-of-scope IN of `len` bytes: it reads a byte from an I/O port (R31, R133). -/
  | portRead (len : Nat) (port : Word)
  /-- The environment drives the NMI pin (R97). -/
  | nmi (level : Bool)
  /-- The environment drives the INTR pin (R98). -/
  | intr (level : Bool)
  /-- The environment chooses the byte it will answer the acknowledge with (R99). -/
  | inta (t : Byte)
  /-- The environment drives an IR input of a chip (R134). -/
  | ir (chip : ChipId) (n : Level) (level : Bool)
  /-- The environment drives the RESET pin (R170). -/
  | reset (level : Bool)
  deriving DecidableEq, Repr

/-- The state of the machine. -/
structure State where
  /-- AX to DI (R20, R21). -/
  regs : Regs
  /-- Code segment (R22). -/
  cs : Word
  /-- Data segment (R22). -/
  ds : Word
  /-- Stack segment (R22). -/
  ss : Word
  /-- Extra segment (R22). -/
  es : Word
  /-- Instruction pointer (R23). -/
  ip : Word
  /-- The flag register (R24). -/
  flags : Flags
  /-- The NMI latch (R32 (a), R97). -/
  nmiPending : Bool
  /-- The STI shadow (R32 (c), R87). -/
  stiShadow : Bool
  /-- TF as it was when the current instruction began (R32 (d), R101). -/
  tfBefore : Bool
  /-- Present level of the NMI pin (R9, R97). -/
  nmiPin : Bool
  /-- Present level of the INTR pin when no 8259A is modelled (R32 (b), R98). -/
  intrPin : Bool
  /-- The byte the environment answers the acknowledge with when no 8259A is modelled (R99; assumption 8). -/
  intaByte : Byte
  /-- Whether RESET is asserted (R101, R170). -/
  resetPin : Bool
  /-- Memory: the bytes that have a value, at strictly rising addresses (R30, R44; assumption 2). -/
  mem : List Host.Cell
  /-- The 8259A whose INT output is wired to INTR (R120, R121). -/
  pic : Pic
  /-- The slaves of a cascade (R142). -/
  slaves : List Slave
  /-- Model's own: the byte the last `PicRead` returned (assumption 26). -/
  ioData : Byte
  /-- Model's own: who moves next (assumption 7). -/
  agenda : List Move
  /-- Model's own: how many free values have been drawn (assumption 6). -/
  draws : Nat
  /-- The parameters of the implementation (R4); no step changes them. -/
  config : Config
  deriving DecidableEq, Repr

/-- The general registers after reset: R34 gives no value, the model names zero (assumption 1). -/
def Regs.reset : Regs :=
  { ax := 0, bx := 0, cx := 0, dx := 0, sp := 0, bp := 0, si := 0, di := 0 }

/-- The flag register after reset: every flag 0 (R34, R170). -/
def Flags.reset : Flags :=
  { CF := false, PF := false, AF := false, ZF := false, SF := false, TF := false, IF := false, DF := false, OF := false }

/-- An 8259A before its first ICW1 (R124). Its registers are unspecified; the model gives them 0, and 7 to the lowest level,
and `init = Uninit` keeps every one from being used (assumption 11). The levels of the IR0 to IR7 inputs, `ir`, are the
environment's (R121); the spec gives none, and the model takes them low. They outlive ICW1 and decide later edges and
level-triggered requests (assumption 9). -/
def Pic.powerOn (sp : Bool) : Pic :=
  { ir := 0, edge := 0, isr := 0, imr := 0, ltim := false, adi := false, sngl := false, ic4 := false, a7_5 := 0, t := 0,
    a10_8 := 0, s := 0, sfnm := false, buf := false, ms := false, aeoi := false, upm := false, init := .uninit,
    lowest := 7, autoRotate := false, readIsr := false, smm := false, poll := false, sp := sp }

/-- The parameters of the machine after reset (assumptions 3 and 4): the values R4 and 92_eei_decisions.md recommend
where they recommend one. -/
def configAtReset : Config :=
  { flagsReserved := none, stiShadow := true, picPresent := false, picCount := 1, picFull := false, picBase := 0,
    picA0Step := 1, picIsrAfterIcw1 := 0, picSpurious := false, exit := none,
    memoryMap := [{ base := 0, size := 1048576, writable := true }] }

/-- The machine right after reset (R34, R170). The spec gives no level of the SP/EN strap of the chip on INTR (R120): the
model takes it high, a master's (assumption 39). Nor does it give the levels of the pins and of the IR inputs: the model takes
them low (assumption 9). -/
def State.reset : State :=
  { regs := Regs.reset, cs := 0xFFFF, ds := 0, ss := 0, es := 0, ip := 0, flags := Flags.reset,
    nmiPending := false, stiShadow := false, tfBefore := false, nmiPin := false, intrPin := false, intaByte := 0,
    resetPin := false, mem := [], pic := Pic.powerOn true, slaves := [], ioData := 0, agenda := [], draws := 0,
    config := configAtReset }

end Sys2Proof.Machine
end

