-- ==== Sys2Proof/Machine/Flags.lean ====
section
/-! DEFINITION. Every computation over the flag register the spec gives (10_state.md rules R24 to R28): its 16-bit image,
loading it from a word, and the changes an interrupt sequence, CLI and STI make. -/

namespace Sys2Proof.Machine

/-- The bits of FLAGS that hold state: 11, 10, 9, 8, 7, 6, 4, 2, 0 (`DEFINED`, R28). -/
def definedFlags : Word := 0x0FD5

/-- A flag as a word with the flag at bit 0. -/
def flagWord (b : Bool) : Word :=
  if b then 1 else 0

/-- The defined flags at their positions, reserved bits 0 (`d` of `FlagsImage`, R28; positions R24). -/
def definedImage (f : Flags) : Word :=
  flagWord f.OF <<< 11 ||| flagWord f.DF <<< 10 ||| flagWord f.IF <<< 9 ||| flagWord f.TF <<< 8 |||
    flagWord f.SF <<< 7 ||| flagWord f.ZF <<< 6 ||| flagWord f.AF <<< 4 ||| flagWord f.PF <<< 2 ||| flagWord f.CF

/-- The image with the reserved bits of `r` (`FlagsImage`, R28). -/
def imageWith (f : Flags) (r : Word) : Word :=
  definedImage f ||| (r &&& ~~~definedFlags)

/-- `FLAGS_RESERVED(d)`: the value of the parameter at the defined flags `d` (R4, R28). -/
def reservedFor (m : WordMap) (d : Word) : Word :=
  match m.listed.find? fun e => e.1 == d with
  | some e => e.2
  | none => m.other

/-- `FlagsLoad(w)`: every flag from its bit, reserved bits ignored (R28). -/
def flagsLoad (w : Word) : Flags :=
  { OF := w.getLsbD 11, DF := w.getLsbD 10, IF := w.getLsbD 9, TF := w.getLsbD 8, SF := w.getLsbD 7,
    ZF := w.getLsbD 6, AF := w.getLsbD 4, PF := w.getLsbD 2, CF := w.getLsbD 0 }

/-- IF <- 0 (step ii of R92; CLI, R85). -/
def clearIF (f : Flags) : Flags :=
  { f with IF := false }

/-- IF <- 1 (STI, R86). -/
def setIF (f : Flags) : Flags :=
  { f with IF := true }

/-- TF <- 0 (step iii of R92). -/
def clearTF (f : Flags) : Flags :=
  { f with TF := false }

end Sys2Proof.Machine
end

