-- ==== Sys2Proof/Machine/Outcome.lean ====
section
/-! DEFINITION. Results of operations that can stop, and how they follow one another. -/

namespace Sys2Proof.Machine

/-- What an operation answers: a value, a fault, or a refusal. -/
abbrev Res (α : Type) := Host.Outcome α Fault Refusal

/-- First `o`, then `f` on its value; a stop is passed on. -/
def andThen {α β : Type} (o : Res α) (f : α → Res β) : Res β :=
  match o with
  | .next a => f a
  | .fault r => .fault r
  | .refused r => .refused r

end Sys2Proof.Machine
end

