-- ==== Sys2Proof/Machine/Ops.lean ====
section
/-! DEFINITION. The named operations over memory and registers: the updates of a state, the memory primitives
(20_memory.md rules R40 to R47), the vector table (R48 to R50), and taking an interrupt (60_exceptions.md rule R92) with
the return from one beside it (41_iret.md rule R80). -/

namespace Sys2Proof.Machine

/-! ### Updates of a state -/

/-- SP <- v. -/
def withSp (v : Word) (s : State) : State :=
  { s with regs := { s.regs with sp := v } }

/-- IP <- v. -/
def withIp (v : Word) (s : State) : State :=
  { s with ip := v }

/-- CS <- c; IP <- i. -/
def withCsIp (c i : Word) (s : State) : State :=
  { s with cs := c, ip := i }

/-- FLAGS <- f. -/
def withFlags (f : Flags) (s : State) : State :=
  { s with flags := f }

/-- Memory <- m. -/
def withMem (m : List Host.Cell) (s : State) : State :=
  { s with mem := m }

/-- nmi_pending <- b. -/
def withNmi (b : Bool) (s : State) : State :=
  { s with nmiPending := b }

/-- sti_shadow <- b. -/
def withShadow (b : Bool) (s : State) : State :=
  { s with stiShadow := b }

/-- tf_before <- b. -/
def withTfBefore (b : Bool) (s : State) : State :=
  { s with tfBefore := b }

/-- The chips' registers. -/
def withPics (p : Pic) (l : List Slave) (s : State) : State :=
  { s with pic := p, slaves := l }

/-- The moves still to come. -/
def withAgenda (l : List Move) (s : State) : State :=
  { s with agenda := l }

/-- One more free value has been drawn (assumption 6). -/
def withDraw (s : State) : State :=
  { s with draws := s.draws + 1 }

/-! ### Bytes and words (R41: little-endian) -/

/-- Bits 7 to 0. -/
def lowByte (v : Word) : Byte :=
  v.extractLsb' 0 8

/-- Bits 15 to 8. -/
def highByte (v : Word) : Byte :=
  v.extractLsb' 8 8

/-- The word with these two bytes. -/
def wordOf (high low : Byte) : Word :=
  high ++ low

/-- AL <- v; AH keeps its value (R20: AX = AH ++ AL). -/
def withAl (v : Byte) (s : State) : State :=
  { s with regs := { s.regs with ax := wordOf (highByte s.regs.ax) v } }

/-- After a divide error "the destination registers are then undefined" (R59, U10: any value): AX, and DX too if the
division is of a word, hold free values; one draw is used up. Which registers they are is taken from the family
(assumption 25). -/
def withDividendLost (wide : Bool) (s : State) : State :=
  withDraw { s with regs := { s.regs with
    ax := Config.freeQuotient s.draws
    dx := if wide then Config.freeRemainder s.draws else s.regs.dx } }

/-! ### Memory as data -/

/-- The value of the byte at `a`, if it has one (assumption 2). -/
def memGet (a : Nat) : List Host.Cell → Option Byte
  | [] => none
  | c :: m => if c.1 = a then some c.2 else memGet a m

/-- Memory with the byte at `a` set to `v`; the cells stay at strictly rising addresses. -/
def memPut (a : Nat) (v : Byte) : List Host.Cell → List Host.Cell
  | [] => [(a, v)]
  | c :: m =>
    if c.1 < a then c :: memPut a v m
    else if c.1 = a then (a, v) :: m
    else (a, v) :: c :: m

/-- The canonical form of a memory: strictly rising addresses, all inside the 2^20 bytes of the space (R30). An unlisted
address has no value, so no listed value can equal it. -/
abbrev Memory.wf (m : List Host.Cell) : Prop :=
  m.Pairwise (fun c d => c.1 < d.1) ∧ ∀ c ∈ m, c.1 < 1048576

/-- Whether the region holds the address. -/
def Region.holds (r : Region) (a : Addr) : Bool :=
  r.base ≤ a.toNat && a.toNat < r.base + r.size

/-- Whether the byte exists in the launch memory (R30). -/
def existsAt (c : Config) (a : Addr) : Bool :=
  c.memoryMap.any fun r => Region.holds r a

/-- Whether the byte exists and is writable (R30). -/
def writableAt (c : Config) (a : Addr) : Bool :=
  c.memoryMap.any fun r => r.writable && Region.holds r a

/-! ### The memory primitives (R40, R44) -/

/-- `Phys(seg, off)`: (seg * 16 + off) modulo 2^20 (R40). -/
def phys (seg off : Word) : Addr :=
  seg.setWidth 20 * 16#20 + off.setWidth 20

/-- `MemRead(pa, 1)` (R44); a byte outside the launch memory has no step (R30), an unwritten one faults (R50). -/
def readByte (a : Addr) (s : State) : Res Byte :=
  if existsAt s.config a then
    match memGet a.toNat s.mem with
    | some v => .next v
    | none => .fault (.unwrittenByte a)
  else .fault (.absentByte a)

/-- `MemRead(pa, 2)`: the byte at `pa + 1` modulo 2^20 above the byte at `pa` (R44). -/
def readWord (a : Addr) (s : State) : Res Word :=
  andThen (readByte a s) fun low =>
  andThen (readByte (a + 1) s) fun high =>
  .next (wordOf high low)

/-- `MemWrite(pa, 1, v)` (R44). -/
def writeByte (a : Addr) (v : Byte) (s : State) : Res State :=
  if writableAt s.config a then .next (withMem (memPut a.toNat v s.mem) s)
  else if existsAt s.config a then .fault (.readOnlyByte a)
  else .fault (.absentByte a)

/-- `MemWrite(pa, 2, v)`: the low byte at `pa`, then the high byte at `pa + 1` modulo 2^20 (R42, R44). -/
def writeWord (a : Addr) (v : Word) (s : State) : Res State :=
  andThen (writeByte a (lowByte v) s) fun s' =>
  writeByte (a + 1) (highByte v) s'

/-! ### The stack (R45 to R47) -/

/-- `Push16(v)`: SP <- SP - 2, then the word at the new SS:SP; refused when SP = 0001H (R43, R45). -/
def push16 (v : Word) (s : State) : Res State :=
  if s.regs.sp = 1 then .refused .wordPushAtFFFF
  else writeWord (phys s.ss (s.regs.sp - 2)) v (withSp (s.regs.sp - 2) s)

/-- `Pop16()`: the word at SS:SP, then SP <- SP + 2; refused when SP = FFFFH (R43, R46). -/
def pop16 (s : State) : Res (Word × State) :=
  if s.regs.sp = 0xFFFF then .refused .wordPopAtFFFF
  else
    andThen (readWord (phys s.ss s.regs.sp) s) fun v =>
    .next (v, withSp (s.regs.sp + 2) s)

/-! ### The vector table (R48 to R50) -/

/-- The physical address of the entry of type `t`: 4 * t (R49). -/
def vectorAddr (t : Byte) : Addr :=
  t.setWidth 20 * 4#20

/-- `IvtRead(t)`: the new CS and the new IP (R50); the IP word is read first. -/
def ivtRead (t : Byte) (s : State) : Res (Word × Word) :=
  andThen (readWord (vectorAddr t) s) fun newIp =>
  andThen (readWord (vectorAddr t + 2) s) fun newCs =>
  .next (newCs, newIp)

/-! ### Taking an interrupt, and the return from one -/

/-- The word whose reserved bits the next pushed image takes: the parameter's at the defined flags, or a free value
(R28; assumption 5). -/
def reservedBits (s : State) : Word :=
  match s.config.flagsReserved with
  | some m => reservedFor m (definedImage s.flags)
  | none => Config.freeReserved s.draws

/-- `FlagsImage()` (R28). -/
def flagsImage (s : State) : Word :=
  imageWith s.flags (reservedBits s)

/-- `InterruptSequence(t)`, the six steps in the source's order (R92); the draw of step i is used up. -/
def interruptSequence (t : Byte) (s : State) : Res State :=
  andThen (push16 (flagsImage s) (withDraw s)) fun s1 =>
  andThen (push16 s1.cs (withFlags (clearTF (clearIF s1.flags)) s1)) fun s2 =>
  andThen (push16 s2.ip s2) fun s3 =>
  andThen (ivtRead t s3) fun vector =>
  .next (withCsIp vector.1 vector.2 s3)

/-- The return from an interrupt: pops IP, CS and FLAGS and loads all nine flags (R80, R28). -/
def interruptReturn (s : State) : Res State :=
  andThen (pop16 s) fun newIp =>
  andThen (pop16 newIp.2) fun newCs =>
  andThen (pop16 newCs.2) fun image =>
  .next (withFlags (flagsLoad image.1) (withCsIp newCs.1 newIp.1 image.2))

/-- `DivideError()`: the divide error of an out-of-scope dividing instruction, IP already past it (R95). -/
def divideError (s : State) : Res State :=
  interruptSequence 0 s

/-- IP <- IP + len modulo 2^16; CS is not incremented (R23). -/
def advanceIp (len : Nat) (s : State) : State :=
  withIp (s.ip + BitVec.ofNat 16 len) s

end Sys2Proof.Machine
end

