-- ==== Sys2Proof/Machine/Pic.lean ====
section
/-! DEFINITION. The 8259A (60_exceptions.md rules R120 to R144): request sensing, priority and the INT output, the
command words, reads, the acknowledge, and the cascade. -/

namespace Sys2Proof.Machine

/-! ### Bits of a register of eight levels -/

/-- The bit of level `n`. -/
def bitAt (v : Byte) (n : Level) : Bool :=
  v.getLsbD n.toNat

/-- `v` with the bit of level `n` set. -/
def withBit (v : Byte) (n : Level) : Byte :=
  v ||| 1#8 <<< n.toNat

/-- `v` with the bit of level `n` clear. -/
def withoutBit (v : Byte) (n : Level) : Byte :=
  v &&& ~~~(1#8 <<< n.toNat)

/-- The eight levels (R120). -/
def levels : List Level :=
  [0, 1, 2, 3, 4, 5, 6, 7]

/-! ### Request sensing (R134) -/

/-- `IrChange(n, v)`: a low-to-high transition sets the edge latch (R134). -/
def irChange (n : Level) (v : Bool) (p : Pic) : Pic :=
  { p with
    edge := if !bitAt p.ir n && v then withBit p.edge n else p.edge
    ir := if v then withBit p.ir n else withoutBit p.ir n }

/-- IRR: the present levels in level-triggered mode, else the latched edges of inputs that are still high (R134). -/
def irr (p : Pic) : Byte :=
  if p.ltim then p.ir else p.edge &&& p.ir

/-! ### Priority and the INT output (R135, R140, R142) -/

/-- Rank of a level: 0 is the highest priority, that of the level after `lowest` (R135). -/
def rank (p : Pic) (n : Level) : Level :=
  n - p.lowest - 1

/-- Whether the chip is a master: by MS in buffered mode, else by the SP/EN strap (R127, R128). -/
def isMaster (p : Pic) : Bool :=
  if p.buf then p.ms else p.sp

/-- Whether level `n` has a slave behind it: only in a cascade (R126, R142). -/
def hasSlave (p : Pic) (n : Level) : Bool :=
  !p.sngl && bitAt p.s n

/-- Whether special fully nested mode lets level `n` through while the same level is in service: a master's level that
has a slave (R135, R142). -/
def nestsInService (p : Pic) (n : Level) : Bool :=
  p.sfnm && isMaster p && hasSlave p n

/-- Whether level `m` in service counts: in special mask mode only if it is not masked (R140, R137). -/
def inServiceCounts (p : Pic) (m : Level) : Bool :=
  bitAt p.isr m && !(p.smm && bitAt p.imr m)

/-- Whether level `m` holds back a request on level `n` (R135, R140). -/
def holdsBack (p : Pic) (n m : Level) : Bool :=
  inServiceCounts p m &&
    (if nestsInService p n then (rank p m).ult (rank p n) else (rank p m).ule (rank p n))

/-- Whether level `n` is eligible: requesting, not masked, and not held back (R135). -/
def eligible (p : Pic) (n : Level) : Bool :=
  bitAt (irr p) n && !bitAt p.imr n && !levels.any (holdsBack p n)

/-- The levels from highest to lowest priority, those of rank 0 to 7 (R135). -/
def byPriority (p : Pic) : List Level :=
  levels.map fun k => p.lowest + 1 + k

/-- `Winner()`: the eligible level of smallest rank (R135). -/
def winner (p : Pic) : Option Level :=
  (byPriority p).find? (eligible p)

/-- The INT output: the chip is ready and some level is eligible (R135). -/
def intOut (p : Pic) : Bool :=
  p.init == .ready && levels.any (eligible p)

/-! ### Serving a level (R136, R138, R141) -/

/-- The type sent for level `n`: T in bits 7 to 3, the level in bits 2 to 0 (R136). -/
def typeOf (p : Pic) (n : Level) : Byte :=
  p.t ++ n

/-- Whether the chip is a slave of a cascade (R126, R127). -/
def isSlave (p : Pic) : Bool :=
  !p.sngl && !isMaster p

/-- Whether automatic EOI mode is in force: AEOI is set and the chip is no slave, since "the data sheet restricts AEOI to
masters" (R138; assumption 37). -/
def aeoiMode (p : Pic) : Bool :=
  p.aeoi && !isSlave p

/-- An acknowledge serves level `n`: its in-service bit is set and its edge latch cleared; in AEOI mode the bit is
cleared again and, with `auto_rotate`, the level becomes the lowest (R136, R138, R139). -/
def serve (n : Level) (p : Pic) : Pic :=
  { p with
    isr := if aeoiMode p then withoutBit p.isr n else withBit p.isr n
    edge := withoutBit p.edge n
    lowest := if aeoiMode p && p.autoRotate then n else p.lowest }

/-! ### Initialization command words (R123 to R129) -/

/-- ICW1 (R123, R124). -/
def icw1 (c : Config) (d : Byte) (p : Pic) : Pic :=
  let ic4 := d.getLsbD 0
  { p with
    edge := 0, imr := 0, isr := c.picIsrAfterIcw1, lowest := 7, autoRotate := false
    s := p.s ||| 0x07#8
    smm := false, readIsr := false, poll := false
    sfnm := ic4 && p.sfnm, buf := ic4 && p.buf, ms := ic4 && p.ms, aeoi := ic4 && p.aeoi, upm := ic4 && p.upm
    ltim := d.getLsbD 3, adi := d.getLsbD 2, sngl := d.getLsbD 1, ic4 := ic4
    a7_5 := d.extractLsb' 5 3
    init := .wantICW2 }

/-- Where the sequence goes once ICW2 and, in a cascade, ICW3 are written (R125, R126, R129). -/
def phaseAfterIcw3 (p : Pic) : InitPhase :=
  if p.ic4 then .wantICW4 else .ready

/-- ICW2 (R125). -/
def icw2 (d : Byte) (p : Pic) : Pic :=
  { p with
    t := d.extractLsb' 3 5
    a10_8 := d.extractLsb' 0 3
    init := if p.sngl then phaseAfterIcw3 p else .wantICW3 }

/-- ICW3, the slave map of a master or the identity of a slave (R126, R127). -/
def icw3 (d : Byte) (p : Pic) : Pic :=
  { p with s := d, init := phaseAfterIcw3 p }

/-- ICW4 (R128). -/
def icw4 (d : Byte) (p : Pic) : Pic :=
  { p with
    sfnm := d.getLsbD 4, buf := d.getLsbD 3, ms := d.getLsbD 2, aeoi := d.getLsbD 1, upm := d.getLsbD 0
    init := .ready }

/-! ### Operation command words (R130 to R132, R137, R139) -/

/-- OCW1: the mask (R130). -/
def ocw1 (d : Byte) (p : Pic) : Pic :=
  { p with imr := d }

/-- The level a non-specific EOI ends: the one of smallest rank among those in service that count (R137). -/
def eoiLevel (p : Pic) : Option Level :=
  (byPriority p).find? (inServiceCounts p)

/-- `SpecificEOI(L, rotate)` (R137). With `rotate` the level becomes the lowest even if its in-service bit was not set:
the pseudocode of R137 says so, its prose otherwise (assumption 40). -/
def specificEoi (n : Level) (rotate : Bool) (p : Pic) : Pic :=
  { p with isr := withoutBit p.isr n, lowest := if rotate then n else p.lowest }

/-- `NonSpecificEOI(rotate)`; with no level in service it changes nothing (R137). -/
def nonSpecificEoi (rotate : Bool) (p : Pic) : Pic :=
  match eoiLevel p with
  | some n => specificEoi n rotate p
  | none => p

/-- OCW2: the eight commands of R, SL and EOI (R131). -/
def ocw2 (d : Byte) (p : Pic) : Pic :=
  let n : Level := d.extractLsb' 0 3
  match d.getLsbD 7, d.getLsbD 6, d.getLsbD 5 with
  | false, false, true => nonSpecificEoi false p
  | false, true, true => specificEoi n false p
  | true, false, true => nonSpecificEoi true p
  | true, false, false => { p with autoRotate := true }
  | false, false, false => { p with autoRotate := false }
  | true, true, true => specificEoi n true p
  | true, true, false => { p with lowest := n }
  | false, true, false => p

/-- OCW3: special mask mode, then poll or register read selection (R132). -/
def ocw3 (d : Byte) (p : Pic) : Pic :=
  { p with
    smm := if d.getLsbD 6 then d.getLsbD 5 else p.smm
    poll := d.getLsbD 2 || p.poll
    readIsr := if !d.getLsbD 2 && d.getLsbD 1 then d.getLsbD 0 else p.readIsr }

/-! ### The port interface (R122, R133) -/

/-- A byte written with A0 = 0 and D4 = 1: ICW1, from any state; outside the subset of R144 refused by name. -/
def writeIcw1 (c : Config) (d : Byte) (p : Pic) : Res Pic :=
  if !c.picFull && !d.getLsbD 1 then .refused .picCascadeNotAdmitted
  else if !c.picFull && !d.getLsbD 0 then .refused .picMcsNotAdmitted
  else .next (icw1 c d p)

/-- Whether the chip is a slave whose ICW3 had a bit of D7 to D3 set (R127, U14). -/
def badIdentity (p : Pic) : Bool :=
  isSlave p && p.s.extractLsb' 3 5 != 0

/-- ICW3, whose bits D7 to D3 a slave's must leave 0. Whether the chip is a slave is known here only if no ICW4 follows;
else ICW4 says it, and the refusal waits for it (R126, R127, U14; assumption 24). -/
def writeIcw3 (d : Byte) (p : Pic) : Res Pic :=
  if !p.ic4 && badIdentity (icw3 d p) then .refused .picIcw3Reserved
  else .next (icw3 d p)

/-- ICW4, whose bits D7 to D5 must be 0 (R128, U14); uPM = 0 and SFNM = 1 are outside the subset of R144; and a chip it
leaves a slave must have had a slave's ICW3 (R127). -/
def writeIcw4 (c : Config) (d : Byte) (p : Pic) : Res Pic :=
  if d.extractLsb' 5 3 != 0 then .refused .picIcw4Reserved
  else if !c.picFull && !d.getLsbD 0 then .refused .picMcsNotAdmitted
  else if !c.picFull && d.getLsbD 4 then .refused .picSpecialNestingNotAdmitted
  else if badIdentity (icw4 d p) then .refused .picIcw3Reserved
  else .next (icw4 d p)

/-- OCW3, whose D7 must be 0 (R132); special mask mode on and poll are outside the subset of R144. -/
def writeOcw3 (c : Config) (d : Byte) (p : Pic) : Res Pic :=
  if d.getLsbD 7 then .refused .picOcw3Reserved
  else if !c.picFull && d.getLsbD 6 && d.getLsbD 5 then .refused .picSpecialMaskNotAdmitted
  else if !c.picFull && d.getLsbD 2 then .refused .picPollNotAdmitted
  else .next (ocw3 d p)

/-- `PicWrite(a0, d)` on one chip (R122). -/
def chipWrite (c : Config) (a0 : Bool) (d : Byte) (p : Pic) : Res Pic :=
  if !a0 && d.getLsbD 4 then writeIcw1 c d p
  else
    match p.init, a0 with
    | .uninit, _ => .refused .picWriteBeforeIcw1
    | .wantICW2, true => .next (icw2 d p)
    | .wantICW3, true => writeIcw3 d p
    | .wantICW4, true => writeIcw4 c d p
    | .ready, true => .next (ocw1 d p)
    | .ready, false => if d.getLsbD 3 then writeOcw3 c d p else .next (ocw2 d p)
    | .wantICW2, false => .refused .picCommandDuringInit
    | .wantICW3, false => .refused .picCommandDuringInit
    | .wantICW4, false => .refused .picCommandDuringInit

/-- `PollWord()`: 80H and the level, which is served; with no request, bit 7 is 0 and the other bits are those of
`free` (R141). -/
def pollWord (free : Byte) (p : Pic) : Byte × Pic :=
  match winner p with
  | some n => (0x80#8 ||| n.setWidth 8, serve n p)
  | none => (free &&& 0x7F#8, p)

/-- `PicRead(a0)` on one chip (R133). -/
def chipRead (free : Byte) (a0 : Bool) (p : Pic) : Res (Byte × Pic) :=
  if p.init = .uninit then .refused .picReadBeforeIcw1
  else if a0 then .next (p.imr, p)
  else if p.poll then .next (pollWord free { p with poll := false })
  else if p.readIsr then .next (p.isr, p)
  else .next (irr p, p)

/-! ### The chips of the machine (R9 (3), R142) -/

/-- Whether the board's 8259As are `PIC_COUNT` in number, one master and up to eight slaves, and one only where the
parameters admit only the subset of R144 (R4, R142, D16; assumption 41). -/
def boardAdmitted (s : State) : Bool :=
  s.config.picCount == s.slaves.length + 1 && s.config.picCount ≤ 9 && (s.config.picFull || s.config.picCount == 1)

/-- The slave's INT output drives the master's input it is wired to (R142; assumption 18). -/
def driveLine (master : Pic) (sl : Slave) : Pic :=
  irChange sl.line (intOut sl.chip) master

/-- The master with every slave's INT output on its inputs, recomputed after a change of any chip (R9 (3), R142). -/
def driveLines (master : Pic) (l : List Slave) : Pic :=
  l.foldl driveLine master

/-- The chips `p` and `l` in place, the slaves' outputs on the master's inputs. -/
def settlePics (p : Pic) (l : List Slave) (s : State) : State :=
  withPics (driveLines p l) l s

/-- The `k`-th slave's chip replaced. -/
def setSlave (k : Nat) (p : Pic) (l : List Slave) : List Slave :=
  l.modify k fun sl => { sl with chip := p }

/-- A chip's state, if there is such a chip. -/
def chipOf (id : ChipId) (s : State) : Option Pic :=
  match id with
  | .master => some s.pic
  | .slave k => (s.slaves[k]?).map Slave.chip

/-- A chip's state replaced. -/
def setChip (id : ChipId) (p : Pic) (s : State) : State :=
  match id with
  | .master => settlePics p s.slaves s
  | .slave k => settlePics s.pic (setSlave k p s.slaves) s

/-- Which chip and which A0 a port address selects: a chip answers at its base with A0 = 0 and at the port
`PIC_BASE`'s wiring puts A0 = 1 at (R31, R122, D15; assumption 27). -/
def portChip (port : Word) (s : State) : Option (ChipId × Bool) :=
  if port = s.config.picBase then some (.master, false)
  else if port = s.config.picBase + s.config.picA0Step then some (.master, true)
  else
    match s.slaves.findIdx? fun sl => port == sl.base with
    | some k => some (.slave k, false)
    | none =>
      match s.slaves.findIdx? fun sl => port == sl.base + s.config.picA0Step with
      | some k => some (.slave k, true)
      | none => none

/-- `PicWrite(a0, d)` on the chip named (R122). -/
def picWrite (id : ChipId) (a0 : Bool) (d : Byte) (s : State) : Res State :=
  match chipOf id s with
  | some p => andThen (chipWrite s.config a0 d p) fun p' => .next (setChip id p' s)
  | none => .refused .noSuchChip

/-- `PicRead(a0)` on the chip named (R133); a poll word with no request takes a free value (assumption 17). -/
def picRead (id : ChipId) (a0 : Bool) (s : State) : Res (Byte × State) :=
  match chipOf id s with
  | some p =>
    andThen (chipRead (Config.freePollByte s.draws) a0 p) fun r => .next (r.1, setChip id r.2 (withDraw s))
  | none => .refused .noSuchChip

/-- A write to an I/O port (R31). -/
def portWrite (port : Word) (d : Byte) (s : State) : Res State :=
  match s.config.picPresent, portChip port s with
  | true, some (id, a0) => if boardAdmitted s then picWrite id a0 d s else .refused .picCountNotAdmitted
  | _, _ => .refused (.noPicAtPort port)

/-- A read from an I/O port (R31); the byte is kept in `ioData` (assumption 26). -/
def portRead (port : Word) (s : State) : Res State :=
  match s.config.picPresent, portChip port s with
  | true, some (id, a0) =>
    if boardAdmitted s then andThen (picRead id a0 s) fun r => .next { r.2 with ioData := r.1 }
    else .refused .picCountNotAdmitted
  | _, _ => .refused (.noPicAtPort port)

/-- Whether a slave is wired to the master's input `n` (R127, R142). -/
def lineTaken (n : Level) (s : State) : Bool :=
  s.slaves.any fun sl => sl.line == n

/-- The environment drives an IR input (R134); an input a slave's INT output drives is not the environment's
(assumption 35). -/
def driveIr (id : ChipId) (n : Level) (v : Bool) (s : State) : State :=
  if id = .master && lineTaken n s then s
  else
    match chipOf id s with
    | some p => setChip id (irChange n v p) s
    | none => s

/-! ### The acknowledge (R136, R142, R143) -/

/-- Whether a slave answers for the master's level `n`: an initialized slave of a cascade whose identity equals `n`
(R127, R142; assumption 19). -/
def answers (n : Level) (p : Pic) : Bool :=
  p.init == .ready && isSlave p && p.s.extractLsb' 0 3 == n

/-- The type a slave that answers sends: its winner's, or the default level 7 type when its request has gone
(R136, R142, R143). -/
def slaveType (p : Pic) : Byte :=
  match winner p with
  | some n => typeOf p n
  | none => typeOf p 7

/-- A slave that answers serves its winning level (R142). -/
def slaveServe (p : Pic) : Pic :=
  match winner p with
  | some n => serve n p
  | none => p

/-- The slaves after the acknowledge of the master's level `n`. -/
def serveSlaves (n : Level) (l : List Slave) : List Slave :=
  l.map fun sl => if answers n sl.chip then { sl with chip := slaveServe sl.chip } else sl

/-- The slaves' part of the acknowledge, the master having served its level `n` and put it on the cascade lines
(R142); with no slave, or more than one, answering, the byte on the bus is a free value (assumption 19). -/
def cascadeAcknowledge (n : Level) (master : Pic) (s : State) : Res (Byte × State) :=
  let responders := s.slaves.filter fun sl => answers n sl.chip
  if responders.any fun sl => !sl.chip.upm then .refused .picMcsMode
  else
    match responders with
    | [sl] => .next (slaveType sl.chip, settlePics master (serveSlaves n s.slaves) s)
    | _ => .next (Config.freeBusByte s.draws, settlePics master (serveSlaves n s.slaves) (withDraw s))

/-- Whether this acknowledge answers with the default level 7 type: a free value when PIC_SPURIOUS is set, else never
(R143; assumption 21). -/
def spuriousNow (s : State) : Bool :=
  s.config.picSpurious && Config.freeSpurious s.draws

/-- `PicAcknowledge()` (R136), with the cascade of R142 and the default level 7 answer of R143. -/
def picAcknowledge (s : State) : Res (Byte × State) :=
  if !boardAdmitted s then .refused .picCountNotAdmitted
  else if s.pic.init = .uninit then .refused .picAcknowledgeBeforeIcw1
  else if !s.pic.upm then .refused .picMcsMode
  else
    let s' := if s.config.picSpurious then withDraw s else s
    if spuriousNow s then .next (typeOf s.pic 7, s')
    else
      match winner s.pic with
      | none => .next (typeOf s.pic 7, s')
      | some n =>
        if hasSlave s.pic n then
          if isMaster s.pic then cascadeAcknowledge n (serve n s.pic) s' else .refused .picRoleConflict
        else .next (typeOf s.pic n, settlePics (serve n s.pic) s'.slaves s')

/-! ### The processor's INTR input (R98, R99, R135) -/

/-- The present level of INTR: the 8259A's INT output when it is present, else the pin (R98, R135). -/
def intrLevel (s : State) : Bool :=
  if s.config.picPresent then intOut s.pic else s.intrPin

/-- `Acknowledge()`: the type of an INTR interrupt, from the 8259A or from the environment (R99). -/
def acknowledge (s : State) : Res (Byte × State) :=
  if s.config.picPresent then picAcknowledge s else .next (s.intaByte, s)

end Sys2Proof.Machine
end

