-- ==== Sys2Proof/Syntax.lean ====
section
/-! DEFINITION. The instructions in scope: one constructor per row of spec/opcode_table.json (30_encoding.md rule R62). -/

namespace Sys2Proof

/-- The six instructions of the opcode map (R62). -/
inductive Instr where
  /-- `INT 3`, the one-byte breakpoint (R71). -/
  | int3
  /-- `INT n`, the software interrupt of type `n`; all 256 values are legal (R61, R70). -/
  | intN (n : Byte)
  /-- `INTO`, interrupt on overflow (R72). -/
  | into
  /-- `IRET`, return from interrupt (R80). -/
  | iret
  /-- `CLI`, clear interrupt flag (R85). -/
  | cli
  /-- `STI`, set interrupt flag (R86). -/
  | sti
  deriving DecidableEq, Repr

end Sys2Proof
end

