-- ==== Sys2Proof/Machine/Boundary.lean ====
section
/-! DEFINITION. The instruction boundary: which of NMI, INTR and single step are recognised, and in which order
(60_exceptions.md rules R96 to R101). -/

namespace Sys2Proof.Machine

/-- Whether the rule of the instruction runs `InterruptSequence` itself: INT n, INT 3 and a taken INTO (R72, R101). -/
def runsSequence (i : Instr) (s : State) : Bool :=
  match i with
  | .int3 => true
  | .intN _ => true
  | .into => s.flags.OF
  | .iret => false
  | .cli => false
  | .sti => false

/-- The NMI latch is cleared and a sequence of type 2 runs (R97). -/
def takeNmi (s : State) : Res State :=
  interruptSequence 2 (withNmi false s)

/-- INTR is acknowledged and a sequence of the type read runs (R98, R99). -/
def takeIntr (s : State) : Res State :=
  andThen (acknowledge s) fun r => interruptSequence r.1 r.2

/-- A single-step sequence runs, of type 1 (R96). -/
def takeTrap (s : State) : Res State :=
  interruptSequence 1 s

/-- The end of the loop of R101: the single-step request left over, if any. -/
def afterNmi (trapDue : Bool) (s : State) : Res State :=
  if trapDue then takeTrap s else .next s

/-- The loop of R101, run after a sequence has been taken: NMI is examined again, then the single-step request left
over; neither can become pending inside the loop, so it goes round at most twice. -/
def afterSequence (trapDue : Bool) (s : State) : Res State :=
  if s.nmiPending then andThen (takeNmi s) (afterNmi trapDue) else afterNmi trapDue s

/-- Whether INTR is recognised: its level is high, IF = 1, and no STI shadow is in force (R98, R87). -/
def intrRecognised (shadow : Bool) (s : State) : Bool :=
  s.flags.IF && !shadow && intrLevel s

/-- The first cause recognised when the instruction ran no sequence itself: NMI, INTR, single step (R100, R101). -/
def recognise (shadow : Bool) (s : State) : Res State :=
  if s.nmiPending then andThen (takeNmi s) (afterSequence s.tfBefore)
  else if intrRecognised shadow s then andThen (takeIntr s) (afterSequence s.tfBefore)
  else if s.tfBefore then andThen (takeTrap s) (afterSequence false)
  else .next s

/-- `Boundary(tf_before, internal)` (R101); `tf_before` is the state's (R32). The shadow is read and cleared. -/
def boundary (internal : Bool) (s : State) : Res State :=
  if internal then afterSequence s.tfBefore (withShadow false s)
  else recognise s.stiShadow (withShadow false s)

end Sys2Proof.Machine
end

