-- ==== Sys2Proof/Machine/Operands.lean ====
section
/-! DEFINITION. Operand forms. In scope there are two: no operand, and the immediate byte of `INT n` (30_encoding.md
rules R60 and R61). The register file by name, with its byte halves (10_state.md rules R20 and R22), stands here for the
statements that say a register is preserved. -/

namespace Sys2Proof.Machine

/-- The immediate of `INT n` as an interrupt type: used directly, neither sign-extended nor scaled (R61). -/
def interruptType (n : Byte) : Byte :=
  n

/-- The 16-bit general and segment registers by name (R20, R22). -/
inductive Reg16 where
  | AX | BX | CX | DX | SP | BP | SI | DI | CS | DS | SS | ES
  deriving DecidableEq, Repr

/-- The byte halves of AX, BX, CX and DX (R20). -/
inductive Reg8 where
  | AL | BL | CL | DL | AH | BH | CH | DH
  deriving DecidableEq, Repr

/-- The value of a 16-bit register. -/
def readReg16 (r : Reg16) (s : State) : Word :=
  match r with
  | .AX => s.regs.ax
  | .BX => s.regs.bx
  | .CX => s.regs.cx
  | .DX => s.regs.dx
  | .SP => s.regs.sp
  | .BP => s.regs.bp
  | .SI => s.regs.si
  | .DI => s.regs.di
  | .CS => s.cs
  | .DS => s.ds
  | .SS => s.ss
  | .ES => s.es

/-- The value of a byte half: AX = AH ++ AL, and so for BX, CX and DX (R20). -/
def readReg8 (r : Reg8) (s : State) : Byte :=
  match r with
  | .AL => lowByte s.regs.ax
  | .BL => lowByte s.regs.bx
  | .CL => lowByte s.regs.cx
  | .DL => lowByte s.regs.dx
  | .AH => highByte s.regs.ax
  | .BH => highByte s.regs.bx
  | .CH => highByte s.regs.cx
  | .DH => highByte s.regs.dx

/-- The registers no rule of the spec writes: every general register but SP (R20), and DS, ES and SS (R22). -/
def untouchedRegs : List Reg16 :=
  [.AX, .BX, .CX, .DX, .BP, .SI, .DI, .DS, .ES, .SS]

end Sys2Proof.Machine
end

