-- ==== Sys2Proof/Machine/FlagControl.lean ====
section
/-! DEFINITION. Interrupt flag control, CLI and STI (42_interrupt_flag_control.md rules R85 to R88). -/

namespace Sys2Proof.Machine

/-- `CLI`: IP + 1; IF <- 0 (R85). -/
def execCli (s : State) : Res State :=
  .next (withFlags (clearIF s.flags) (advanceIp 1 s))

/-- Whether an STI sets the shadow: STI_SHADOW and IF was 0; a shadow already there stays (R86, R87). -/
def shadowAfterSti (s : State) : Bool :=
  s.stiShadow || (s.config.stiShadow && !s.flags.IF)

/-- `STI`: IP + 1; the shadow if STI_SHADOW and IF = 0; IF <- 1 (R86). -/
def execSti (s : State) : Res State :=
  .next (withFlags (setIF s.flags) (withShadow (shadowAfterSti s) (advanceIp 1 s)))

end Sys2Proof.Machine
end

