-- ==== Sys2Proof/Machine/Return.lean ====
section
/-! DEFINITION. The return from an interrupt, IRET (41_iret.md rules R80 to R83). -/

namespace Sys2Proof.Machine

/-- `IRET`: IP + 1, overwritten at once; then IP, CS and FLAGS are popped (R80). -/
def execIret (s : State) : Res State :=
  interruptReturn (advanceIp 1 s)

end Sys2Proof.Machine
end

