-- ==== Sys2Proof/Machine/Software.lean ====
section
/-! DEFINITION. The software interrupts INT 3, INT n and INTO (40_software_interrupts.md rules R70 to R73). -/

namespace Sys2Proof.Machine

/-- `INT 3`: IP + 1, then a sequence of type 3 (R71). -/
def execInt3 (s : State) : Res State :=
  interruptSequence 3 (advanceIp 1 s)

/-- `INT n`: IP + 2, then a sequence of type `n` (R70). -/
def execIntN (n : Byte) (s : State) : Res State :=
  interruptSequence (interruptType n) (advanceIp 2 s)

/-- `INTO`: IP + 1; if OF = 1, a sequence of type 4 (R72). -/
def execInto (s : State) : Res State :=
  if s.flags.OF then interruptSequence 4 (advanceIp 1 s) else .next (advanceIp 1 s)

end Sys2Proof.Machine
end

