-- ==== Sys2Proof/Machine/Environment.lean ====
section
/-! DEFINITION. What the environment does between two processor steps (00_scope.md rule R9, 60_exceptions.md rule R112),
and the reset event (70_reset_and_hazards.md rule R170). -/

namespace Sys2Proof.Machine

/-- `NmiEdge()`: the latch is set, one bit (R97). -/
def nmiEdge (s : State) : State :=
  withNmi true s

/-- The NMI pin driven; only a low-to-high transition is an edge (R97). -/
def driveNmi (v : Bool) (s : State) : State :=
  if v && !s.nmiPin then nmiEdge { s with nmiPin := v } else { s with nmiPin := v }

/-- The INTR pin driven (R98); read only when no 8259A is present (assumption 35). -/
def driveIntr (v : Bool) (s : State) : State :=
  { s with intrPin := v }

/-- The byte the environment will answer the acknowledge with (R99). -/
def driveInta (t : Byte) (s : State) : State :=
  { s with intaByte := t }

/-- `Reset()`: FLAGS, CS, IP, DS, SS, ES and the processor's latches as R34 says; the general registers, to which R34
gives no value, as after `State.reset` (assumption 1); memory, the 8259A and the pins are not touched (R170). The sampled
TF is cleared with the latches (assumption 31). -/
def resetEvent (s : State) : State :=
  { s with
    regs := Regs.reset, cs := 0xFFFF, ds := 0, ss := 0, es := 0, ip := 0, flags := flagsLoad 0
    nmiPending := false, stiShadow := false, tfBefore := false }

/-- The RESET pin driven (R9, R170). When it is released the processor's state is that of R34, whether or not a turn fell
in while it was asserted, so an NMI edge latched meanwhile does not survive. -/
def driveReset (v : Bool) (s : State) : State :=
  if s.resetPin && !v then resetEvent { s with resetPin := v } else { s with resetPin := v }

end Sys2Proof.Machine
end

