-- ==== Sys2Proof/WellFormed.lean ====
section
/-! DEFINITION. What makes an instruction, and the platform's launch data, well formed. -/

namespace Sys2Proof

/-- An instruction is well formed when its immediate is an interrupt type 0 to 255. "All 256 values are legal"
(30_encoding.md rule R61), and the operand's type holds no other, so no term of `Instr` is ill formed. -/
def Instr.wellFormed : Instr → Bool
  | .int3 => true
  | .intN n => n.toNat ≤ 255
  | .into => true
  | .iret => true
  | .cli => true
  | .sti => true

/-- A region of the launch memory is well formed when it is not empty and lies inside the 2^20 bytes of the address
space (R30). -/
def Region.wellFormed (r : Region) : Bool :=
  0 < r.size && r.base + r.size ≤ 1048576

/-- The parameters are well formed when every region is, the two ports of a chip are different addresses (R31), and the
board has one to nine 8259As (R4, `PIC_COUNT`). -/
def Config.wellFormed (c : Config) : Bool :=
  c.memoryMap.all Region.wellFormed && c.picA0Step != 0 && 1 ≤ c.picCount && c.picCount ≤ 9

end Sys2Proof
end

