-- ==== Sys2Proof/Decode.lean ====
section
/-! DEFINITION. Decoding any bytes, rejecting by name, and the encoder (30_encoding.md rules R60 to R68). -/

namespace Sys2Proof

/-- Why bytes spell no instruction in scope. -/
inductive DecodeError where
  /-- There is no byte at all. -/
  | noBytes
  /-- The first byte is not one of the six of R62 (R63, D18). -/
  | outOfScope (first : Byte)
  /-- The byte after CDH is missing. -/
  | immediateMissing
  deriving DecidableEq, Repr

/-- The length in bytes that the first byte alone determines (R60); `none` for a byte outside the map (R63). -/
def instrLength? (first : Byte) : Option Nat :=
  if first = 0xCD#8 then some 2
  else if first = 0xCC#8 then some 1
  else if first = 0xCE#8 then some 1
  else if first = 0xCF#8 then some 1
  else if first = 0xFA#8 then some 1
  else if first = 0xFB#8 then some 1
  else none

/-- Reads one instruction and gives back the bytes after it (the opcode map of R62). -/
def decode : List Byte → Except DecodeError (Instr × List Byte)
  | [] => .error .noBytes
  | first :: rest =>
    if first = 0xCC#8 then .ok (.int3, rest)
    else if first = 0xCD#8 then
      match rest with
      | [] => .error .immediateMissing
      | n :: rest' => .ok (.intN n, rest')
    else if first = 0xCE#8 then .ok (.into, rest)
    else if first = 0xCF#8 then .ok (.iret, rest)
    else if first = 0xFA#8 then .ok (.cli, rest)
    else if first = 0xFB#8 then .ok (.sti, rest)
    else .error (.outOfScope first)

/-- The bytes of an instruction, first byte first (the opcode map of R62). -/
def encode : Instr → List Byte
  | .int3 => [0xCC#8]
  | .intN n => [0xCD#8, n]
  | .into => [0xCE#8]
  | .iret => [0xCF#8]
  | .cli => [0xFA#8]
  | .sti => [0xFB#8]

/-- The length of an instruction in bytes (R60). -/
def Instr.length (i : Instr) : Nat :=
  (encode i).length

/-- The two bytes that lie at the fetch address when an instruction of `nbits` bits `w` is stored there, the bits above
`nbits` zero. -/
def tableBytes (nbits w : Nat) : List Byte :=
  let bits := w % 2 ^ nbits
  [BitVec.ofNat 8 bits, BitVec.ofNat 8 (bits / 256)]

/-- The instruction the decoder reads from the bits `w`, numbered as spec/opcode_table.json numbers them. -/
def decodeTableWord (nbits w : Nat) : Option Instr :=
  match decode (tableBytes nbits w) with
  | .ok (i, _) => some i
  | .error _ => none

end Sys2Proof
end

