-- ==== Sys2Proof/Machine/Fetch.lean ====
section
/-! DEFINITION. Fetching and decoding one instruction (30_encoding.md rule R68), and placing one where it is fetched. -/

namespace Sys2Proof.Machine

/-- The physical address of the byte `k` of the current instruction: offset IP + k modulo 2^16 (R23, R68). -/
def fetchAddr (k : Nat) (s : State) : Addr :=
  phys s.cs (s.ip + BitVec.ofNat 16 k)

/-- The bytes `k`, `k + 1`, ... of the current instruction, `n` of them, each read by itself (R68). -/
def fetchBytes (k n : Nat) (s : State) : Res (List Byte) :=
  match n with
  | 0 => .next []
  | n + 1 =>
    andThen (readByte (fetchAddr k s) s) fun b =>
    andThen (fetchBytes (k + 1) n s) fun rest =>
    .next (b :: rest)

/-- `Fetch()`: the first byte selects the length, then the instruction is decoded; a first byte outside the map is
refused with its address (R63, R68). -/
def fetch (s : State) : Res Instr :=
  andThen (readByte (fetchAddr 0 s) s) fun first =>
  match instrLength? first with
  | none => .refused (.opcodeOutOfScope first (fetchAddr 0 s))
  | some len =>
    andThen (fetchBytes 1 (len - 1) s) fun rest =>
    match decode (first :: rest) with
    | .ok r => .next r.1
    | .error _ => .refused (.opcodeOutOfScope first (fetchAddr 0 s))

/-- The launch memory made to hold the byte at `a`, if it did not (assumption 38). -/
def admitByte (a : Addr) (c : Config) : Config :=
  if existsAt c a then c
  else { c with memoryMap := { base := a.toNat, size := 1, writable := false } :: c.memoryMap }

/-- A byte given to the launch memory from outside the machine (assumption 29). -/
def loadByte (a : Addr) (v : Byte) (s : State) : State :=
  { s with mem := memPut a.toNat v s.mem, config := admitByte a s.config }

/-- Bytes given to the launch memory where the current instruction is fetched, from its byte `k` on. -/
def loadAtFetch (k : Nat) (bytes : List Byte) (s : State) : State :=
  match bytes with
  | [] => s
  | b :: rest => loadAtFetch (k + 1) rest (loadByte (fetchAddr k s) b s)

/-- The bytes where the next instruction is fetched, with the processor next to move and RESET not asserted
(assumption 38). -/
def placeInstruction (bytes : List Byte) (s : State) : State :=
  loadAtFetch 0 bytes { s with agenda := [], resetPin := false }

end Sys2Proof.Machine
end

