-- ==== Sys2Proof/Machine/Turn.lean ====
section
/-! DEFINITION. One turn of the processor, one move of the agenda, and one step of the machine (60_exceptions.md rule
R101, 00_scope.md rule R9). -/

namespace Sys2Proof.Machine

/-- The instruction fetched runs, then its boundary; `internal` is read off the instruction and the state it starts
from (R101). -/
def runInstr (i : Instr) (s : State) : Res State :=
  andThen (exec i s) (boundary (runsSequence i s))

/-- `Step()`: reset while RESET is asserted, else fetch, execute and boundary (R101). -/
def processorStep (s : State) : Res State :=
  if s.resetPin then .next (resetEvent s)
  else
    andThen (fetch (withTfBefore s.flags.TF s)) fun i =>
    runInstr i (withTfBefore s.flags.TF s)

/-- A turn in which the processor executes an out-of-scope instruction of `len` bytes, `act` being the effect of it that
the spec describes: as in `Step()`, nothing but reset while RESET is asserted, TF is sampled, IP is advanced, and the
boundary follows (R101; assumptions 25 and 26). -/
def outsideTurn (len : Nat) (internal : Bool) (act : State → Res State) (s : State) : Res State :=
  if s.resetPin then .next (resetEvent s)
  else andThen (act (advanceIp len (withTfBefore s.flags.TF s))) (boundary internal)

/-- A turn with a dividing instruction that raises the divide error: its destination registers hold free values, the
sequence of type 0 runs, and the boundary is told of an internal interrupt (R59, R95, R101; assumption 25). -/
def divideErrorStep (len : Nat) (wide : Bool) (s : State) : Res State :=
  outsideTurn len true (fun u => divideError (withDividendLost wide u)) s

/-- A turn with an OUT: the byte is written to the port, and the boundary follows (R31, R101, R177; assumption 26). -/
def portWriteStep (len : Nat) (port : Word) (d : Byte) (s : State) : Res State :=
  outsideTurn len false (portWrite port d) s

/-- A turn with an IN: the byte read at the port goes to AL, and the boundary follows (R31, R101; assumption 26). -/
def portReadStep (len : Nat) (port : Word) (s : State) : Res State :=
  outsideTurn len false (fun u => andThen (portRead port u) fun v => .next (withAl v.ioData v)) s

/-- One move of the agenda (R9, R112; assumption 7). -/
def takeMove (m : Move) (s : State) : Res State :=
  match m with
  | .processor => processorStep s
  | .divideError len wide => divideErrorStep len wide s
  | .portWrite len port d => portWriteStep len port d s
  | .portRead len port => portReadStep len port s
  | .nmi v => .next (driveNmi v s)
  | .intr v => .next (driveIntr v s)
  | .inta t => .next (driveInta t s)
  | .ir id n v => .next (driveIr id n v s)
  | .reset v => .next (driveReset v s)

/-- Whether a move is a turn of the processor: a `Step()`, or an instruction out of scope (R101). -/
def isTurn (m : Move) : Bool :=
  match m with
  | .processor => true
  | .divideError _ _ => true
  | .portWrite _ _ _ => true
  | .portRead _ _ => true
  | .nmi _ => false
  | .intr _ => false
  | .inta _ => false
  | .ir _ _ _ => false
  | .reset _ => false

/-- Whether the next step is a turn of the processor. -/
def turnIsNext (s : State) : Bool :=
  match s.agenda with
  | [] => true
  | m :: _ => isTurn m

/-- One step of the machine: the next move of the agenda; with nothing on it the environment is silent and the
processor takes its turn (assumption 7). -/
def machineStep (s : State) : Res State :=
  match s.agenda with
  | [] => processorStep s
  | m :: rest => takeMove m (withAgenda rest s)

end Sys2Proof.Machine
end

