-- ==== Sys2Proof/Safety.lean ====
section
/-! DEFINITION. What the statements are stated in: room on the stack, a vector that can be read, what one interrupt
sequence leaves, the machine's invariants, and the end of a run (70_reset_and_hazards.md rules R171, R181). -/

namespace Sys2Proof.Machine

/-! ### The frame of an interrupt sequence (R47, R92) -/

/-- The byte `k` of the frame the next interrupt sequence pushes: offset SP - 6 + k modulo 2^16 in the stack segment
(R47: "writes the six bytes `SS:SP+0` to `SS:SP+5` (new `SP`)"). -/
def frameAddr (s : State) (k : Nat) : Addr :=
  phys s.ss (s.regs.sp - 6 + BitVec.ofNat 16 k)

/-- The stack takes a frame: no push is at offset FFFFH (R43) and the six bytes are writable (R171 (a)). -/
def FrameRoom (s : State) : Prop :=
  s.regs.sp ≠ 1 ∧ s.regs.sp ≠ 3 ∧ s.regs.sp ≠ 5 ∧ ∀ k < 6, writableAt s.config (frameAddr s k) = true

/-- The vector of type `t` can be read once the frame is pushed: each of its four bytes exists and either has a value
or is one of the frame's (R50, R54, R171 (b)). -/
def VectorReady (t : Byte) (s : State) : Prop :=
  ∀ k < 4, existsAt s.config (vectorAddr t + BitVec.ofNat 20 k) = true ∧
    ((memGet (vectorAddr t + BitVec.ofNat 20 k).toNat s.mem).isSome = true ∨
      ∃ j < 6, vectorAddr t + BitVec.ofNat 20 k = frameAddr s j)

/-- What one interrupt sequence of type `n` that starts in `s` leaves in `t` (R92). -/
structure TookInterrupt (n : Byte) (s t : State) : Prop where
  /-- Nothing is written but SP (lowered by 6), IF, TF, CS, IP, memory, and the model's count of draws. -/
  rest : t = { s with
    regs := { s.regs with sp := s.regs.sp - 6 }
    flags := { s.flags with IF := false, TF := false }
    cs := t.cs, ip := t.ip, mem := t.mem, draws := s.draws + 1 }
  /-- The image of FLAGS as it was lies at +4 of the frame. -/
  image : readWord (frameAddr s 4) t = .next (flagsImage s)
  /-- The return CS lies at +2. -/
  savedCs : readWord (frameAddr s 2) t = .next s.cs
  /-- The return IP lies at +0. -/
  savedIp : readWord (frameAddr s 0) t = .next s.ip
  /-- IP is the word at the vector's address, as memory stands after the pushes. -/
  newIp : readWord (vectorAddr n) t = .next t.ip
  /-- CS is the word two bytes above. -/
  newCs : readWord (vectorAddr n + 2) t = .next t.cs
  /-- Every byte outside the six of the frame reads as before. -/
  elsewhere : ∀ a : Addr, (∀ k < 6, a ≠ frameAddr s k) → readByte a t = readByte a s

/-! ### Invariants -/

/-- Memory is in its canonical form and holds only bytes that exist (R30). -/
def MemoryInv (s : State) : Prop :=
  Memory.wf s.mem ∧ ∀ c ∈ s.mem, existsAt s.config (BitVec.ofNat 20 c.1) = true

/-- The registers of one 8259A agree with its position in the initialization sequence (R124 to R129). -/
structure PicConsistent (p : Pic) : Prop where
  /-- ICW3 is awaited only in a cascade (R129). -/
  icw3 : p.init = .wantICW3 → p.sngl = false
  /-- ICW4 is awaited only if ICW1 asked for it (R129). -/
  icw4 : p.init = .wantICW4 → p.ic4 = true
  /-- Without ICW4 its five fields are clear: MCS-80/85 mode (R124 (f)). -/
  noIcw4 : p.init ≠ .uninit → p.ic4 = false →
    p.sfnm = false ∧ p.buf = false ∧ p.ms = false ∧ p.aeoi = false ∧ p.upm = false
  /-- From ICW1 until the chip is ready no level is masked, IR7 is lowest, and no operation command is in force
  (R124 (b), (c), (e)). -/
  fresh : p.init ≠ .uninit → p.init ≠ .ready →
    p.imr = 0 ∧ p.lowest = 7 ∧ p.autoRotate = false ∧ p.smm = false ∧ p.readIsr = false ∧ p.poll = false
  /-- A slave that is ready has an identity and nothing else in ICW3 (R127). -/
  identity : p.init = .ready → badIdentity p = false

/-- The registers of one 8259A stay inside the admitted subset of R144. -/
structure PicAdmitted (p : Pic) : Prop where
  /-- One chip, with ICW4. -/
  single : p.init ≠ .uninit → p.sngl = true ∧ p.ic4 = true
  /-- 8086 mode, no special fully nested mode, no special mask mode, no poll. -/
  mode : p.init = .ready → p.upm = true ∧ p.sfnm = false ∧ p.smm = false ∧ p.poll = false

/-- Every chip of the machine is consistent, and inside the admitted subset when the parameters say so (R129, R144). -/
def PicInv (s : State) : Prop :=
  (PicConsistent s.pic ∧ ∀ sl ∈ s.slaves, PicConsistent sl.chip) ∧
    (s.config.picFull = false → PicAdmitted s.pic ∧ ∀ sl ∈ s.slaves, PicAdmitted sl.chip)

/-- The board has as many 8259As as the parameters say and admit (R4), slaves hang on different inputs of the master, and
each such input has the level of its slave's INT output (R9 (3), R142). -/
def CascadeInv (s : State) : Prop :=
  boardAdmitted s = true ∧ (s.slaves.map Slave.line).Nodup ∧ ∀ sl ∈ s.slaves, bitAt s.pic.ir sl.line = intOut sl.chip

/-- The STI shadow exists only between an STI and the boundary after it (R32 (c), R87): no step leaves it set. -/
def ShadowInv (s : State) : Prop :=
  s.stiShadow = false

/-- The invariants of the machine. -/
def Inv (s : State) : Prop :=
  MemoryInv s ∧ PicInv s ∧ CascadeInv s ∧ ShadowInv s

/-! ### The end of a run (R181) -/

/-- Whether the run of a test program has ended: the processor's turn is next, CS:IP equals `EXIT` as a pair, and RESET is
not asserted (R181). What the environment does before that turn still happens. It says nothing of the chip, which would
go on. -/
def ended (s : State) : Bool :=
  turnIsNext s && s.config.exit == some (s.cs, s.ip) && !s.resetPin

/-- At most `k` steps, stopping where the run has ended (R181). -/
def runToExit : Nat → State → Host.Outcome State Fault Refusal
  | 0, s => .next s
  | k + 1, s => if ended s then .next s else andThen (step s) (runToExit k)

end Sys2Proof.Machine
end

