-- ==== Sys2Proof/Certificates/Slice0/Obligations.lean ====
section
/-! DEFINITION. The statements for the provers. Each docstring names the rule of spec/ it formalises, or the sections it
rests on and, where a clause is a choice of the model or of the spec's author, that choice. -/

open Sys2Proof Sys2Proof.Machine

/-! ## Encoding and fetch (30_encoding.md) -/

/-- Words written out from the opcode map (30_encoding.md section 2; 95_test_vectors.md V01 to V05) decode to the
instructions they stand for. A sanity statement. -/
def Obligations.WrittenOutWordsDecode : Prop :=
  decode [0b11001100#8] = .ok (.int3, []) ∧
  decode [0b11001101#8, 0x21#8] = .ok (.intN 0x21#8, []) ∧
  decode [0b11001101#8, 0x03#8] = .ok (.intN 3#8, []) ∧
  decode [0b11001101#8, 0xFF#8] = .ok (.intN 255#8, []) ∧
  decode [0b11001110#8] = .ok (.into, []) ∧
  decode [0b11001111#8] = .ok (.iret, []) ∧
  decode [0b11111010#8] = .ok (.cli, []) ∧
  decode [0b11111011#8] = .ok (.sti, [])

/-- R62: the byte at Phys(CS, IP) selects the row; for `OP_IB` the byte at Phys(CS, IP + 1), offset modulo 2^16, is the
immediate; the formats' lengths are 1 and 2. -/
def Obligations.FetchFollowsTheOpcodeMap : Prop :=
  (∀ (s : State) (b0 : Byte), readByte (phys s.cs s.ip) s = .next b0 →
    (b0 = 0xCC#8 → fetch s = .next .int3) ∧
    (∀ b1, b0 = 0xCD#8 → readByte (phys s.cs (s.ip + 1)) s = .next b1 → fetch s = .next (.intN b1)) ∧
    (b0 = 0xCE#8 → fetch s = .next .into) ∧
    (b0 = 0xCF#8 → fetch s = .next .iret) ∧
    (b0 = 0xFA#8 → fetch s = .next .cli) ∧
    (b0 = 0xFB#8 → fetch s = .next .sti)) ∧
  ∀ i : Instr, i.length = match i with | .intN _ => 2 | _ => 1

/-- Every well-formed instruction's bytes, whatever follows them, decode to it and leave what follows; and bytes that
decode to an instruction are its bytes followed by what is left. So no bit of an encoding is dropped and no two
encodings overlap (30_encoding.md sections 1 and 2). -/
def Obligations.DecodeInvertsEncode : Prop :=
  ∀ (i : Instr) (bytes rest : List Byte),
    decode bytes = .ok (i, rest) ↔ i.wellFormed = true ∧ bytes = encode i ++ rest

/-- A first byte outside the opcode map is refused with the byte and its physical address named, whatever the flags and
the pins; it never becomes an interrupt (30_encoding.md section 2; the spec's own decision D18). -/
def Obligations.OtherFirstBytesAreRefused : Prop :=
  ∀ (s : State) (b0 : Byte), s.resetPin = false → s.agenda = [] →
    readByte (phys s.cs s.ip) s = .next b0 → b0 ∉ [0xCC#8, 0xCD#8, 0xCE#8, 0xCF#8, 0xFA#8, 0xFB#8] →
    step s = .refused (.opcodeOutOfScope b0 (phys s.cs s.ip))

/-- When the bytes at CS:IP decode to an instruction, a step runs `exec` of it on the state with TF sampled, and then
the boundary; on the processor's turn of the agenda likewise, with that turn used up (60_exceptions.md section 4, the
`Step()` algorithm; the agenda is the model's own, assumption 7). -/
def Obligations.StepRunsTheDecodedInstruction : Prop :=
  ∀ (s : State) (bytes : List Byte) (i : Instr), s.resetPin = false → decode bytes = .ok (i, []) →
    (∀ k b, bytes[k]? = some b → readByte (fetchAddr k s) s = .next b) →
    (s.agenda = [] →
      step s = andThen (exec i { s with tfBefore := s.flags.TF }) (boundary (runsSequence i s))) ∧
    ∀ rest, s.agenda = .processor :: rest →
      step s = andThen (exec i { s with agenda := rest, tfBefore := s.flags.TF }) (boundary (runsSequence i s))

/-! ## Memory and the stack (20_memory.md) -/

/-- R40: Phys(seg, off) = (seg * 16 + off) mod 2^20; the carry out of bit 19 is dropped; a paragraph more in the segment
is 16 more in the offset, so many logical addresses name the same byte; and every logical address the launch memory
makes writable can be written and read back. -/
def Obligations.PhysicalAddressFormation : Prop :=
  (∀ seg off : Word, (phys seg off).toNat = (seg.toNat * 16 + off.toNat) % 2 ^ 20) ∧
  phys 0xFFFF 0x0010 = 0 ∧
  (∀ seg off : Word, seg ≠ 0xFFFF → off.toNat + 16 < 2 ^ 16 → phys (seg + 1) off = phys seg (off + 16)) ∧
  ∀ (seg off : Word) (v : Byte) (s : State), writableAt s.config (phys seg off) = true →
    ∃ t, writeByte (phys seg off) v s = .next t ∧ readByte (phys seg off) t = .next v

/-- A word written at `a` puts its low byte at `a` and its high byte at `a + 1` modulo 2^20, reads back, and changes
nothing else (20_memory.md section 2; little-endian by the spec's decision D1). -/
def Obligations.WordsAreLittleEndian : Prop :=
  ∀ (s : State) (a : Addr) (v : Word), writableAt s.config a = true → writableAt s.config (a + 1) = true →
    ∃ t, writeWord a v s = .next t ∧ t = { s with mem := t.mem } ∧
      readByte a t = .next (v.extractLsb' 0 8) ∧ readByte (a + 1) t = .next (v.extractLsb' 8 8) ∧
      readWord a t = .next v ∧ ∀ b : Addr, b ≠ a → b ≠ a + 1 → readByte b t = readByte b s

/-- An access outside the launch memory, a write to a byte it does not make writable, and a read of a byte nothing has
written stop with a fault that names the byte (10_state.md section 5; the spec's decision D12; assumptions 2 and 36). -/
def Obligations.AccessOutsideLaunchMemoryStops : Prop :=
  ∀ (s : State) (a : Addr),
    (existsAt s.config a = false → readByte a s = .fault (.absentByte a) ∧
      ∀ v, writeByte a v s = .fault (.absentByte a)) ∧
    (existsAt s.config a = true → writableAt s.config a = false → ∀ v, writeByte a v s = .fault (.readOnlyByte a)) ∧
    (existsAt s.config a = true → memGet a.toNat s.mem = none → readByte a s = .fault (.unwrittenByte a))

/-- A push lowers SP by 2 modulo 2^16 and then writes the word at the new SS:SP, and nothing else; a pop reads the word at
SS:SP and raises SP by 2 modulo 2^16, and changes nothing else; what was pushed is popped; a push with SP = 0001H and a pop
with SP = FFFFH are refused (20_memory.md section 3; the refusals are the spec's decision D3). -/
def Obligations.PushAndPop : Prop :=
  (∀ (v : Word) (s : State),
    (s.regs.sp = 1 → push16 v s = .refused .wordPushAtFFFF) ∧
    (s.regs.sp ≠ 1 → writableAt s.config (phys s.ss (s.regs.sp - 2)) = true →
      writableAt s.config (phys s.ss (s.regs.sp - 1)) = true →
      ∃ t, push16 v s = .next t ∧ t = { s with regs := { s.regs with sp := s.regs.sp - 2 }, mem := t.mem } ∧
        readWord (phys s.ss (s.regs.sp - 2)) t = .next v ∧
        ∀ a : Addr, a ≠ phys s.ss (s.regs.sp - 2) → a ≠ phys s.ss (s.regs.sp - 1) → readByte a t = readByte a s)) ∧
  (∀ s : State, s.regs.sp = 0xFFFF → pop16 s = .refused .wordPopAtFFFF) ∧
  (∀ (s : State) (v : Word), s.regs.sp ≠ 0xFFFF → readWord (phys s.ss s.regs.sp) s = .next v →
    pop16 s = .next (v, { s with regs := { s.regs with sp := s.regs.sp + 2 } })) ∧
  ∀ (v : Word) (s t : State), push16 v s = .next t → pop16 t = .next (v, { s with mem := t.mem })

/-- The vector of type `t` lies at physical 4t to 4t + 3, the last at 3FCH; its IP word is the lower one and its CS word
the higher (20_memory.md section 4). -/
def Obligations.VectorTableEntry : Prop :=
  ∀ t : Byte, (vectorAddr t).toNat = 4 * t.toNat ∧ (vectorAddr t + 3).toNat ≤ 0x3FF ∧
    ∀ (s : State) (b0 b1 b2 b3 : Byte),
      readByte (vectorAddr t) s = .next b0 → readByte (vectorAddr t + 1) s = .next b1 →
      readByte (vectorAddr t + 2) s = .next b2 → readByte (vectorAddr t + 3) s = .next b3 →
      ivtRead t s = .next (b3 ++ b2, b1 ++ b0)

/-! ## FLAGS (10_state.md section 4) -/

/-- Each flag stands at its bit of the image, whatever the reserved bits, and is loaded from that bit; loading an image
gives the flags it was made of; a load ignores the reserved bits (10_state.md section 4; the reserved bits are a draw by
the spec's decision D4). -/
def Obligations.FlagsImageAndLoadAgree : Prop :=
  (∀ (f : Flags) (r : Word), flagsLoad (imageWith f r) = f ∧
    (imageWith f r).getLsbD 0 = f.CF ∧ (imageWith f r).getLsbD 2 = f.PF ∧ (imageWith f r).getLsbD 4 = f.AF ∧
    (imageWith f r).getLsbD 6 = f.ZF ∧ (imageWith f r).getLsbD 7 = f.SF ∧ (imageWith f r).getLsbD 8 = f.TF ∧
    (imageWith f r).getLsbD 9 = f.IF ∧ (imageWith f r).getLsbD 10 = f.DF ∧ (imageWith f r).getLsbD 11 = f.OF) ∧
  ∀ w v : Word, w &&& 0x0FD5 = v &&& 0x0FD5 → flagsLoad w = flagsLoad v

/-! ## The instructions -/

/-- INT n, INT 3 and INTO with OF = 1 run their sequence of type n, 3 and 4 with the address of the following
instruction stacked; INTO with OF = 0 does nothing but advance IP. Where the frame has room and the vector can be read
each answers a next state (R73; the instructions of 40_software_interrupts.md). Whether the boundary sees an internal
interrupt taken is true of INTO exactly when OF was 1. -/
def Obligations.SoftwareInterruptsComplete : Prop :=
  ∀ s : State,
    (FrameRoom s → ∀ n, VectorReady n s →
      ∃ t, exec (.intN n) s = .next t ∧ TookInterrupt n { s with ip := s.ip + 2 } t) ∧
    (FrameRoom s → VectorReady 3 s → ∃ t, exec .int3 s = .next t ∧ TookInterrupt 3 { s with ip := s.ip + 1 } t) ∧
    (s.flags.OF = true → FrameRoom s → VectorReady 4 s →
      ∃ t, exec .into s = .next t ∧ TookInterrupt 4 { s with ip := s.ip + 1 } t ∧ t.flags.OF = true) ∧
    (s.flags.OF = false → exec .into s = .next { s with ip := s.ip + 1 }) ∧
    runsSequence .into s = s.flags.OF ∧ runsSequence .int3 s = true ∧ ∀ n, runsSequence (.intN n) s = true

/-- R92: the same six steps serve every kind of interrupt: INT n, INT 3, a taken INTO, the divide error, NMI, INTR and
single step each leave exactly what `TookInterrupt` says of their type, whenever they complete, and complete wherever
the frame has room and the vector can be read. -/
def Obligations.EveryCauseRunsTheSameSequence : Prop :=
  ∀ s : State,
    (∀ n t, exec (.intN n) s = .next t → TookInterrupt n { s with ip := s.ip + 2 } t) ∧
    (∀ t, exec .int3 s = .next t → TookInterrupt 3 { s with ip := s.ip + 1 } t) ∧
    (∀ t, s.flags.OF = true → exec .into s = .next t → TookInterrupt 4 { s with ip := s.ip + 1 } t) ∧
    (∀ t, divideError s = .next t → TookInterrupt 0 s t) ∧
    (∀ t, takeNmi s = .next t → TookInterrupt 2 { s with nmiPending := false } t) ∧
    (∀ t, takeTrap s = .next t → TookInterrupt 1 s t) ∧
    (∀ r t, acknowledge s = .next r → takeIntr s = .next t → TookInterrupt r.1 r.2 t) ∧
    (FrameRoom s →
      (VectorReady 0 s → ∃ t, divideError s = .next t) ∧ (VectorReady 2 s → ∃ t, takeNmi s = .next t) ∧
      (VectorReady 1 s → ∃ t, takeTrap s = .next t) ∧
      (s.config.picPresent = false → VectorReady s.intaByte s → ∃ t, takeIntr s = .next t))

/-- IRET pops IP, CS and FLAGS, in that order from SS:SP up, loads all nine flags, raises SP by 6, and changes nothing
else (41_iret.md; that IP and CS are popped is the spec's inference from the response sequence, 90_conflicts.md C1). -/
def Obligations.IretCompletes : Prop :=
  ∀ (s : State) (newIp newCs w : Word),
    s.regs.sp ≠ 0xFFFF → s.regs.sp ≠ 0xFFFD → s.regs.sp ≠ 0xFFFB →
    readWord (phys s.ss s.regs.sp) s = .next newIp → readWord (phys s.ss (s.regs.sp + 2)) s = .next newCs →
    readWord (phys s.ss (s.regs.sp + 4)) s = .next w →
    exec .iret s = .next { s with
      ip := newIp, cs := newCs, regs := { s.regs with sp := s.regs.sp + 6 }
      flags := { OF := w.getLsbD 11, DF := w.getLsbD 10, IF := w.getLsbD 9, TF := w.getLsbD 8, SF := w.getLsbD 7,
                 ZF := w.getLsbD 6, AF := w.getLsbD 4, PF := w.getLsbD 2, CF := w.getLsbD 0 } }

/-- CLI clears IF and advances IP, and changes nothing else (42_interrupt_flag_control.md, CLI). -/
def Obligations.CliClearsIf : Prop :=
  ∀ s : State, exec .cli s = .next { s with ip := s.ip + 1, flags := { s.flags with IF := false } }

/-- STI advances IP, sets IF, sets the shadow if STI_SHADOW and IF was 0, and changes nothing else
(42_interrupt_flag_control.md, STI). That there is a shadow, and the parameter, are the spec's decision D7
(assumption 12). -/
def Obligations.StiSetsIfAndShadow : Prop :=
  ∀ s : State,
    (s.config.stiShadow = true → s.flags.IF = false →
      exec .sti s = .next { s with ip := s.ip + 1, stiShadow := true, flags := { s.flags with IF := true } }) ∧
    (s.config.stiShadow = false ∨ s.flags.IF = true →
      exec .sti s = .next { s with ip := s.ip + 1, flags := { s.flags with IF := true } })

/-- The frame of every instruction, whenever it answers a next state: no general or segment register but SP and CS, no
pin, latch, chip, parameter or input changes; the shadow only by STI; the six arithmetic flags and DF only by IRET, IF
and TF as each rule says; memory only in the six bytes of the frame, and not at all by IRET, CLI, STI and an INTO not
taken (the "State written" and "Flags written" lines of 40_software_interrupts.md, 41_iret.md and
42_interrupt_flag_control.md). -/
def Obligations.InstructionFrames : Prop :=
  ∀ (i : Instr) (s t : State), exec i s = .next t →
    t = { s with
      regs := { s.regs with sp := t.regs.sp }
      cs := t.cs, ip := t.ip, flags := t.flags, mem := t.mem, stiShadow := t.stiShadow, draws := t.draws } ∧
    (i ≠ .sti → t.stiShadow = s.stiShadow) ∧
    (i ≠ .iret → t.flags = { s.flags with IF := t.flags.IF, TF := t.flags.TF }) ∧
    ((i = .cli ∨ i = .sti ∨ (i = .into ∧ s.flags.OF = false)) →
      t.flags.TF = s.flags.TF ∧ t.regs.sp = s.regs.sp ∧ t.cs = s.cs ∧ t.draws = s.draws) ∧
    (i = .into → s.flags.OF = false → t.flags = s.flags) ∧
    ((i = .iret ∨ i = .cli ∨ i = .sti ∨ (i = .into ∧ s.flags.OF = false)) → ∀ a, readByte a t = readByte a s) ∧
    ((i = .int3 ∨ (∃ n, i = .intN n) ∨ (i = .into ∧ s.flags.OF = true)) →
      t.regs.sp = s.regs.sp - 6 ∧ ∀ a : Addr, (∀ k < 6, a ≠ frameAddr s k) → readByte a t = readByte a s)

/-- An interrupt sequence and the IRET that ends its handler are inverse: after INT n and IRET every register, flag,
latch and chip is as before but IP, which is past the instruction; only the six bytes of the frame may differ
(40_software_interrupts.md, 41_iret.md: the handler returns to the previous task). -/
def Obligations.IretReturnsFromIntN : Prop :=
  ∀ (n : Byte) (s : State), FrameRoom s → VectorReady n s →
    ∃ t u, exec (.intN n) s = .next t ∧ exec .iret t = .next u ∧
      u = { s with ip := s.ip + 2, mem := u.mem, draws := s.draws + 1 } ∧
      ∀ a : Addr, (∀ k < 6, a ≠ frameAddr s k) → readByte a u = readByte a s

/-- A word push at offset FFFFH is refused at whichever of the three pushes it would happen, and a word pop at whichever
of the three pops (20_memory.md section 2, 95_test_vectors.md V51; the spec's decision D3). -/
def Obligations.WordAtOffsetFFFFIsRefused : Prop :=
  ∀ (s : State) (n : Byte),
    (s.regs.sp = 1 → exec (.intN n) s = .refused .wordPushAtFFFF) ∧
    (s.regs.sp = 3 → (∀ k < 6, 4 ≤ k → writableAt s.config (frameAddr s k) = true) →
      exec (.intN n) s = .refused .wordPushAtFFFF) ∧
    (s.regs.sp = 5 → (∀ k < 6, 2 ≤ k → writableAt s.config (frameAddr s k) = true) →
      exec (.intN n) s = .refused .wordPushAtFFFF) ∧
    (s.regs.sp = 0xFFFF → exec .iret s = .refused .wordPopAtFFFF) ∧
    (∀ v, s.regs.sp = 0xFFFD → readWord (phys s.ss 0xFFFD) s = .next v → exec .iret s = .refused .wordPopAtFFFF) ∧
    (∀ v w, s.regs.sp = 0xFFFB → readWord (phys s.ss 0xFFFB) s = .next v → readWord (phys s.ss 0xFFFD) s = .next w →
      exec .iret s = .refused .wordPopAtFFFF)

/-! ## The boundary (60_exceptions.md sections 3 and 4) -/

/-- The divide error of an out-of-scope dividing instruction of `len` bytes: a sequence of type 0 with the following
instruction's address stacked, then the boundary that follows an internal interrupt. AX, and DX after a word division,
hold free values, of which the statement says nothing; DX is kept otherwise (60_exceptions.md section 3, 20_memory.md
section 6; the move that brings it in, and which registers are the destination, are the model's, assumption 25). -/
def Obligations.DivideErrorIsTypeZero : Prop :=
  ∀ (len : Nat) (wide : Bool) (s : State) (rest : List Move), s.agenda = .divideError len wide :: rest →
    s.resetPin = false → FrameRoom s → VectorReady 0 s →
    ∃ u, TookInterrupt 0
        { s with
          agenda := rest, ip := s.ip + BitVec.ofNat 16 len, tfBefore := s.flags.TF, draws := s.draws + 1
          regs := { s.regs with ax := u.regs.ax, dx := u.regs.dx } } u ∧
      (wide = false → u.regs.dx = s.regs.dx) ∧
      step s = boundary true u ∧
      (s.flags.TF = false → s.nmiPending = false → step s = .next { u with stiShadow := false })

/-- CLI takes effect at its own boundary: with no NMI latched and no single step due, the turn ends with IF = 0 and
nothing taken, whatever the level of INTR and whatever the 8259A (42_interrupt_flag_control.md, CLI; the spec's decision
D7). -/
def Obligations.CliTurnTakesNoIntr : Prop :=
  ∀ s : State, s.nmiPending = false → s.tfBefore = false →
    runInstr .cli s =
      .next { s with ip := s.ip + 1, stiShadow := false, flags := { s.flags with IF := false } }

/-- The STI shadow: with STI_SHADOW, an STI that changes IF from 0 to 1 takes no INTR at its own boundary, whatever the
level; without it, a high INTR with type byte `intaByte` is taken there (42_interrupt_flag_control.md, STI shadow; the
spec's decision D7). -/
def Obligations.StiShadowDelaysIntr : Prop :=
  ∀ s : State, s.nmiPending = false → s.tfBefore = false → s.stiShadow = false → s.flags.IF = false →
    (s.config.stiShadow = true →
      runInstr .sti s = .next { s with ip := s.ip + 1, flags := { s.flags with IF := true } }) ∧
    (s.config.stiShadow = false → s.config.picPresent = false → s.intrPin = true → FrameRoom s →
      VectorReady s.intaByte s →
      ∃ t, runInstr .sti s = .next t ∧
        TookInterrupt s.intaByte { s with ip := s.ip + 1, flags := { s.flags with IF := true } } t)

/-- INTR still high at the boundary after an IRET that loads IF = 1 is taken at once, and the return address stacked is
the one IRET has just returned to (41_iret.md; 60_exceptions.md section 4). -/
def Obligations.IntrTakenRightAfterIret : Prop :=
  ∀ s u : State, exec .iret s = .next u → u.flags.IF = true → s.nmiPending = false → s.tfBefore = false →
    s.stiShadow = false → s.config.picPresent = false → s.intrPin = true → FrameRoom u → VectorReady s.intaByte u →
    ∃ t, runInstr .iret s = .next t ∧ TookInterrupt s.intaByte u t

/-- NMI is recognised before INTR and whatever IF is: at the boundary after any instruction, also one that ran a sequence
itself, a latched NMI runs a sequence of type 2 and its latch is cleared; INTR is not acknowledged; and if TF was 1 before
the instruction a sequence of type 1 follows, else nothing (60_exceptions.md sections 3 and 4; recognition order fixed by
the spec's decision D8, assumption 13). -/
def Obligations.NmiIsRecognisedFirst : Prop :=
  ∀ (i : Instr) (s u : State), exec i s = .next u → s.nmiPending = true → FrameRoom u → VectorReady 2 u →
    ∃ v, takeNmi { u with stiShadow := false } = .next v ∧
      TookInterrupt 2 { u with nmiPending := false, stiShadow := false } v ∧
      (s.tfBefore = false → runInstr i s = .next v) ∧
      (s.tfBefore = true → FrameRoom v → VectorReady 1 v → ∃ t, runInstr i s = .next t ∧ TookInterrupt 1 v t)

/-- With IF = 0 no boundary reads INTR, the type byte, or the 8259A: two states that differ only there go through the
boundary alike (10_state.md section 4 and 60_exceptions.md section 3: IF = 0 masks INTR). -/
def Obligations.BoundaryIsBlindToMaskedIntr : Prop :=
  ∀ (internal : Bool) (s : State) (level : Bool) (t : Byte) (p : Pic) (l : List Slave), s.flags.IF = false →
    boundary internal { s with intrPin := level, intaByte := t, pic := p, slaves := l } =
      andThen (boundary internal s) fun u => .next { u with intrPin := level, intaByte := t, pic := p, slaves := l }

/-- The whole of the boundary after an instruction that ran no sequence itself. With neither NMI nor INTR recognised it
runs a sequence of type 1 if TF was 1 before the instruction, else nothing. A latched NMI runs a sequence of type 2, and an
INTR recognised with no NMI latched one of the type acknowledged; after either the single step follows if TF was 1, else
nothing (60_exceptions.md sections 3 and 4, 95_test_vectors.md V43 to V45; the order and the sampling of TF are the spec's
decision D8, assumption 13). -/
def Obligations.SingleStepIsTakenLast : Prop :=
  ∀ s : State,
    (s.nmiPending = false → (s.flags.IF = false ∨ s.stiShadow = true ∨ intrLevel s = false) →
      (s.tfBefore = false → boundary false s = .next { s with stiShadow := false }) ∧
      (s.tfBefore = true → FrameRoom s → VectorReady 1 s →
        ∃ t, boundary false s = .next t ∧ TookInterrupt 1 { s with stiShadow := false } t)) ∧
    (s.nmiPending = true → FrameRoom s → VectorReady 2 s →
      ∃ v, takeNmi { s with stiShadow := false } = .next v ∧
        TookInterrupt 2 { s with nmiPending := false, stiShadow := false } v ∧
        (s.tfBefore = false → boundary false s = .next v) ∧
        (s.tfBefore = true → FrameRoom v → VectorReady 1 v →
          ∃ t, boundary false s = .next t ∧ TookInterrupt 1 v t)) ∧
    (s.nmiPending = false → s.flags.IF = true → s.stiShadow = false → intrLevel s = true →
      ∀ r, acknowledge s = .next r → FrameRoom s → VectorReady r.1 s →
      ∃ v, takeIntr s = .next v ∧ TookInterrupt r.1 r.2 v ∧
        (s.tfBefore = false → boundary false s = .next v) ∧
        (s.tfBefore = true → FrameRoom v → VectorReady 1 v →
          ∃ t, boundary false s = .next t ∧ TookInterrupt 1 v t))

/-- The trap after an instruction uses TF from before it: an IRET that began with TF = 0 and loads TF = 1 is followed by
no trap (41_iret.md; the spec's decision D8; assumption 13). -/
def Obligations.IretLoadingTfIsNotTrapped : Prop :=
  ∀ s u : State, s.resetPin = false → s.agenda = [] → s.flags.TF = false → fetch s = .next .iret →
    exec .iret { s with tfBefore := false } = .next u → u.flags.TF = true → s.nmiPending = false →
    (u.flags.IF = false ∨ intrLevel s = false) →
    step s = .next { u with stiShadow := false }

/-- The whole of the boundary after an instruction that ran a sequence itself: INT n, INT 3 and a taken INTO, whose
sequence is of type n, 3 and 4, and the divide error. A latched NMI runs a sequence of type 2; then, if TF was 1 before
the instruction, a sequence of type 1 follows, whose frame returns to the first instruction of the handler entered last;
INTR is not examined (60_exceptions.md section 4, 40_software_interrupts.md, 95_test_vectors.md V18, V42 and V46; the
order is the spec's decision D8, assumption 13). -/
def Obligations.NmiAndTrapFollowTheInstructionsOwnSequence : Prop :=
  (∀ (i : Instr) (s u : State), exec i s = .next u → runsSequence i s = true →
    runInstr i s = boundary true u ∧ u.tfBefore = s.tfBefore ∧ u.nmiPending = s.nmiPending ∧
      match i with
      | .intN n => TookInterrupt n { s with ip := s.ip + 2 } u
      | .int3 => TookInterrupt 3 { s with ip := s.ip + 1 } u
      | _ => i = .into ∧ TookInterrupt 4 { s with ip := s.ip + 1 } u) ∧
  ∀ u : State,
    (u.nmiPending = false → u.tfBefore = false → boundary true u = .next { u with stiShadow := false }) ∧
    (u.nmiPending = false → u.tfBefore = true → FrameRoom u → VectorReady 1 u →
      ∃ t, boundary true u = .next t ∧ TookInterrupt 1 { u with stiShadow := false } t ∧
        readWord (frameAddr u 0) t = .next u.ip ∧ readWord (frameAddr u 2) t = .next u.cs) ∧
    (u.nmiPending = true → FrameRoom u → VectorReady 2 u →
      ∃ v, takeNmi { u with stiShadow := false } = .next v ∧
        TookInterrupt 2 { u with nmiPending := false, stiShadow := false } v ∧
        (u.tfBefore = false → boundary true u = .next v) ∧
        (u.tfBefore = true → FrameRoom v → VectorReady 1 v →
          ∃ t, boundary true u = .next t ∧ TookInterrupt 1 v t ∧
            readWord (frameAddr v 0) t = .next v.ip ∧ readWord (frameAddr v 2) t = .next v.cs))

/-- In one turn of the processor at most three sequences run, each lowering SP by 6, after the 6 an IRET raises it by;
and no byte is written but those of their frames, directly below the stack pointer (60_exceptions.md section 4;
20_memory.md section 5: in scope the only writes are pushes). -/
def Obligations.TurnPushesAtMostThreeFrames : Prop :=
  ∀ (i : Instr) (s t : State), runInstr i s = .next t →
    ∃ k ≤ 3, t.regs.sp = (if i = .iret then s.regs.sp + 6 else s.regs.sp) - BitVec.ofNat 16 (6 * k) ∧
      ∀ a : Addr,
        (∀ j < 6 * k, a ≠ phys s.ss ((if i = .iret then s.regs.sp + 6 else s.regs.sp) - 1 - BitVec.ofNat 16 j)) →
        readByte a t = readByte a s

/-- An INTR delivered by a single 8259A, end to end: with INT high, IF = 1, no shadow and no NMI, the boundary
acknowledges the winning level, whose in-service bit is set and edge latch cleared, and runs the sequence of type
T ++ level (60_exceptions.md, end of part 2). -/
def Obligations.IntrThroughThePic : Prop :=
  ∀ (s : State) (n : Level), s.config.picPresent = true → boardAdmitted s = true → s.config.picSpurious = false →
    s.slaves = [] → s.pic.init = .ready → s.pic.upm = true → s.pic.sngl = true → s.pic.aeoi = false →
    winner s.pic = some n →
    s.flags.IF = true → s.stiShadow = false → s.nmiPending = false → s.tfBefore = false →
    FrameRoom s → VectorReady (s.pic.t ++ n) s →
    ∃ (t : State) (p : Pic), boundary false s = .next t ∧ TookInterrupt (s.pic.t ++ n) { s with pic := p } t ∧
      bitAt p.isr n = true ∧ bitAt p.edge n = false ∧
      (∀ m, m ≠ n → bitAt p.isr m = bitAt s.pic.isr m ∧ bitAt p.edge m = bitAt s.pic.edge m)

/-! ## Whole-machine rules -/

/-- No step but a reset changes AX, BX, CX, DX, BP, SI, DI, DS, ES or SS: nothing in scope writes them. The turns with an
instruction out of scope write AX in an IN, of it AL only, and AX and in a word division DX in a divide error
(10_state.md sections 1 and 2; those turns are the model's, assumptions 25 and 26). -/
def Obligations.OnlyResetWritesTheOtherRegisters : Prop :=
  ∀ s t : State, step s = .next t → s.resetPin = false → ∀ r ∈ untouchedRegs,
    readReg16 r t = readReg16 r s ∨
    (r = .AX ∧ ∃ len port rest, s.agenda = .portRead len port :: rest ∧ readReg8 .AH t = readReg8 .AH s) ∨
    (r = .AX ∧ ∃ len wide rest, s.agenda = .divideError len wide :: rest) ∨
    (r = .DX ∧ ∃ len rest, s.agenda = .divideError len true :: rest)

/-- IF becomes 1 only by an STI or an IRET the processor fetches (10_state.md section 4: "Nothing else in scope writes
it"). -/
def Obligations.OnlyStiAndIretSetIf : Prop :=
  ∀ s t : State, step s = .next t → s.flags.IF = false → t.flags.IF = true →
    s.resetPin = false ∧ (s.agenda = [] ∨ ∃ rest, s.agenda = .processor :: rest) ∧
      (fetch s = .next .sti ∨ fetch s = .next .iret)

/-- The six arithmetic flags and DF change only when IRET loads the whole register, or at reset (10_state.md section 4). -/
def Obligations.OnlyIretWritesTheOtherFlags : Prop :=
  ∀ s t : State, step s = .next t → s.resetPin = false → fetch s ≠ .next .iret →
    t.flags.CF = s.flags.CF ∧ t.flags.PF = s.flags.PF ∧ t.flags.AF = s.flags.AF ∧ t.flags.ZF = s.flags.ZF ∧
    t.flags.SF = s.flags.SF ∧ t.flags.DF = s.flags.DF ∧ t.flags.OF = s.flags.OF

/-- No step changes the parameters, the number of slaves or their wiring: they are launch data (00_scope.md section 3;
that they stand in the state is the model's choice, assumption 4). -/
def Obligations.NoStepChangesTheParameters : Prop :=
  ∀ s t : State, step s = .next t →
    t.config = s.config ∧ t.slaves.map Slave.line = s.slaves.map Slave.line ∧
      t.slaves.map Slave.base = s.slaves.map Slave.base

/-- What the environment may do between two turns always has a next state, writes no processor register, no flag and no
memory, and sets what it drives: the level of INTR, the acknowledge byte, RESET, the level of an IR input with its edge latch
(60_exceptions.md sections 3, 5 and 9, 70_reset_and_hazards.md section 1). The release of RESET, which is the reset event, is
aside, and of the NMI pin NmiEdgeIsLatched says more. That an input a slave drives and a chip that does not exist take
nothing, and that the INTR pin is kept where an 8259A is present, is the model's choice (assumption 35); that the acknowledge
byte is a move of its own is assumption 8. -/
def Obligations.EnvironmentWritesNoRegisterOrMemory : Prop :=
  ∀ (s : State) (m : Move) (rest : List Move), s.agenda = m :: rest →
    (match m with
      | .nmi _ | .intr _ | .inta _ | .ir _ _ _ => True
      | .reset level => level = true ∨ s.resetPin = false
      | _ => False) →
    ∃ t, step s = .next t ∧ t.agenda = rest ∧ t.regs = s.regs ∧ t.cs = s.cs ∧ t.ds = s.ds ∧ t.ss = s.ss ∧
      t.es = s.es ∧ t.ip = s.ip ∧ t.flags = s.flags ∧ t.mem = s.mem ∧ t.stiShadow = s.stiShadow ∧
      t.tfBefore = s.tfBefore ∧ (s.nmiPending = true → t.nmiPending = true) ∧
      (match m with
        | .nmi v => t = { s with agenda := rest, nmiPin := v, nmiPending := t.nmiPending }
        | .intr v => t = { s with agenda := rest, intrPin := v }
        | .inta b => t = { s with agenda := rest, intaByte := b }
        | .reset v => t = { s with agenda := rest, resetPin := v }
        | .ir id n v =>
          (chipOf id s = none ∨ id = .master ∧ (∃ sl ∈ s.slaves, sl.line = n) → t = { s with agenda := rest }) ∧
          ∀ p, chipOf id s = some p → (id = .master → ∀ sl ∈ s.slaves, sl.line ≠ n) →
            t = setChip id (irChange n v p) { s with agenda := rest }
        | _ => False)

/-- A low-to-high transition of the NMI pin sets the latch; a high or falling level leaves it as it is, set or not: the
request is remembered when the pin falls, and it is one bit, not a counter (60_exceptions.md section 3, NMI; the sensing
is the spec's decision D9). -/
def Obligations.NmiEdgeIsLatched : Prop :=
  ∀ (s : State) (v : Bool) (rest : List Move), s.agenda = .nmi v :: rest →
    step s = .next { s with
      agenda := rest, nmiPin := v
      nmiPending := if v = true ∧ s.nmiPin = false then true else s.nmiPending }

/-- A turn of the processor with RESET asserted, be it of an instruction out of scope, and the release of RESET: FLAGS 0,
CS:IP = FFFFH:0000H, DS = SS = ES = 0, the latches false, memory, the other pins and the 8259A untouched
(70_reset_and_hazards.md section 1). That the NMI latch is cleared is the spec's decision D11 (assumption 10), and that
the sampled TF is cleared too is the model's reading (assumption 31). That the general registers become 0 is the model's
choice (assumption 1); the statement says nothing of them. -/
def Obligations.ResetEventState : Prop :=
  ∀ (s : State) (rest : List Move) (level : Bool), s.resetPin = true →
    (s.agenda = [] ∧ rest = [] ∧ level = true) ∨ (∃ m, s.agenda = m :: rest ∧ isTurn m = true ∧ level = true) ∨
      (s.agenda = .reset false :: rest ∧ level = false) →
    ∃ t, step s = .next t ∧
      t = { s with
        agenda := rest, resetPin := level
        regs := t.regs, flags := flagsLoad 0, cs := 0xFFFF, ip := 0, ds := 0, ss := 0, es := 0
        nmiPending := false, stiShadow := false, tfBefore := false } ∧
      t.flags.IF = false ∧ t.flags.TF = false ∧ (phys t.cs t.ip).toNat = 0xFFFF0

/-- The state after reset: IF and every other flag 0, CS:IP = FFFFH:0000H (first fetch at FFFF0H), DS = SS = ES = 0, no
latch set, every byte of memory without a value, the 8259A before its first ICW1 (10_state.md section 7).
That the NMI latch is clear is the spec's decision D11 (assumption 10), and that no byte has a value is how the model says
that power-on contents are unspecified (assumption 2). It says nothing of the values the model chose (assumptions 1, 4, 8,
9, 11). -/
def Obligations.ResetStateValues : Prop :=
  State.reset.flags = flagsLoad 0 ∧ State.reset.flags.IF = false ∧
  (phys State.reset.cs State.reset.ip).toNat = 0xFFFF0 ∧ State.reset.cs = 0xFFFF ∧ State.reset.ip = 0 ∧
  State.reset.ds = 0 ∧ State.reset.ss = 0 ∧ State.reset.es = 0 ∧ State.reset.nmiPending = false ∧
  State.reset.stiShadow = false ∧ State.reset.tfBefore = false ∧ State.reset.pic.init = .uninit ∧
  ∀ a : Addr, memGet a.toNat State.reset.mem = none

/-! ## Invariants -/

/-- Every step keeps memory in its canonical form, with only bytes that exist in it (10_state.md section 5). -/
def Obligations.MemoryInvariantIsKept : Prop :=
  ∀ s t : State, MemoryInv s → step s = .next t → MemoryInv t

/-- Every step keeps each 8259A consistent with its position in the initialization sequence, a slave that is ready with an
identity and no other bit in ICW3, and inside the admitted subset when the parameters say so (60_exceptions.md sections 7
and 9; the subset is the spec's decision D16, where a slave's ICW3 is refused is assumption 24). -/
def Obligations.PicInvariantIsKept : Prop :=
  ∀ s t : State, PicInv s → step s = .next t → PicInv t

/-- Every step keeps the number of 8259As the parameters say and admit, and the level of each master input a slave hangs on
equal to that slave's INT output (00_scope.md sections 3 and 6, 60_exceptions.md section 9; how the outputs reach the
inputs is the model's reading, assumption 18, and that PIC_COUNT stands beside the list of slaves assumption 41). -/
def Obligations.CascadeInvariantIsKept : Prop :=
  ∀ s t : State, CascadeInv s → step s = .next t → CascadeInv t

/-- No step leaves the STI shadow set: it lives only from an STI to the boundary directly after it (10_state.md
section 6). -/
def Obligations.ShadowNeverOutlivesItsBoundary : Prop :=
  ∀ s t : State, ShadowInv s → step s = .next t → ShadowInv t

/-- The state after reset meets every invariant. -/
def Obligations.ResetMeetsTheInvariants : Prop :=
  Inv State.reset

/-! ## The 8259A (60_exceptions.md part 2) -/

/-- A turn with a port access out of scope writes to, or reads from, the chip and A0 that the port selects, with IP past
the instruction and TF sampled, and the boundary follows; the byte read stands in AL and in `ioData`. Where no 8259A
answers, or the board has not the number of chips the parameters say and admit, the turn is refused. A port selects the
master at PIC_BASE, else the first slave at its base; the port `picA0Step` above a chip's base selects A0 = 1. Only the
chip selected changes, but for the master's inputs that slaves drive
(10_state.md section 5, 60_exceptions.md section 6; that these turns stand for OUT and IN, the decoding of ports and the
number of chips are the model's choices, assumptions 26, 27 and 41; D15). -/
def Obligations.PortTurnsReachTheChip : Prop :=
  (∀ (s : State) (len : Nat) (port : Word) (rest : List Move), s.resetPin = false →
    (∀ d, s.agenda = .portWrite len port d :: rest →
      (s.config.picPresent = false ∨ portChip port s = none → step s = .refused (.noPicAtPort port)) ∧
      (s.config.picPresent = true → portChip port s ≠ none → boardAdmitted s = false →
        step s = .refused .picCountNotAdmitted) ∧
      (s.config.picPresent = true → boardAdmitted s = true → ∀ id a0 p, portChip port s = some (id, a0) →
        chipOf id s = some p →
        step s = andThen (chipWrite s.config a0 d p) fun p' => boundary false (setChip id p'
          { s with agenda := rest, tfBefore := s.flags.TF, ip := s.ip + BitVec.ofNat 16 len }))) ∧
    (s.agenda = .portRead len port :: rest →
      (s.config.picPresent = false ∨ portChip port s = none → step s = .refused (.noPicAtPort port)) ∧
      (s.config.picPresent = true → portChip port s ≠ none → boardAdmitted s = false →
        step s = .refused .picCountNotAdmitted) ∧
      (s.config.picPresent = true → boardAdmitted s = true → ∀ id a0 p, portChip port s = some (id, a0) →
        chipOf id s = some p →
        step s = andThen (chipRead (Config.freePollByte s.draws) a0 p) fun r => boundary false (setChip id r.2
          { s with
            agenda := rest, tfBefore := s.flags.TF, ip := s.ip + BitVec.ofNat 16 len, draws := s.draws + 1
            ioData := r.1, regs := { s.regs with ax := s.regs.ax.extractLsb' 8 8 ++ r.1 } })))) ∧
  (∀ (s : State) (port : Word),
    (port = s.config.picBase → portChip port s = some (.master, false)) ∧
    (port ≠ s.config.picBase → port = s.config.picBase + s.config.picA0Step →
      portChip port s = some (.master, true)) ∧
    (port ≠ s.config.picBase → port ≠ s.config.picBase + s.config.picA0Step → ∀ k sl, s.slaves[k]? = some sl →
      ((∀ j x, s.slaves[j]? = some x → port = x.base → k ≤ j) → port = sl.base →
        portChip port s = some (.slave k, false)) ∧
      ((∀ x ∈ s.slaves, port ≠ x.base) →
        (∀ j x, s.slaves[j]? = some x → port = x.base + s.config.picA0Step → k ≤ j) →
        port = sl.base + s.config.picA0Step → portChip port s = some (.slave k, true))) ∧
    (portChip port s = none ↔ port ≠ s.config.picBase ∧ port ≠ s.config.picBase + s.config.picA0Step ∧
      ∀ x ∈ s.slaves, port ≠ x.base ∧ port ≠ x.base + s.config.picA0Step)) ∧
  ∀ (s : State) (id : ChipId) (p p' : Pic), chipOf id s = some p →
    setChip id p' s = { s with pic := (setChip id p' s).pic, slaves := (setChip id p' s).slaves } ∧
    (∃ q, chipOf id (setChip id p' s) = some q ∧ q = { p' with ir := q.ir, edge := q.edge } ∧
      (id ≠ .master ∨ s.slaves = [] → q = p')) ∧
    (∀ k, id ≠ .slave k → chipOf (.slave k) (setChip id p' s) = chipOf (.slave k) s) ∧
    (id ≠ .master → ∃ q, chipOf .master (setChip id p' s) = some q ∧ q = { s.pic with ir := q.ir, edge := q.edge })

/-- ICW1, ICW2, ICW3 if and only if SNGL = 0, ICW4 if and only if IC4 = 1, then ready; what each word loads and clears, and
that it changes nothing else; every write to a ready chip is an OCW or a new ICW1. A master's ICW3 is any byte, and a slave's
one with D7 to D3 clear, whichever of the SP/EN strap and, in buffered mode, ICW4 says which of them the chip is. `d4` is any
byte with D7 to D5 clear, and the parameters admit every mode (60_exceptions.md sections 6 and 7; ISR after ICW1 is the
spec's decision D17; of S after ICW1 it says the slave identity only, assumption 23). -/
def Obligations.InitializationSequence : Prop :=
  (∀ (c : Config) (p : Pic) (d : Byte), p.init = .ready →
    chipWrite c true d p = .next (ocw1 d p) ∧
    (d.getLsbD 4 = true → chipWrite c false d p = writeIcw1 c d p) ∧
    (d.getLsbD 4 = false → d.getLsbD 3 = false → chipWrite c false d p = .next (ocw2 d p)) ∧
    (d.getLsbD 4 = false → d.getLsbD 3 = true → chipWrite c false d p = writeOcw3 c d p)) ∧
  ∀ (c : Config) (p : Pic) (d1 d2 d3 d4 : Byte), c.picFull = true → d1.getLsbD 4 = true →
    ((if d1.getLsbD 0 = true ∧ d4.getLsbD 3 = true then d4.getLsbD 2 else p.sp) = true ∨ d3.extractLsb' 3 5 = 0) →
    d4.extractLsb' 5 3 = 0 →
    ∃ p1 p2, chipWrite c false d1 p = .next p1 ∧ p1.init = .wantICW2 ∧ p1.s.extractLsb' 0 3 = 7 ∧
      p1 = { p with
        edge := 0, imr := 0, isr := c.picIsrAfterIcw1, lowest := 7, autoRotate := false, s := p1.s
        smm := false, readIsr := false, poll := false
        sfnm := d1.getLsbD 0 && p.sfnm, buf := d1.getLsbD 0 && p.buf, ms := d1.getLsbD 0 && p.ms
        aeoi := d1.getLsbD 0 && p.aeoi, upm := d1.getLsbD 0 && p.upm
        ltim := d1.getLsbD 3, adi := d1.getLsbD 2, sngl := d1.getLsbD 1, ic4 := d1.getLsbD 0
        a7_5 := d1.extractLsb' 5 3, init := .wantICW2 } ∧
      chipWrite c true d2 p1 = .next p2 ∧
      p2 = { p1 with t := d2.extractLsb' 3 5, a10_8 := d2.extractLsb' 0 3, init := p2.init } ∧
      (d1.getLsbD 1 = false → ∃ p3, p2.init = .wantICW3 ∧ chipWrite c true d3 p2 = .next p3 ∧
        p3 = { p2 with s := d3, init := p3.init } ∧
        (d1.getLsbD 0 = true → p3.init = .wantICW4 ∧ chipWrite c true d4 p3 = .next { p3 with
          sfnm := d4.getLsbD 4, buf := d4.getLsbD 3, ms := d4.getLsbD 2, aeoi := d4.getLsbD 1, upm := d4.getLsbD 0
          init := .ready }) ∧
        (d1.getLsbD 0 = false → p3.init = .ready)) ∧
      (d1.getLsbD 1 = true →
        (d1.getLsbD 0 = true → p2.init = .wantICW4 ∧ chipWrite c true d4 p2 = .next { p2 with
          sfnm := d4.getLsbD 4, buf := d4.getLsbD 3, ms := d4.getLsbD 2, aeoi := d4.getLsbD 1, upm := d4.getLsbD 0
          init := .ready }) ∧
        (d1.getLsbD 0 = false → p2.init = .ready))

/-- The single 8259A of an 8086: in the admitted subset, ICW1 with SNGL = IC4 = 1, ICW2 and ICW4 with uPM = 1 leave the
chip ready in 8086 mode with nothing masked, IR7 lowest, no edge latched, and every type sent equal to
(ICW2 and F8H) + level (60_exceptions.md section 7, 95_test_vectors.md V60 and V63). -/
def Obligations.SinglePicSetUp : Prop :=
  ∀ (c : Config) (p : Pic) (d1 d2 d4 : Byte), d1 &&& 0x13#8 = 0x13#8 → d4 &&& 0xF1#8 = 0x01#8 →
    ∃ p1 p2 p4, chipWrite c false d1 p = .next p1 ∧ chipWrite c true d2 p1 = .next p2 ∧
      chipWrite c true d4 p2 = .next p4 ∧ p4.init = .ready ∧ p4.upm = true ∧ p4.imr = 0 ∧ p4.edge = 0 ∧
      p4.lowest = 7 ∧ p4.isr = c.picIsrAfterIcw1 ∧ p4.ltim = d1.getLsbD 3 ∧ p4.aeoi = d4.getLsbD 1 ∧
      p4.ir = p.ir ∧ ∀ n : Level, (typeOf p4 n).toNat = (d2 &&& 0xF8#8).toNat + n.toNat

/-- R134: a low-to-high transition of an input sets its edge latch and no other; IRR is the inputs in level-triggered
mode, else the latched edges of inputs still high; once served, an edge-triggered input that stays high no longer
requests, and requests again only after going low and high; sensing is independent of IMR. -/
def Obligations.RequestSensing : Prop :=
  ∀ (p : Pic) (n m : Level) (v : Bool),
    irChange n v p = { p with ir := (irChange n v p).ir, edge := (irChange n v p).edge } ∧
    bitAt (irChange n v p).ir m = (if m = n then v else bitAt p.ir m) ∧
    bitAt (irChange n v p).edge m =
      (if m = n ∧ bitAt p.ir n = false ∧ v = true then true else bitAt p.edge m) ∧
    bitAt (irr p) m = (if p.ltim = true then bitAt p.ir m else bitAt p.edge m && bitAt p.ir m) ∧
    (p.ltim = false → bitAt (irr (serve n p)) n = false ∧
      bitAt (irr (irChange n true (serve n p))) n = !bitAt p.ir n ∧
      bitAt (irr (irChange n true (irChange n false (serve n p)))) n = true) ∧
    ∀ d : Byte, irr { p with imr := d } = irr p

/-- R135: ranks are circular from the level after `lowest`, and after ICW1 IR0 is highest and IR7 lowest; `Winner()` is
the eligible level of smallest rank; INT is high exactly when the chip is ready and some level is eligible; in the default
mode a level is eligible when it requests, is not masked and no level of the same or higher priority is in service, and in
special fully nested mode a master's level with a slave is held back by higher ones only; and with an 8259A present INTR is
this output. -/
def Obligations.PriorityResolution : Prop :=
  ∀ p : Pic,
    (∀ n : Level, (rank p n).toNat = (n.toNat + 7 - p.lowest.toNat) % 8) ∧
    (∀ (c : Config) (d : Byte), (icw1 c d p).lowest = 7 ∧ ∀ n : Level, rank (icw1 c d p) n = n) ∧
    (∀ n, winner p = some n ↔
      eligible p n = true ∧ ∀ m, eligible p m = true → (rank p n).toNat ≤ (rank p m).toNat) ∧
    (intOut p = true ↔ p.init = .ready ∧ ∃ n, eligible p n = true) ∧
    (p.smm = false → ∀ n, eligible p n = true ↔
      bitAt (irr p) n = true ∧ bitAt p.imr n = false ∧
        ∀ m, bitAt p.isr m = true →
          if p.sfnm = true ∧ isMaster p = true ∧ p.sngl = false ∧ bitAt p.s n = true then
            (rank p n).toNat ≤ (rank p m).toNat
          else (rank p n).toNat < (rank p m).toNat) ∧
    ∀ s : State, s.config.picPresent = true → s.pic = p → intrLevel s = intOut p

/-- R136: in 8086 mode the acknowledge of a winning level that has no slave sets its in-service bit, clears its edge
latch, and sends T7..T3 and the level number, (b and F8H) + n; in AEOI mode the bit is cleared again and, with
`auto_rotate`, the level becomes the lowest; in MCS-80/85 mode it is refused. The chip on INTR is a single one or the
master of a cascade, as R142 has it. `CascadeInv` is an invariant of every step, stated above. -/
def Obligations.AcknowledgeServesTheWinner : Prop :=
  ∀ s : State, CascadeInv s → s.config.picPresent = true → s.config.picSpurious = false → s.pic.init ≠ .uninit →
    (s.pic.upm = false → acknowledge s = .refused .picMcsMode) ∧
    ∀ n, s.pic.upm = true → (s.pic.sngl = true ∨ isMaster s.pic = true ∧ bitAt s.pic.s n = false) → winner s.pic = some n →
      ∃ (v : Byte) (p : Pic), acknowledge s = .next (v, { s with pic := p }) ∧
        v.toNat = s.pic.t.toNat * 8 + n.toNat ∧ (vectorAddr v).toNat = 4 * (s.pic.t.toNat * 8 + n.toNat) ∧
        (∀ b : Byte, s.pic.t = (icw2 b s.pic).t → v.toNat = (b &&& 0xF8#8).toNat + n.toNat) ∧
        p = { s.pic with isr := p.isr, edge := p.edge, lowest := p.lowest } ∧
        (∀ m, bitAt p.isr m = if m = n then !s.pic.aeoi else bitAt s.pic.isr m) ∧
        (∀ m, bitAt p.edge m = if m = n then false else bitAt s.pic.edge m) ∧
        p.lowest = if s.pic.aeoi = true ∧ s.pic.autoRotate = true then n else s.pic.lowest

/-- With PIC_SPURIOUS the acknowledge is, by a free value, either the default one, which sends type T:7 and changes no
chip, or the one it would be without the parameter (60_exceptions.md section 9, default level 7; the spec's decision D22;
assumption 21). The statement holds whatever the free value. -/
def Obligations.SpuriousAcknowledge : Prop :=
  ∀ s : State, s.config.picPresent = true → boardAdmitted s = true → s.config.picSpurious = true →
    s.pic.init ≠ .uninit → s.pic.upm = true →
    acknowledge s = .next (s.pic.t ++ 7#3, { s with draws := s.draws + 1 }) ∨
    acknowledge s =
      andThen (acknowledge { s with draws := s.draws + 1, config := { s.config with picSpurious := false } }) fun r =>
        .next (r.1, { r.2 with config := s.config })

/-- A level in service holds back itself and every level of lower priority until it is ended; one of higher priority can
still win (60_exceptions.md section 9, 95_test_vectors.md V62 and V64). -/
def Obligations.InServiceHoldsBackLowerLevels : Prop :=
  ∀ (p : Pic) (n : Level), p.aeoi = false → p.smm = false → p.sfnm = false →
    (∀ m, (rank p n).toNat ≤ (rank p m).toNat → eligible (serve n p) m = false) ∧
    (∀ m, (rank p m).toNat < (rank p n).toNat → eligible (serve n p) m = eligible p m)

/-- A non-specific EOI clears the in-service bit of highest priority among those set (in special mask mode, among
those set and not masked) and no other, and changes nothing when there is none; a specific EOI clears the bit of its
level; the rotating variants also make that level the lowest (60_exceptions.md section 9, end of interrupt). That a
specific EOI that rotates does so where the bit was not set either follows the rule's pseudocode, not its prose
(assumption 40). -/
def Obligations.EndOfInterrupt : Prop :=
  ∀ (p : Pic) (rotate : Bool),
    (∀ n, bitAt p.isr n = true → (p.smm = false ∨ bitAt p.imr n = false) →
      (∀ m, bitAt p.isr m = true → (p.smm = false ∨ bitAt p.imr m = false) → (rank p n).toNat ≤ (rank p m).toNat) →
      nonSpecificEoi rotate p = specificEoi n rotate p) ∧
    ((∀ m, bitAt p.isr m = true → p.smm = true ∧ bitAt p.imr m = true) → nonSpecificEoi rotate p = p) ∧
    ∀ n, specificEoi n rotate p =
        { p with isr := (specificEoi n rotate p).isr, lowest := if rotate = true then n else p.lowest } ∧
      ∀ m, bitAt (specificEoi n rotate p).isr m = if m = n then false else bitAt p.isr m

/-- R131: the eight commands of OCW2, by their bytes, with the level in the low bits where the command uses it. -/
def Obligations.OperationCommandTwo : Prop :=
  ∀ (c : Config) (p : Pic) (l : Level), p.init = .ready →
    chipWrite c false (0x20#8 ||| l.setWidth 8) p = .next (nonSpecificEoi false p) ∧
    chipWrite c false (0x60#8 ||| l.setWidth 8) p = .next (specificEoi l false p) ∧
    chipWrite c false (0xA0#8 ||| l.setWidth 8) p = .next (nonSpecificEoi true p) ∧
    chipWrite c false (0x80#8 ||| l.setWidth 8) p = .next { p with autoRotate := true } ∧
    chipWrite c false (0x00#8 ||| l.setWidth 8) p = .next { p with autoRotate := false } ∧
    chipWrite c false (0xE0#8 ||| l.setWidth 8) p = .next (specificEoi l true p) ∧
    chipWrite c false (0xC0#8 ||| l.setWidth 8) p = .next { p with lowest := l } ∧
    chipWrite c false (0x40#8 ||| l.setWidth 8) p = .next p

/-- R130: OCW1 is the mask; a masked level does not win and its request stays in IRR; a level that is not masked is
eligible, if it requests and is not held back, whatever the other bits of the mask, except in special mask mode. -/
def Obligations.MaskDisablesItsLevel : Prop :=
  ∀ (c : Config) (p : Pic) (d : Byte), p.init = .ready →
    chipWrite c true d p = .next { p with imr := d } ∧ irr { p with imr := d } = irr p ∧
    ∀ n, (bitAt d n = true → winner { p with imr := d } ≠ some n) ∧
      (p.smm = false → bitAt d n = false →
        (eligible { p with imr := d } n = true ↔ bitAt (irr p) n = true ∧ ∀ m, holdsBack p n m = false))

/-- R140: in special mask mode a masked in-service level holds nothing back: a request that is not masked is eligible
exactly when no level in service and not masked has the same or higher priority (a higher one, where special fully
nested mode lets the same level through); an OCW3 with ESMM = 1 sets the mode to its SMM bit and one with ESMM = 0 leaves
it; a non-specific EOI skips masked in-service bits. -/
def Obligations.SpecialMaskMode : Prop :=
  (∀ (p : Pic) (n : Level), p.smm = true →
    (eligible p n = true ↔ bitAt (irr p) n = true ∧ bitAt p.imr n = false ∧
      ∀ m, bitAt p.isr m = true → bitAt p.imr m = false →
        if nestsInService p n = true then (rank p n).toNat ≤ (rank p m).toNat
        else (rank p n).toNat < (rank p m).toNat)) ∧
  ∀ (c : Config) (p : Pic), p.init = .ready → c.picFull = true →
    (∀ d : Byte, d &&& 0x98#8 = 0x08#8 →
      ∃ q, chipWrite c false d p = .next q ∧ q.smm = if d.getLsbD 6 = true then d.getLsbD 5 else p.smm) ∧
    ∀ n, p.smm = true → eoiLevel p = some n → bitAt p.isr n = true ∧ bitAt p.imr n = false

/-- R133: a read with A0 = 1 gives IMR; with A0 = 0 ISR or IRR as OCW3 selected; before the first ICW1 it is refused;
apart from a poll nothing changes. -/
def Obligations.RegisterReads : Prop :=
  ∀ (free : Byte) (p : Pic),
    (p.init = .uninit → ∀ a0, chipRead free a0 p = .refused .picReadBeforeIcw1) ∧
    (p.init ≠ .uninit → chipRead free true p = .next (p.imr, p) ∧
      (p.poll = false → chipRead free false p = .next (if p.readIsr = true then p.isr else irr p, p)) ∧
      (p.poll = true → chipRead free false p = .next (pollWord free { p with poll := false }))) ∧
    ∀ c : Config, p.init = .ready →
      chipWrite c false 0x0B p = .next { p with readIsr := true } ∧
      chipWrite c false 0x0A p = .next { p with readIsr := false }

/-- The read after a poll command acknowledges the winning level, setting its in-service bit (in AEOI mode the bit is
cleared at once) and clearing its edge latch and nothing else, and gives 80H + its number, or, with no request, a byte whose
bit 7 is 0, whatever the free value (60_exceptions.md section 9, poll; that AEOI mode is not in force in a slave is the
model's reading, assumption 37). Of the lowest level, which the model rotates as an acknowledge does (assumption 17), it
says nothing. -/
def Obligations.PollReads : Prop :=
  ∀ (c : Config) (p : Pic) (free : Byte), c.picFull = true → p.init = .ready →
    ∃ p1, chipWrite c false 0x0C p = .next p1 ∧ p1 = { p with poll := true } ∧
      (∀ n, winner p = some n →
        ∃ v p2, chipRead free false p1 = .next (v, p2) ∧ v.toNat = 0x80 + n.toNat ∧
          p2 = { p with poll := false, isr := p2.isr, edge := p2.edge, lowest := p2.lowest } ∧
          bitAt p2.isr n = !aeoiMode p ∧ bitAt p2.edge n = false ∧
          ∀ m, m ≠ n → bitAt p2.isr m = bitAt p.isr m ∧ bitAt p2.edge m = bitAt p.edge m) ∧
      (winner p = none → ∃ v, chipRead free false p1 = .next (v, { p with poll := false }) ∧ v.getLsbD 7 = false)

/-- Rotation: once level `n` has been made the lowest it has rank 7 and the level after it, modulo 8, rank 0, and every
other level's rank is one less than that of the next; a rotating specific EOI and, in AEOI mode with `auto_rotate`, an
acknowledge make their level the lowest (60_exceptions.md section 9, rotation; AEOI mode is not a slave's, assumption 37,
and the specific EOI rotates whether or not its bit was set, assumption 40). -/
def Obligations.RotationMakesALevelLowest : Prop :=
  ∀ (p : Pic) (n : Level), (rank { p with lowest := n } n).toNat = 7 ∧ (rank { p with lowest := n } (n + 1)).toNat = 0 ∧
    (∀ m, m ≠ n → (rank { p with lowest := n } (m + 1)).toNat = (rank { p with lowest := n } m).toNat + 1) ∧
    rank (specificEoi n true p) n = 7 ∧
    (aeoiMode p = true → p.autoRotate = true → rank (serve n p) n = 7 ∧ (serve n p).isr = withoutBit p.isr n)

/-- Cascade: the master serves its own level and the one slave whose identity equals it serves its winning level and
supplies the type from its own ICW2; a level without a slave is answered by the master. To serve a level sets its in-service
bit and clears its edge latch; in AEOI mode, which the spec restricts to masters, the bit is cleared again and, with
`auto_rotate`, the level becomes the lowest. Nothing else changes but the master's input that the slave's INT output drives
(60_exceptions.md section 9, acknowledge, automatic EOI and cascading; that a slave ignores AEOI is assumption 37, how slaves
are matched assumption 19, when the output reaches the master assumption 18). `CascadeInv` is an invariant of every step,
stated above. -/
def Obligations.CascadedAcknowledge : Prop :=
  ∀ (s : State) (n : Level), CascadeInv s → s.config.picPresent = true → s.config.picSpurious = false →
    s.pic.init = .ready → s.pic.upm = true → s.pic.sngl = false → isMaster s.pic = true → winner s.pic = some n →
    (bitAt s.pic.s n = true → ∀ (sl : Slave) (m : Level),
      (s.slaves.filter fun x => answers n x.chip) = [sl] → sl.chip.upm = true → winner sl.chip = some m →
      ∃ p q, acknowledge s = .next (sl.chip.t ++ m, { s with
          pic := p, slaves := s.slaves.map fun x => if answers n x.chip then { x with chip := q } else x }) ∧
        p = { s.pic with ir := p.ir, edge := p.edge, isr := p.isr, lowest := p.lowest } ∧
        (∀ k, bitAt p.isr k = if k = n then !s.pic.aeoi else bitAt s.pic.isr k) ∧
        (∀ k, bitAt p.edge k = if k = n then false else bitAt s.pic.edge k) ∧
        p.lowest = (if s.pic.aeoi = true ∧ s.pic.autoRotate = true then n else s.pic.lowest) ∧
        (∀ k, bitAt p.ir k = if k = sl.line then intOut q else bitAt s.pic.ir k) ∧
        q = { sl.chip with edge := q.edge, isr := q.isr } ∧
        (∀ k, bitAt q.isr k = if k = m then true else bitAt sl.chip.isr k) ∧
        ∀ k, bitAt q.edge k = if k = m then false else bitAt sl.chip.edge k) ∧
    (bitAt s.pic.s n = false → ∃ p, acknowledge s = .next (s.pic.t ++ n, { s with pic := p }) ∧
      p = { s.pic with edge := p.edge, isr := p.isr, lowest := p.lowest } ∧
      (∀ k, bitAt p.isr k = if k = n then !s.pic.aeoi else bitAt s.pic.isr k) ∧
      (∀ k, bitAt p.edge k = if k = n then false else bitAt s.pic.edge k) ∧
      p.lowest = if s.pic.aeoi = true ∧ s.pic.autoRotate = true then n else s.pic.lowest)

/-- What the 8259A model refuses, by name: before the first ICW1 every write but ICW1 and the acknowledge; during the
initialization sequence an A0 = 0 command; ICW4 with a bit of D7 to D5 set; a slave's ICW3 with a bit of D7 to D3 set, at
once if no ICW4 follows, else at the ICW4 that leaves the chip a slave, any other ICW3 being taken; OCW3 with D7 = 1;
outside the admitted subset, cascade, MCS-80/85 mode, special fully nested mode, special mask mode and poll; and the
acknowledge of a board whose number of chips the parameters do not say or admit (60_exceptions.md sections 6 to 9,
93_implementation_defined.md U11 and U14, 95_test_vectors.md V69; the spec's decisions D16 and D21; where a slave's ICW3 is
refused is assumption 24, the last is assumption 41). -/
def Obligations.PicRefusesByName : Prop :=
  (∀ (c : Config) (p : Pic) (d : Byte),
    (p.init = .uninit → chipWrite c true d p = .refused .picWriteBeforeIcw1 ∧
      (d.getLsbD 4 = false → chipWrite c false d p = .refused .picWriteBeforeIcw1)) ∧
    (p.init ≠ .uninit → p.init ≠ .ready → d.getLsbD 4 = false →
      chipWrite c false d p = .refused .picCommandDuringInit) ∧
    (p.init = .wantICW3 →
      (p.ic4 = false → p.sngl = false → isMaster p = false → d.extractLsb' 3 5 ≠ 0 →
        chipWrite c true d p = .refused .picIcw3Reserved) ∧
      (p.ic4 = true ∨ isMaster p = true ∨ d.extractLsb' 3 5 = 0 → chipWrite c true d p = .next (icw3 d p))) ∧
    (p.init = .wantICW4 →
      (d.extractLsb' 5 3 ≠ 0 → chipWrite c true d p = .refused .picIcw4Reserved) ∧
      (d.extractLsb' 5 3 = 0 → c.picFull = true → p.sngl = false →
        (if d.getLsbD 3 = true then d.getLsbD 2 else p.sp) = false → p.s.extractLsb' 3 5 ≠ 0 →
        chipWrite c true d p = .refused .picIcw3Reserved)) ∧
    (p.init = .ready → d &&& 0x98#8 = 0x88#8 → chipWrite c false d p = .refused .picOcw3Reserved) ∧
    (c.picFull = false →
    (d.getLsbD 4 = true → d.getLsbD 1 = false → chipWrite c false d p = .refused .picCascadeNotAdmitted) ∧
    (d.getLsbD 4 = true → d.getLsbD 1 = true → d.getLsbD 0 = false →
      chipWrite c false d p = .refused .picMcsNotAdmitted) ∧
    (p.init = .wantICW4 → d.extractLsb' 5 3 = 0 → d.getLsbD 0 = false →
      chipWrite c true d p = .refused .picMcsNotAdmitted) ∧
    (p.init = .wantICW4 → d.extractLsb' 5 3 = 0 → d.getLsbD 0 = true → d.getLsbD 4 = true →
      chipWrite c true d p = .refused .picSpecialNestingNotAdmitted) ∧
    (p.init = .ready → d &&& 0xF8#8 = 0x68#8 → chipWrite c false d p = .refused .picSpecialMaskNotAdmitted) ∧
    (p.init = .ready → d &&& 0x9C#8 = 0x0C#8 → d &&& 0x60#8 ≠ 0x60#8 →
      chipWrite c false d p = .refused .picPollNotAdmitted))) ∧
  ∀ s : State, s.config.picPresent = true →
    (boardAdmitted s = false → acknowledge s = .refused .picCountNotAdmitted) ∧
    (boardAdmitted s = true → s.pic.init = .uninit → acknowledge s = .refused .picAcknowledgeBeforeIcw1)
end

