-- ==== Sys2Proof/Laws/State.lean ====
section
/-! SUPPORT. One lemma per field per update of a state, true by rfl, so that no later proof unfolds a record update. -/

namespace Sys2Proof.Machine

/-! ### withSp -/

@[simp] theorem withSp_regs (v : Word) (s : State) : (withSp v s).regs = { s.regs with sp := v } := rfl
@[simp] theorem withSp_cs (v : Word) (s : State) : (withSp v s).cs = s.cs := rfl
@[simp] theorem withSp_ds (v : Word) (s : State) : (withSp v s).ds = s.ds := rfl
@[simp] theorem withSp_ss (v : Word) (s : State) : (withSp v s).ss = s.ss := rfl
@[simp] theorem withSp_es (v : Word) (s : State) : (withSp v s).es = s.es := rfl
@[simp] theorem withSp_ip (v : Word) (s : State) : (withSp v s).ip = s.ip := rfl
@[simp] theorem withSp_flags (v : Word) (s : State) : (withSp v s).flags = s.flags := rfl
@[simp] theorem withSp_nmiPending (v : Word) (s : State) : (withSp v s).nmiPending = s.nmiPending := rfl
@[simp] theorem withSp_stiShadow (v : Word) (s : State) : (withSp v s).stiShadow = s.stiShadow := rfl
@[simp] theorem withSp_tfBefore (v : Word) (s : State) : (withSp v s).tfBefore = s.tfBefore := rfl
@[simp] theorem withSp_nmiPin (v : Word) (s : State) : (withSp v s).nmiPin = s.nmiPin := rfl
@[simp] theorem withSp_intrPin (v : Word) (s : State) : (withSp v s).intrPin = s.intrPin := rfl
@[simp] theorem withSp_intaByte (v : Word) (s : State) : (withSp v s).intaByte = s.intaByte := rfl
@[simp] theorem withSp_resetPin (v : Word) (s : State) : (withSp v s).resetPin = s.resetPin := rfl
@[simp] theorem withSp_mem (v : Word) (s : State) : (withSp v s).mem = s.mem := rfl
@[simp] theorem withSp_pic (v : Word) (s : State) : (withSp v s).pic = s.pic := rfl
@[simp] theorem withSp_slaves (v : Word) (s : State) : (withSp v s).slaves = s.slaves := rfl
@[simp] theorem withSp_ioData (v : Word) (s : State) : (withSp v s).ioData = s.ioData := rfl
@[simp] theorem withSp_agenda (v : Word) (s : State) : (withSp v s).agenda = s.agenda := rfl
@[simp] theorem withSp_draws (v : Word) (s : State) : (withSp v s).draws = s.draws := rfl
@[simp] theorem withSp_config (v : Word) (s : State) : (withSp v s).config = s.config := rfl

/-! ### withIp -/

@[simp] theorem withIp_regs (v : Word) (s : State) : (withIp v s).regs = s.regs := rfl
@[simp] theorem withIp_cs (v : Word) (s : State) : (withIp v s).cs = s.cs := rfl
@[simp] theorem withIp_ds (v : Word) (s : State) : (withIp v s).ds = s.ds := rfl
@[simp] theorem withIp_ss (v : Word) (s : State) : (withIp v s).ss = s.ss := rfl
@[simp] theorem withIp_es (v : Word) (s : State) : (withIp v s).es = s.es := rfl
@[simp] theorem withIp_ip (v : Word) (s : State) : (withIp v s).ip = v := rfl
@[simp] theorem withIp_flags (v : Word) (s : State) : (withIp v s).flags = s.flags := rfl
@[simp] theorem withIp_nmiPending (v : Word) (s : State) : (withIp v s).nmiPending = s.nmiPending := rfl
@[simp] theorem withIp_stiShadow (v : Word) (s : State) : (withIp v s).stiShadow = s.stiShadow := rfl
@[simp] theorem withIp_tfBefore (v : Word) (s : State) : (withIp v s).tfBefore = s.tfBefore := rfl
@[simp] theorem withIp_nmiPin (v : Word) (s : State) : (withIp v s).nmiPin = s.nmiPin := rfl
@[simp] theorem withIp_intrPin (v : Word) (s : State) : (withIp v s).intrPin = s.intrPin := rfl
@[simp] theorem withIp_intaByte (v : Word) (s : State) : (withIp v s).intaByte = s.intaByte := rfl
@[simp] theorem withIp_resetPin (v : Word) (s : State) : (withIp v s).resetPin = s.resetPin := rfl
@[simp] theorem withIp_mem (v : Word) (s : State) : (withIp v s).mem = s.mem := rfl
@[simp] theorem withIp_pic (v : Word) (s : State) : (withIp v s).pic = s.pic := rfl
@[simp] theorem withIp_slaves (v : Word) (s : State) : (withIp v s).slaves = s.slaves := rfl
@[simp] theorem withIp_ioData (v : Word) (s : State) : (withIp v s).ioData = s.ioData := rfl
@[simp] theorem withIp_agenda (v : Word) (s : State) : (withIp v s).agenda = s.agenda := rfl
@[simp] theorem withIp_draws (v : Word) (s : State) : (withIp v s).draws = s.draws := rfl
@[simp] theorem withIp_config (v : Word) (s : State) : (withIp v s).config = s.config := rfl

/-! ### withCsIp -/

@[simp] theorem withCsIp_regs (c i : Word) (s : State) : (withCsIp c i s).regs = s.regs := rfl
@[simp] theorem withCsIp_cs (c i : Word) (s : State) : (withCsIp c i s).cs = c := rfl
@[simp] theorem withCsIp_ds (c i : Word) (s : State) : (withCsIp c i s).ds = s.ds := rfl
@[simp] theorem withCsIp_ss (c i : Word) (s : State) : (withCsIp c i s).ss = s.ss := rfl
@[simp] theorem withCsIp_es (c i : Word) (s : State) : (withCsIp c i s).es = s.es := rfl
@[simp] theorem withCsIp_ip (c i : Word) (s : State) : (withCsIp c i s).ip = i := rfl
@[simp] theorem withCsIp_flags (c i : Word) (s : State) : (withCsIp c i s).flags = s.flags := rfl
@[simp] theorem withCsIp_nmiPending (c i : Word) (s : State) : (withCsIp c i s).nmiPending = s.nmiPending := rfl
@[simp] theorem withCsIp_stiShadow (c i : Word) (s : State) : (withCsIp c i s).stiShadow = s.stiShadow := rfl
@[simp] theorem withCsIp_tfBefore (c i : Word) (s : State) : (withCsIp c i s).tfBefore = s.tfBefore := rfl
@[simp] theorem withCsIp_nmiPin (c i : Word) (s : State) : (withCsIp c i s).nmiPin = s.nmiPin := rfl
@[simp] theorem withCsIp_intrPin (c i : Word) (s : State) : (withCsIp c i s).intrPin = s.intrPin := rfl
@[simp] theorem withCsIp_intaByte (c i : Word) (s : State) : (withCsIp c i s).intaByte = s.intaByte := rfl
@[simp] theorem withCsIp_resetPin (c i : Word) (s : State) : (withCsIp c i s).resetPin = s.resetPin := rfl
@[simp] theorem withCsIp_mem (c i : Word) (s : State) : (withCsIp c i s).mem = s.mem := rfl
@[simp] theorem withCsIp_pic (c i : Word) (s : State) : (withCsIp c i s).pic = s.pic := rfl
@[simp] theorem withCsIp_slaves (c i : Word) (s : State) : (withCsIp c i s).slaves = s.slaves := rfl
@[simp] theorem withCsIp_ioData (c i : Word) (s : State) : (withCsIp c i s).ioData = s.ioData := rfl
@[simp] theorem withCsIp_agenda (c i : Word) (s : State) : (withCsIp c i s).agenda = s.agenda := rfl
@[simp] theorem withCsIp_draws (c i : Word) (s : State) : (withCsIp c i s).draws = s.draws := rfl
@[simp] theorem withCsIp_config (c i : Word) (s : State) : (withCsIp c i s).config = s.config := rfl

/-! ### withFlags -/

@[simp] theorem withFlags_regs (f : Flags) (s : State) : (withFlags f s).regs = s.regs := rfl
@[simp] theorem withFlags_cs (f : Flags) (s : State) : (withFlags f s).cs = s.cs := rfl
@[simp] theorem withFlags_ds (f : Flags) (s : State) : (withFlags f s).ds = s.ds := rfl
@[simp] theorem withFlags_ss (f : Flags) (s : State) : (withFlags f s).ss = s.ss := rfl
@[simp] theorem withFlags_es (f : Flags) (s : State) : (withFlags f s).es = s.es := rfl
@[simp] theorem withFlags_ip (f : Flags) (s : State) : (withFlags f s).ip = s.ip := rfl
@[simp] theorem withFlags_flags (f : Flags) (s : State) : (withFlags f s).flags = f := rfl
@[simp] theorem withFlags_nmiPending (f : Flags) (s : State) : (withFlags f s).nmiPending = s.nmiPending := rfl
@[simp] theorem withFlags_stiShadow (f : Flags) (s : State) : (withFlags f s).stiShadow = s.stiShadow := rfl
@[simp] theorem withFlags_tfBefore (f : Flags) (s : State) : (withFlags f s).tfBefore = s.tfBefore := rfl
@[simp] theorem withFlags_nmiPin (f : Flags) (s : State) : (withFlags f s).nmiPin = s.nmiPin := rfl
@[simp] theorem withFlags_intrPin (f : Flags) (s : State) : (withFlags f s).intrPin = s.intrPin := rfl
@[simp] theorem withFlags_intaByte (f : Flags) (s : State) : (withFlags f s).intaByte = s.intaByte := rfl
@[simp] theorem withFlags_resetPin (f : Flags) (s : State) : (withFlags f s).resetPin = s.resetPin := rfl
@[simp] theorem withFlags_mem (f : Flags) (s : State) : (withFlags f s).mem = s.mem := rfl
@[simp] theorem withFlags_pic (f : Flags) (s : State) : (withFlags f s).pic = s.pic := rfl
@[simp] theorem withFlags_slaves (f : Flags) (s : State) : (withFlags f s).slaves = s.slaves := rfl
@[simp] theorem withFlags_ioData (f : Flags) (s : State) : (withFlags f s).ioData = s.ioData := rfl
@[simp] theorem withFlags_agenda (f : Flags) (s : State) : (withFlags f s).agenda = s.agenda := rfl
@[simp] theorem withFlags_draws (f : Flags) (s : State) : (withFlags f s).draws = s.draws := rfl
@[simp] theorem withFlags_config (f : Flags) (s : State) : (withFlags f s).config = s.config := rfl

/-! ### withMem -/

@[simp] theorem withMem_regs (m : List Host.Cell) (s : State) : (withMem m s).regs = s.regs := rfl
@[simp] theorem withMem_cs (m : List Host.Cell) (s : State) : (withMem m s).cs = s.cs := rfl
@[simp] theorem withMem_ds (m : List Host.Cell) (s : State) : (withMem m s).ds = s.ds := rfl
@[simp] theorem withMem_ss (m : List Host.Cell) (s : State) : (withMem m s).ss = s.ss := rfl
@[simp] theorem withMem_es (m : List Host.Cell) (s : State) : (withMem m s).es = s.es := rfl
@[simp] theorem withMem_ip (m : List Host.Cell) (s : State) : (withMem m s).ip = s.ip := rfl
@[simp] theorem withMem_flags (m : List Host.Cell) (s : State) : (withMem m s).flags = s.flags := rfl
@[simp] theorem withMem_nmiPending (m : List Host.Cell) (s : State) : (withMem m s).nmiPending = s.nmiPending := rfl
@[simp] theorem withMem_stiShadow (m : List Host.Cell) (s : State) : (withMem m s).stiShadow = s.stiShadow := rfl
@[simp] theorem withMem_tfBefore (m : List Host.Cell) (s : State) : (withMem m s).tfBefore = s.tfBefore := rfl
@[simp] theorem withMem_nmiPin (m : List Host.Cell) (s : State) : (withMem m s).nmiPin = s.nmiPin := rfl
@[simp] theorem withMem_intrPin (m : List Host.Cell) (s : State) : (withMem m s).intrPin = s.intrPin := rfl
@[simp] theorem withMem_intaByte (m : List Host.Cell) (s : State) : (withMem m s).intaByte = s.intaByte := rfl
@[simp] theorem withMem_resetPin (m : List Host.Cell) (s : State) : (withMem m s).resetPin = s.resetPin := rfl
@[simp] theorem withMem_mem (m : List Host.Cell) (s : State) : (withMem m s).mem = m := rfl
@[simp] theorem withMem_pic (m : List Host.Cell) (s : State) : (withMem m s).pic = s.pic := rfl
@[simp] theorem withMem_slaves (m : List Host.Cell) (s : State) : (withMem m s).slaves = s.slaves := rfl
@[simp] theorem withMem_ioData (m : List Host.Cell) (s : State) : (withMem m s).ioData = s.ioData := rfl
@[simp] theorem withMem_agenda (m : List Host.Cell) (s : State) : (withMem m s).agenda = s.agenda := rfl
@[simp] theorem withMem_draws (m : List Host.Cell) (s : State) : (withMem m s).draws = s.draws := rfl
@[simp] theorem withMem_config (m : List Host.Cell) (s : State) : (withMem m s).config = s.config := rfl

/-! ### withNmi -/

@[simp] theorem withNmi_regs (b : Bool) (s : State) : (withNmi b s).regs = s.regs := rfl
@[simp] theorem withNmi_cs (b : Bool) (s : State) : (withNmi b s).cs = s.cs := rfl
@[simp] theorem withNmi_ds (b : Bool) (s : State) : (withNmi b s).ds = s.ds := rfl
@[simp] theorem withNmi_ss (b : Bool) (s : State) : (withNmi b s).ss = s.ss := rfl
@[simp] theorem withNmi_es (b : Bool) (s : State) : (withNmi b s).es = s.es := rfl
@[simp] theorem withNmi_ip (b : Bool) (s : State) : (withNmi b s).ip = s.ip := rfl
@[simp] theorem withNmi_flags (b : Bool) (s : State) : (withNmi b s).flags = s.flags := rfl
@[simp] theorem withNmi_nmiPending (b : Bool) (s : State) : (withNmi b s).nmiPending = b := rfl
@[simp] theorem withNmi_stiShadow (b : Bool) (s : State) : (withNmi b s).stiShadow = s.stiShadow := rfl
@[simp] theorem withNmi_tfBefore (b : Bool) (s : State) : (withNmi b s).tfBefore = s.tfBefore := rfl
@[simp] theorem withNmi_nmiPin (b : Bool) (s : State) : (withNmi b s).nmiPin = s.nmiPin := rfl
@[simp] theorem withNmi_intrPin (b : Bool) (s : State) : (withNmi b s).intrPin = s.intrPin := rfl
@[simp] theorem withNmi_intaByte (b : Bool) (s : State) : (withNmi b s).intaByte = s.intaByte := rfl
@[simp] theorem withNmi_resetPin (b : Bool) (s : State) : (withNmi b s).resetPin = s.resetPin := rfl
@[simp] theorem withNmi_mem (b : Bool) (s : State) : (withNmi b s).mem = s.mem := rfl
@[simp] theorem withNmi_pic (b : Bool) (s : State) : (withNmi b s).pic = s.pic := rfl
@[simp] theorem withNmi_slaves (b : Bool) (s : State) : (withNmi b s).slaves = s.slaves := rfl
@[simp] theorem withNmi_ioData (b : Bool) (s : State) : (withNmi b s).ioData = s.ioData := rfl
@[simp] theorem withNmi_agenda (b : Bool) (s : State) : (withNmi b s).agenda = s.agenda := rfl
@[simp] theorem withNmi_draws (b : Bool) (s : State) : (withNmi b s).draws = s.draws := rfl
@[simp] theorem withNmi_config (b : Bool) (s : State) : (withNmi b s).config = s.config := rfl

/-! ### withShadow -/

@[simp] theorem withShadow_regs (b : Bool) (s : State) : (withShadow b s).regs = s.regs := rfl
@[simp] theorem withShadow_cs (b : Bool) (s : State) : (withShadow b s).cs = s.cs := rfl
@[simp] theorem withShadow_ds (b : Bool) (s : State) : (withShadow b s).ds = s.ds := rfl
@[simp] theorem withShadow_ss (b : Bool) (s : State) : (withShadow b s).ss = s.ss := rfl
@[simp] theorem withShadow_es (b : Bool) (s : State) : (withShadow b s).es = s.es := rfl
@[simp] theorem withShadow_ip (b : Bool) (s : State) : (withShadow b s).ip = s.ip := rfl
@[simp] theorem withShadow_flags (b : Bool) (s : State) : (withShadow b s).flags = s.flags := rfl
@[simp] theorem withShadow_nmiPending (b : Bool) (s : State) : (withShadow b s).nmiPending = s.nmiPending := rfl
@[simp] theorem withShadow_stiShadow (b : Bool) (s : State) : (withShadow b s).stiShadow = b := rfl
@[simp] theorem withShadow_tfBefore (b : Bool) (s : State) : (withShadow b s).tfBefore = s.tfBefore := rfl
@[simp] theorem withShadow_nmiPin (b : Bool) (s : State) : (withShadow b s).nmiPin = s.nmiPin := rfl
@[simp] theorem withShadow_intrPin (b : Bool) (s : State) : (withShadow b s).intrPin = s.intrPin := rfl
@[simp] theorem withShadow_intaByte (b : Bool) (s : State) : (withShadow b s).intaByte = s.intaByte := rfl
@[simp] theorem withShadow_resetPin (b : Bool) (s : State) : (withShadow b s).resetPin = s.resetPin := rfl
@[simp] theorem withShadow_mem (b : Bool) (s : State) : (withShadow b s).mem = s.mem := rfl
@[simp] theorem withShadow_pic (b : Bool) (s : State) : (withShadow b s).pic = s.pic := rfl
@[simp] theorem withShadow_slaves (b : Bool) (s : State) : (withShadow b s).slaves = s.slaves := rfl
@[simp] theorem withShadow_ioData (b : Bool) (s : State) : (withShadow b s).ioData = s.ioData := rfl
@[simp] theorem withShadow_agenda (b : Bool) (s : State) : (withShadow b s).agenda = s.agenda := rfl
@[simp] theorem withShadow_draws (b : Bool) (s : State) : (withShadow b s).draws = s.draws := rfl
@[simp] theorem withShadow_config (b : Bool) (s : State) : (withShadow b s).config = s.config := rfl

/-! ### withTfBefore -/

@[simp] theorem withTfBefore_regs (b : Bool) (s : State) : (withTfBefore b s).regs = s.regs := rfl
@[simp] theorem withTfBefore_cs (b : Bool) (s : State) : (withTfBefore b s).cs = s.cs := rfl
@[simp] theorem withTfBefore_ds (b : Bool) (s : State) : (withTfBefore b s).ds = s.ds := rfl
@[simp] theorem withTfBefore_ss (b : Bool) (s : State) : (withTfBefore b s).ss = s.ss := rfl
@[simp] theorem withTfBefore_es (b : Bool) (s : State) : (withTfBefore b s).es = s.es := rfl
@[simp] theorem withTfBefore_ip (b : Bool) (s : State) : (withTfBefore b s).ip = s.ip := rfl
@[simp] theorem withTfBefore_flags (b : Bool) (s : State) : (withTfBefore b s).flags = s.flags := rfl
@[simp] theorem withTfBefore_nmiPending (b : Bool) (s : State) : (withTfBefore b s).nmiPending = s.nmiPending := rfl
@[simp] theorem withTfBefore_stiShadow (b : Bool) (s : State) : (withTfBefore b s).stiShadow = s.stiShadow := rfl
@[simp] theorem withTfBefore_tfBefore (b : Bool) (s : State) : (withTfBefore b s).tfBefore = b := rfl
@[simp] theorem withTfBefore_nmiPin (b : Bool) (s : State) : (withTfBefore b s).nmiPin = s.nmiPin := rfl
@[simp] theorem withTfBefore_intrPin (b : Bool) (s : State) : (withTfBefore b s).intrPin = s.intrPin := rfl
@[simp] theorem withTfBefore_intaByte (b : Bool) (s : State) : (withTfBefore b s).intaByte = s.intaByte := rfl
@[simp] theorem withTfBefore_resetPin (b : Bool) (s : State) : (withTfBefore b s).resetPin = s.resetPin := rfl
@[simp] theorem withTfBefore_mem (b : Bool) (s : State) : (withTfBefore b s).mem = s.mem := rfl
@[simp] theorem withTfBefore_pic (b : Bool) (s : State) : (withTfBefore b s).pic = s.pic := rfl
@[simp] theorem withTfBefore_slaves (b : Bool) (s : State) : (withTfBefore b s).slaves = s.slaves := rfl
@[simp] theorem withTfBefore_ioData (b : Bool) (s : State) : (withTfBefore b s).ioData = s.ioData := rfl
@[simp] theorem withTfBefore_agenda (b : Bool) (s : State) : (withTfBefore b s).agenda = s.agenda := rfl
@[simp] theorem withTfBefore_draws (b : Bool) (s : State) : (withTfBefore b s).draws = s.draws := rfl
@[simp] theorem withTfBefore_config (b : Bool) (s : State) : (withTfBefore b s).config = s.config := rfl

/-! ### withPics -/

@[simp] theorem withPics_regs (p : Pic) (l : List Slave) (s : State) : (withPics p l s).regs = s.regs := rfl
@[simp] theorem withPics_cs (p : Pic) (l : List Slave) (s : State) : (withPics p l s).cs = s.cs := rfl
@[simp] theorem withPics_ds (p : Pic) (l : List Slave) (s : State) : (withPics p l s).ds = s.ds := rfl
@[simp] theorem withPics_ss (p : Pic) (l : List Slave) (s : State) : (withPics p l s).ss = s.ss := rfl
@[simp] theorem withPics_es (p : Pic) (l : List Slave) (s : State) : (withPics p l s).es = s.es := rfl
@[simp] theorem withPics_ip (p : Pic) (l : List Slave) (s : State) : (withPics p l s).ip = s.ip := rfl
@[simp] theorem withPics_flags (p : Pic) (l : List Slave) (s : State) : (withPics p l s).flags = s.flags := rfl
@[simp] theorem withPics_nmiPending (p : Pic) (l : List Slave) (s : State) : (withPics p l s).nmiPending = s.nmiPending := rfl
@[simp] theorem withPics_stiShadow (p : Pic) (l : List Slave) (s : State) : (withPics p l s).stiShadow = s.stiShadow := rfl
@[simp] theorem withPics_tfBefore (p : Pic) (l : List Slave) (s : State) : (withPics p l s).tfBefore = s.tfBefore := rfl
@[simp] theorem withPics_nmiPin (p : Pic) (l : List Slave) (s : State) : (withPics p l s).nmiPin = s.nmiPin := rfl
@[simp] theorem withPics_intrPin (p : Pic) (l : List Slave) (s : State) : (withPics p l s).intrPin = s.intrPin := rfl
@[simp] theorem withPics_intaByte (p : Pic) (l : List Slave) (s : State) : (withPics p l s).intaByte = s.intaByte := rfl
@[simp] theorem withPics_resetPin (p : Pic) (l : List Slave) (s : State) : (withPics p l s).resetPin = s.resetPin := rfl
@[simp] theorem withPics_mem (p : Pic) (l : List Slave) (s : State) : (withPics p l s).mem = s.mem := rfl
@[simp] theorem withPics_pic (p : Pic) (l : List Slave) (s : State) : (withPics p l s).pic = p := rfl
@[simp] theorem withPics_slaves (p : Pic) (l : List Slave) (s : State) : (withPics p l s).slaves = l := rfl
@[simp] theorem withPics_ioData (p : Pic) (l : List Slave) (s : State) : (withPics p l s).ioData = s.ioData := rfl
@[simp] theorem withPics_agenda (p : Pic) (l : List Slave) (s : State) : (withPics p l s).agenda = s.agenda := rfl
@[simp] theorem withPics_draws (p : Pic) (l : List Slave) (s : State) : (withPics p l s).draws = s.draws := rfl
@[simp] theorem withPics_config (p : Pic) (l : List Slave) (s : State) : (withPics p l s).config = s.config := rfl

/-! ### withAgenda -/

@[simp] theorem withAgenda_regs (l : List Move) (s : State) : (withAgenda l s).regs = s.regs := rfl
@[simp] theorem withAgenda_cs (l : List Move) (s : State) : (withAgenda l s).cs = s.cs := rfl
@[simp] theorem withAgenda_ds (l : List Move) (s : State) : (withAgenda l s).ds = s.ds := rfl
@[simp] theorem withAgenda_ss (l : List Move) (s : State) : (withAgenda l s).ss = s.ss := rfl
@[simp] theorem withAgenda_es (l : List Move) (s : State) : (withAgenda l s).es = s.es := rfl
@[simp] theorem withAgenda_ip (l : List Move) (s : State) : (withAgenda l s).ip = s.ip := rfl
@[simp] theorem withAgenda_flags (l : List Move) (s : State) : (withAgenda l s).flags = s.flags := rfl
@[simp] theorem withAgenda_nmiPending (l : List Move) (s : State) : (withAgenda l s).nmiPending = s.nmiPending := rfl
@[simp] theorem withAgenda_stiShadow (l : List Move) (s : State) : (withAgenda l s).stiShadow = s.stiShadow := rfl
@[simp] theorem withAgenda_tfBefore (l : List Move) (s : State) : (withAgenda l s).tfBefore = s.tfBefore := rfl
@[simp] theorem withAgenda_nmiPin (l : List Move) (s : State) : (withAgenda l s).nmiPin = s.nmiPin := rfl
@[simp] theorem withAgenda_intrPin (l : List Move) (s : State) : (withAgenda l s).intrPin = s.intrPin := rfl
@[simp] theorem withAgenda_intaByte (l : List Move) (s : State) : (withAgenda l s).intaByte = s.intaByte := rfl
@[simp] theorem withAgenda_resetPin (l : List Move) (s : State) : (withAgenda l s).resetPin = s.resetPin := rfl
@[simp] theorem withAgenda_mem (l : List Move) (s : State) : (withAgenda l s).mem = s.mem := rfl
@[simp] theorem withAgenda_pic (l : List Move) (s : State) : (withAgenda l s).pic = s.pic := rfl
@[simp] theorem withAgenda_slaves (l : List Move) (s : State) : (withAgenda l s).slaves = s.slaves := rfl
@[simp] theorem withAgenda_ioData (l : List Move) (s : State) : (withAgenda l s).ioData = s.ioData := rfl
@[simp] theorem withAgenda_agenda (l : List Move) (s : State) : (withAgenda l s).agenda = l := rfl
@[simp] theorem withAgenda_draws (l : List Move) (s : State) : (withAgenda l s).draws = s.draws := rfl
@[simp] theorem withAgenda_config (l : List Move) (s : State) : (withAgenda l s).config = s.config := rfl

/-! ### withDraw -/

@[simp] theorem withDraw_regs (s : State) : (withDraw s).regs = s.regs := rfl
@[simp] theorem withDraw_cs (s : State) : (withDraw s).cs = s.cs := rfl
@[simp] theorem withDraw_ds (s : State) : (withDraw s).ds = s.ds := rfl
@[simp] theorem withDraw_ss (s : State) : (withDraw s).ss = s.ss := rfl
@[simp] theorem withDraw_es (s : State) : (withDraw s).es = s.es := rfl
@[simp] theorem withDraw_ip (s : State) : (withDraw s).ip = s.ip := rfl
@[simp] theorem withDraw_flags (s : State) : (withDraw s).flags = s.flags := rfl
@[simp] theorem withDraw_nmiPending (s : State) : (withDraw s).nmiPending = s.nmiPending := rfl
@[simp] theorem withDraw_stiShadow (s : State) : (withDraw s).stiShadow = s.stiShadow := rfl
@[simp] theorem withDraw_tfBefore (s : State) : (withDraw s).tfBefore = s.tfBefore := rfl
@[simp] theorem withDraw_nmiPin (s : State) : (withDraw s).nmiPin = s.nmiPin := rfl
@[simp] theorem withDraw_intrPin (s : State) : (withDraw s).intrPin = s.intrPin := rfl
@[simp] theorem withDraw_intaByte (s : State) : (withDraw s).intaByte = s.intaByte := rfl
@[simp] theorem withDraw_resetPin (s : State) : (withDraw s).resetPin = s.resetPin := rfl
@[simp] theorem withDraw_mem (s : State) : (withDraw s).mem = s.mem := rfl
@[simp] theorem withDraw_pic (s : State) : (withDraw s).pic = s.pic := rfl
@[simp] theorem withDraw_slaves (s : State) : (withDraw s).slaves = s.slaves := rfl
@[simp] theorem withDraw_ioData (s : State) : (withDraw s).ioData = s.ioData := rfl
@[simp] theorem withDraw_agenda (s : State) : (withDraw s).agenda = s.agenda := rfl
@[simp] theorem withDraw_draws (s : State) : (withDraw s).draws = s.draws + 1 := rfl
@[simp] theorem withDraw_config (s : State) : (withDraw s).config = s.config := rfl

/-! ### advanceIp -/

@[simp] theorem advanceIp_regs (len : Nat) (s : State) : (advanceIp len s).regs = s.regs := rfl
@[simp] theorem advanceIp_cs (len : Nat) (s : State) : (advanceIp len s).cs = s.cs := rfl
@[simp] theorem advanceIp_ds (len : Nat) (s : State) : (advanceIp len s).ds = s.ds := rfl
@[simp] theorem advanceIp_ss (len : Nat) (s : State) : (advanceIp len s).ss = s.ss := rfl
@[simp] theorem advanceIp_es (len : Nat) (s : State) : (advanceIp len s).es = s.es := rfl
@[simp] theorem advanceIp_ip (len : Nat) (s : State) : (advanceIp len s).ip = s.ip + BitVec.ofNat 16 len := rfl
@[simp] theorem advanceIp_flags (len : Nat) (s : State) : (advanceIp len s).flags = s.flags := rfl
@[simp] theorem advanceIp_nmiPending (len : Nat) (s : State) : (advanceIp len s).nmiPending = s.nmiPending := rfl
@[simp] theorem advanceIp_stiShadow (len : Nat) (s : State) : (advanceIp len s).stiShadow = s.stiShadow := rfl
@[simp] theorem advanceIp_tfBefore (len : Nat) (s : State) : (advanceIp len s).tfBefore = s.tfBefore := rfl
@[simp] theorem advanceIp_nmiPin (len : Nat) (s : State) : (advanceIp len s).nmiPin = s.nmiPin := rfl
@[simp] theorem advanceIp_intrPin (len : Nat) (s : State) : (advanceIp len s).intrPin = s.intrPin := rfl
@[simp] theorem advanceIp_intaByte (len : Nat) (s : State) : (advanceIp len s).intaByte = s.intaByte := rfl
@[simp] theorem advanceIp_resetPin (len : Nat) (s : State) : (advanceIp len s).resetPin = s.resetPin := rfl
@[simp] theorem advanceIp_mem (len : Nat) (s : State) : (advanceIp len s).mem = s.mem := rfl
@[simp] theorem advanceIp_pic (len : Nat) (s : State) : (advanceIp len s).pic = s.pic := rfl
@[simp] theorem advanceIp_slaves (len : Nat) (s : State) : (advanceIp len s).slaves = s.slaves := rfl
@[simp] theorem advanceIp_ioData (len : Nat) (s : State) : (advanceIp len s).ioData = s.ioData := rfl
@[simp] theorem advanceIp_agenda (len : Nat) (s : State) : (advanceIp len s).agenda = s.agenda := rfl
@[simp] theorem advanceIp_draws (len : Nat) (s : State) : (advanceIp len s).draws = s.draws := rfl
@[simp] theorem advanceIp_config (len : Nat) (s : State) : (advanceIp len s).config = s.config := rfl

/-! ### withAl -/

@[simp] theorem withAl_regs (v : Byte) (s : State) :
    (withAl v s).regs = { s.regs with ax := wordOf (highByte s.regs.ax) v } := rfl
@[simp] theorem withAl_cs (v : Byte) (s : State) : (withAl v s).cs = s.cs := rfl
@[simp] theorem withAl_ds (v : Byte) (s : State) : (withAl v s).ds = s.ds := rfl
@[simp] theorem withAl_ss (v : Byte) (s : State) : (withAl v s).ss = s.ss := rfl
@[simp] theorem withAl_es (v : Byte) (s : State) : (withAl v s).es = s.es := rfl
@[simp] theorem withAl_ip (v : Byte) (s : State) : (withAl v s).ip = s.ip := rfl
@[simp] theorem withAl_flags (v : Byte) (s : State) : (withAl v s).flags = s.flags := rfl
@[simp] theorem withAl_nmiPending (v : Byte) (s : State) : (withAl v s).nmiPending = s.nmiPending := rfl
@[simp] theorem withAl_stiShadow (v : Byte) (s : State) : (withAl v s).stiShadow = s.stiShadow := rfl
@[simp] theorem withAl_tfBefore (v : Byte) (s : State) : (withAl v s).tfBefore = s.tfBefore := rfl
@[simp] theorem withAl_nmiPin (v : Byte) (s : State) : (withAl v s).nmiPin = s.nmiPin := rfl
@[simp] theorem withAl_intrPin (v : Byte) (s : State) : (withAl v s).intrPin = s.intrPin := rfl
@[simp] theorem withAl_intaByte (v : Byte) (s : State) : (withAl v s).intaByte = s.intaByte := rfl
@[simp] theorem withAl_resetPin (v : Byte) (s : State) : (withAl v s).resetPin = s.resetPin := rfl
@[simp] theorem withAl_mem (v : Byte) (s : State) : (withAl v s).mem = s.mem := rfl
@[simp] theorem withAl_pic (v : Byte) (s : State) : (withAl v s).pic = s.pic := rfl
@[simp] theorem withAl_slaves (v : Byte) (s : State) : (withAl v s).slaves = s.slaves := rfl
@[simp] theorem withAl_ioData (v : Byte) (s : State) : (withAl v s).ioData = s.ioData := rfl
@[simp] theorem withAl_agenda (v : Byte) (s : State) : (withAl v s).agenda = s.agenda := rfl
@[simp] theorem withAl_draws (v : Byte) (s : State) : (withAl v s).draws = s.draws := rfl
@[simp] theorem withAl_config (v : Byte) (s : State) : (withAl v s).config = s.config := rfl

/-! ### withDividendLost -/

@[simp] theorem withDividendLost_regs (w : Bool) (s : State) :
    (withDividendLost w s).regs = { s.regs with
      ax := Config.freeQuotient s.draws
      dx := if w then Config.freeRemainder s.draws else s.regs.dx } := rfl
@[simp] theorem withDividendLost_cs (w : Bool) (s : State) : (withDividendLost w s).cs = s.cs := rfl
@[simp] theorem withDividendLost_ds (w : Bool) (s : State) : (withDividendLost w s).ds = s.ds := rfl
@[simp] theorem withDividendLost_ss (w : Bool) (s : State) : (withDividendLost w s).ss = s.ss := rfl
@[simp] theorem withDividendLost_es (w : Bool) (s : State) : (withDividendLost w s).es = s.es := rfl
@[simp] theorem withDividendLost_ip (w : Bool) (s : State) : (withDividendLost w s).ip = s.ip := rfl
@[simp] theorem withDividendLost_flags (w : Bool) (s : State) : (withDividendLost w s).flags = s.flags := rfl
@[simp] theorem withDividendLost_nmiPending (w : Bool) (s : State) : (withDividendLost w s).nmiPending = s.nmiPending := rfl
@[simp] theorem withDividendLost_stiShadow (w : Bool) (s : State) : (withDividendLost w s).stiShadow = s.stiShadow := rfl
@[simp] theorem withDividendLost_tfBefore (w : Bool) (s : State) : (withDividendLost w s).tfBefore = s.tfBefore := rfl
@[simp] theorem withDividendLost_nmiPin (w : Bool) (s : State) : (withDividendLost w s).nmiPin = s.nmiPin := rfl
@[simp] theorem withDividendLost_intrPin (w : Bool) (s : State) : (withDividendLost w s).intrPin = s.intrPin := rfl
@[simp] theorem withDividendLost_intaByte (w : Bool) (s : State) : (withDividendLost w s).intaByte = s.intaByte := rfl
@[simp] theorem withDividendLost_resetPin (w : Bool) (s : State) : (withDividendLost w s).resetPin = s.resetPin := rfl
@[simp] theorem withDividendLost_mem (w : Bool) (s : State) : (withDividendLost w s).mem = s.mem := rfl
@[simp] theorem withDividendLost_pic (w : Bool) (s : State) : (withDividendLost w s).pic = s.pic := rfl
@[simp] theorem withDividendLost_slaves (w : Bool) (s : State) : (withDividendLost w s).slaves = s.slaves := rfl
@[simp] theorem withDividendLost_ioData (w : Bool) (s : State) : (withDividendLost w s).ioData = s.ioData := rfl
@[simp] theorem withDividendLost_agenda (w : Bool) (s : State) : (withDividendLost w s).agenda = s.agenda := rfl
@[simp] theorem withDividendLost_draws (w : Bool) (s : State) : (withDividendLost w s).draws = s.draws + 1 := rfl
@[simp] theorem withDividendLost_config (w : Bool) (s : State) : (withDividendLost w s).config = s.config := rfl

end Sys2Proof.Machine
end

