-- ==== Sys2Proof/Laws/Memory.lean ====
section
/-! SUPPORT. The laws of memory: a read after a write, the canonical form, and what the byte and word primitives can
answer (20_memory.md rules R41, R44). -/

namespace Sys2Proof.Machine

/-! ### Memory as data -/

@[simp] theorem memGet_memPut_same (a : Nat) (v : Byte) (m : List Host.Cell) : memGet a (memPut a v m) = some v := by
  induction m with
  | nil => simp [memPut, memGet]
  | cons c m ih =>
    simp only [memPut]
    split
    · simp only [memGet, ih]
      split
      · omega
      · rfl
    · split <;> simp [memGet]

theorem memGet_memPut_ne {a b : Nat} (h : b ≠ a) (v : Byte) (m : List Host.Cell) :
    memGet b (memPut a v m) = memGet b m := by
  induction m with
  | nil => simp [memPut, memGet, h.symm]
  | cons c m ih =>
    simp only [memPut]
    split
    · simp only [memGet, ih]
    · split
      · next h2 => simp only [memGet]; rw [if_neg h.symm, if_neg (by omega)]
      · simp only [memGet]; rw [if_neg h.symm]

theorem memGet_memPut (a b : Nat) (v : Byte) (m : List Host.Cell) :
    memGet b (memPut a v m) = if b = a then some v else memGet b m := by
  split
  · next h => rw [h, memGet_memPut_same]
  · next h => exact memGet_memPut_ne h v m

/-- The cells after a write are the one written and old ones. -/
theorem mem_memPut {c : Host.Cell} {a : Nat} {v : Byte} {m : List Host.Cell} (h : c ∈ memPut a v m) :
    c = (a, v) ∨ c ∈ m := by
  induction m with
  | nil => simpa [memPut] using h
  | cons d m ih =>
    simp only [memPut] at h
    split at h
    · rcases List.mem_cons.1 h with h | h
      · exact .inr (by simp [h])
      · exact (ih h).imp id (List.mem_cons_of_mem _)
    · split at h
      · exact (List.mem_cons.1 h).imp id (List.mem_cons_of_mem _)
      · exact List.mem_cons.1 h

/-- A write keeps the addresses strictly rising. -/
theorem memPut_pairwise (a : Nat) (v : Byte) {m : List Host.Cell} (h : m.Pairwise (fun c d => c.1 < d.1)) :
    (memPut a v m).Pairwise (fun c d => c.1 < d.1) := by
  induction m with
  | nil => simp [memPut]
  | cons d m ih =>
    rw [List.pairwise_cons] at h
    simp only [memPut]
    split
    · next hlt =>
      refine List.pairwise_cons.2 ⟨fun c hc => ?_, ih h.2⟩
      rcases mem_memPut hc with rfl | hc
      · exact hlt
      · exact h.1 c hc
    · split
      · next heq => exact List.pairwise_cons.2 ⟨fun c hc => by have := h.1 c hc; simp only; omega, h.2⟩
      · refine List.pairwise_cons.2 ⟨fun c hc => ?_, List.pairwise_cons.2 h⟩
        rcases List.mem_cons.1 hc with rfl | hc
        · simp only; omega
        · have := h.1 c hc; simp only; omega

/-- Every memory operation is a write of one byte, and it keeps the canonical form. -/
theorem memPut_wf {a : Nat} (ha : a < 1048576) (v : Byte) {m : List Host.Cell} (h : Memory.wf m) :
    Memory.wf (memPut a v m) := by
  refine ⟨memPut_pairwise a v h.1, fun c hc => ?_⟩
  rcases mem_memPut hc with rfl | hc
  · exact ha
  · exact h.2 c hc

theorem memGet_isSome_of_mem {c : Host.Cell} {m : List Host.Cell} (h : c ∈ m) : (memGet c.1 m).isSome = true := by
  induction m with
  | nil => cases h
  | cons d m ih =>
    simp only [memGet]
    split
    · rfl
    · rcases List.mem_cons.1 h with rfl | h
      · contradiction
      · exact ih h

/-- Two memories in canonical form that read alike at every address are the same list. -/
theorem mem_ext {m m' : List Host.Cell} (h : m.Pairwise (fun c d => c.1 < d.1))
    (h' : m'.Pairwise (fun c d => c.1 < d.1)) (heq : ∀ a, memGet a m = memGet a m') : m = m' := by
  induction m generalizing m' with
  | nil =>
    cases m' with
    | nil => rfl
    | cons d m' => have := heq d.1; simp [memGet] at this
  | cons c m ih =>
    cases m' with
    | nil => have := heq c.1; simp [memGet] at this
    | cons d m' =>
      rw [List.pairwise_cons] at h h'
      have hnone : ∀ {l : List Host.Cell} {a : Nat}, (∀ e ∈ l, a < e.1) → memGet a l = none := by
        intro l a hl
        induction l with
        | nil => rfl
        | cons e l ihl =>
          simp only [memGet]
          have := hl e (by simp)
          rw [if_neg (by omega)]
          exact ihl fun e he => hl e (by simp [he])
      have hfst : c.1 = d.1 := by
        rcases Nat.lt_trichotomy c.1 d.1 with hlt | he | hgt
        · have := heq c.1
          rw [hnone (l := d :: m') fun e he => ?_] at this
          · simp [memGet] at this
          · rcases List.mem_cons.1 he with rfl | he
            · exact hlt
            · exact Nat.lt_trans hlt (h'.1 e he)
        · exact he
        · have := heq d.1
          rw [hnone (l := c :: m) fun e he => ?_] at this
          · simp [memGet] at this
          · rcases List.mem_cons.1 he with rfl | he
            · exact hgt
            · exact Nat.lt_trans hgt (h.1 e he)
      have hsnd : c.2 = d.2 := by
        have := heq c.1
        simp only [memGet, hfst, if_true] at this
        simpa using this
      have hcd : c = d := Prod.ext hfst hsnd
      subst hcd
      congr 1
      refine ih h.2 h'.2 fun a => ?_
      by_cases hac : c.1 = a
      · subst hac
        rw [hnone h.1, hnone h'.1]
      · have := heq a
        simpa [memGet, hac] using this

/-! ### Words and their bytes -/

@[simp] theorem highByte_wordOf (high low : Byte) : highByte (wordOf high low) = high := by
  apply BitVec.eq_of_getLsbD_eq
  intro i hi
  simp only [wordOf, highByte, BitVec.getLsbD_append, BitVec.getLsbD_extractLsb']
  simp [hi]

@[simp] theorem lowByte_wordOf (high low : Byte) : lowByte (wordOf high low) = low := by
  apply BitVec.eq_of_getLsbD_eq
  intro i hi
  simp only [wordOf, lowByte, BitVec.getLsbD_append, BitVec.getLsbD_extractLsb']
  simp [hi]

@[simp] theorem wordOf_high_low (v : Word) : wordOf (highByte v) (lowByte v) = v := by
  apply BitVec.eq_of_getLsbD_eq
  intro i hi
  simp only [wordOf, highByte, lowByte, BitVec.getLsbD_append, BitVec.getLsbD_extractLsb']
  by_cases h : i < 8
  · simp [h]
  · simp only [h, if_false]
    have : i - 8 < 8 := by omega
    simp [this, show 8 + (i - 8) = i by omega]

/-! ### The primitives -/

/-- What a byte read can answer: the value of a byte that exists. -/
theorem readByte_eq_next {a : Addr} {s : State} {v : Byte} :
    readByte a s = .next v ↔ existsAt s.config a = true ∧ memGet a.toNat s.mem = some v := by
  unfold readByte
  split
  · next h => cases hg : memGet a.toNat s.mem <;> simp [h]
  · next h => simp [h]

/-- A byte read looks at the memory and the launch memory only. -/
theorem readByte_congr {s t : State} (a : Addr) (hc : t.config = s.config)
    (hm : memGet a.toNat t.mem = memGet a.toNat s.mem) : readByte a t = readByte a s := by
  simp only [readByte, hc, hm]

theorem readWord_congr {s t : State} (a : Addr) (h : readByte a t = readByte a s)
    (h1 : readByte (a + 1) t = readByte (a + 1) s) : readWord a t = readWord a s := by
  simp only [readWord, h, h1]

/-- What a word read can answer: two bytes that read, the one above in bits 15 to 8. -/
theorem readWord_eq_next {a : Addr} {s : State} {v : Word} :
    readWord a s = .next v ↔
      ∃ low high, readByte a s = .next low ∧ readByte (a + 1) s = .next high ∧ v = wordOf high low := by
  simp only [readWord, andThen_eq_next, Host.Outcome.next.injEq]
  constructor
  · rintro ⟨low, h1, high, h2, rfl⟩; exact ⟨low, high, h1, h2, rfl⟩
  · rintro ⟨low, high, h1, h2, rfl⟩; exact ⟨low, h1, high, h2, rfl⟩

theorem writableAt_existsAt {c : Config} {a : Addr} (h : writableAt c a = true) : existsAt c a = true := by
  simp only [writableAt, existsAt, List.any_eq_true, Bool.and_eq_true] at *
  obtain ⟨r, hr, _, ha⟩ := h
  exact ⟨r, hr, ha⟩

/-- What a byte write can answer: the memory with that byte put, if it is writable. -/
theorem writeByte_eq_next {a : Addr} {v : Byte} {s t : State} :
    writeByte a v s = .next t ↔ writableAt s.config a = true ∧ t = withMem (memPut a.toNat v s.mem) s := by
  unfold writeByte
  split
  · next h => simp [h, eq_comm]
  · next h => split <;> simp [h]

/-- What a word write can answer: both bytes put, if both are writable. -/
theorem writeWord_eq_next {a : Addr} {v : Word} {s t : State} :
    writeWord a v s = .next t ↔ writableAt s.config a = true ∧ writableAt s.config (a + 1) = true ∧
      t = withMem (memPut (a + 1).toNat (highByte v) (memPut a.toNat (lowByte v) s.mem)) s := by
  simp only [writeWord, andThen_eq_next, writeByte_eq_next]
  constructor
  · rintro ⟨_, ⟨h1, rfl⟩, h2, rfl⟩; exact ⟨h1, h2, rfl⟩
  · rintro ⟨h1, h2, rfl⟩; exact ⟨_, ⟨h1, rfl⟩, h2, rfl⟩

end Sys2Proof.Machine
end

