-- ==== Sys2Proof/Laws/Ops.lean ====
section
/-! SUPPORT. What each shared operation can do, said once: push, pop, the vector read, taking an interrupt and the return
from one (20_memory.md rules R45 to R50; 60_exceptions.md rule R92; 41_iret.md rule R80). -/

namespace Sys2Proof.Machine

/-! ### Addresses (R40) -/

theorem phys_toNat (seg off : Word) : (phys seg off).toNat = (seg.toNat * 16 + off.toNat) % 1048576 := by
  have hs : seg.toNat < 65536 := seg.isLt
  have ho : off.toNat < 65536 := off.isLt
  simp only [phys, BitVec.toNat_add, BitVec.toNat_mul, BitVec.toNat_setWidth, BitVec.toNat_ofNat]
  omega

/-- Two offsets of one segment name different bytes unless they are equal. -/
theorem phys_inj {seg a b : Word} (h : phys seg a = phys seg b) : a = b := by
  have ha : a.toNat < 65536 := a.isLt
  have hb : b.toNat < 65536 := b.isLt
  have hn := congrArg BitVec.toNat h
  rw [phys_toNat, phys_toNat] at hn
  apply BitVec.eq_of_toNat_eq
  omega

/-- Except at offset FFFFH, the next physical address is that of the next offset. -/
theorem phys_succ {seg off : Word} (h : off ≠ 0xFFFF) : phys seg off + 1 = phys seg (off + 1) := by
  have ho : off.toNat < 65536 := off.isLt
  have hne : off.toNat ≠ 65535 := fun hh => h (BitVec.eq_of_toNat_eq (by simpa using hh))
  apply BitVec.eq_of_toNat_eq
  have h1 : (1 : Addr).toNat = 1 := rfl
  have h2 : (1 : Word).toNat = 1 := rfl
  rw [BitVec.toNat_add, phys_toNat, phys_toNat, BitVec.toNat_add, h1, h2]
  omega

/-- Bytes at different distances below SP are different. -/
theorem phys_sub_ne (seg sp : Word) {a b : Word} (h : a ≠ b) : phys seg (sp - a) ≠ phys seg (sp - b) := by
  intro hh
  have := phys_inj hh
  apply h
  bv_omega

/-- The byte above the one at distance `a + 1` below SP is at distance `a`, except at offset FFFFH. -/
theorem phys_sub_succ {seg sp a b : Word} (hab : b = a + 1) (h : sp ≠ a) : phys seg (sp - b) + 1 = phys seg (sp - a) := by
  subst hab
  rw [phys_succ (by intro hh; apply h; bv_omega)]
  congr 1
  bv_omega

theorem vectorAddr_toNat (t : Byte) : (vectorAddr t).toNat = 4 * t.toNat := by
  have ht : t.toNat < 256 := t.isLt
  simp only [vectorAddr, BitVec.toNat_mul, BitVec.toNat_setWidth, BitVec.toNat_ofNat]
  omega

/-! ### The stack -/

/-- What a push can answer: SP lowered by 2, the word's two bytes at the new SS:SP, nothing else (R45). -/
theorem push16_eq_next {v : Word} {s t : State} :
    push16 v s = .next t ↔ s.regs.sp ≠ 1 ∧ writableAt s.config (phys s.ss (s.regs.sp - 2)) = true ∧
      writableAt s.config (phys s.ss (s.regs.sp - 1)) = true ∧
      t = withMem (memPut (phys s.ss (s.regs.sp - 1)).toNat (highByte v)
        (memPut (phys s.ss (s.regs.sp - 2)).toNat (lowByte v) s.mem)) (withSp (s.regs.sp - 2) s) := by
  unfold push16
  split
  · next h => simp [h]
  · next h =>
    have hsucc : phys s.ss (s.regs.sp - 2) + 1 = phys s.ss (s.regs.sp - 1) := phys_sub_succ (by decide) h
    rw [writeWord_eq_next]
    simp only [withSp_config, withSp_mem, hsucc, ne_eq, h, not_false_eq_true, true_and]

/-- The push R43 refuses. -/
theorem push16_at_one (v : Word) {s : State} (h : s.regs.sp = 1) : push16 v s = .refused .wordPushAtFFFF := by
  rw [push16, if_pos h]

/-- The pop R43 refuses. -/
theorem pop16_at_FFFF {s : State} (h : s.regs.sp = 0xFFFF) : pop16 s = .refused .wordPopAtFFFF := by
  rw [pop16, if_pos h]

/-- What a pop can answer: the word at SS:SP, and SP raised by 2 (R46). -/
theorem pop16_eq_next {s : State} {r : Word × State} :
    pop16 s = .next r ↔ s.regs.sp ≠ 0xFFFF ∧ readWord (phys s.ss s.regs.sp) s = .next r.1 ∧
      r.2 = withSp (s.regs.sp + 2) s := by
  unfold pop16
  split
  · next h => simp [h]
  · next h =>
    simp only [andThen_eq_next, Host.Outcome.next.injEq]
    constructor
    · rintro ⟨v, hv, rfl⟩; exact ⟨h, hv, rfl⟩
    · rintro ⟨_, hv, hr⟩; exact ⟨r.1, hv, by rw [← hr]⟩

/-- A push leaves every byte but its two as it was. -/
theorem push16_elsewhere {v : Word} {s t : State} (h : push16 v s = .next t) {a : Addr}
    (h1 : a ≠ phys s.ss (s.regs.sp - 1)) (h2 : a ≠ phys s.ss (s.regs.sp - 2)) : readByte a t = readByte a s := by
  obtain ⟨_, _, _, rfl⟩ := push16_eq_next.1 h
  refine readByte_congr a rfl ?_
  simp only [withMem_mem]
  rw [memGet_memPut_ne fun hh => h1 (BitVec.eq_of_toNat_eq hh),
    memGet_memPut_ne fun hh => h2 (BitVec.eq_of_toNat_eq hh)]

/-- A word pushed is read back at the new SS:SP. -/
theorem push16_readBack {v : Word} {s t : State} (h : push16 v s = .next t) :
    readWord (phys s.ss (s.regs.sp - 2)) t = .next v := by
  obtain ⟨hsp, hw2, hw1, rfl⟩ := push16_eq_next.1 h
  have hsucc : phys s.ss (s.regs.sp - 2) + 1 = phys s.ss (s.regs.sp - 1) := phys_sub_succ (by decide) hsp
  have hne : (phys s.ss (s.regs.sp - 2)).toNat ≠ (phys s.ss (s.regs.sp - 1)).toNat :=
    fun hh => phys_sub_ne s.ss s.regs.sp (by decide) (BitVec.eq_of_toNat_eq hh)
  refine readWord_eq_next.2 ⟨lowByte v, highByte v, readByte_eq_next.2 ⟨writableAt_existsAt hw2, ?_⟩,
    readByte_eq_next.2 ⟨?_, ?_⟩, (wordOf_high_low v).symm⟩
  · rw [withMem_mem, memGet_memPut_ne hne, memGet_memPut_same]
  · rw [hsucc]; exact writableAt_existsAt hw1
  · rw [hsucc, withMem_mem, memGet_memPut_same]

/-! ### The vector table -/

/-- What the vector read can answer: the IP word at 4t and the CS word at 4t + 2 (R49, R50). -/
theorem ivtRead_eq_next {n : Byte} {s : State} {r : Word × Word} :
    ivtRead n s = .next r ↔
      readWord (vectorAddr n) s = .next r.2 ∧ readWord (vectorAddr n + 2) s = .next r.1 := by
  simp only [ivtRead, andThen_eq_next, Host.Outcome.next.injEq]
  constructor
  · rintro ⟨i, hi, c, hc, rfl⟩; exact ⟨hi, hc⟩
  · rintro ⟨hi, hc⟩; exact ⟨r.2, hi, r.1, hc, rfl⟩

/-! ### Taking an interrupt -/

/-- The six bytes of the frame by their offsets from SP as it was. -/
theorem frameAddr_eq (s : State) :
    frameAddr s 0 = phys s.ss (s.regs.sp - 6) ∧ frameAddr s 1 = phys s.ss (s.regs.sp - 5) ∧
    frameAddr s 2 = phys s.ss (s.regs.sp - 4) ∧ frameAddr s 3 = phys s.ss (s.regs.sp - 3) ∧
    frameAddr s 4 = phys s.ss (s.regs.sp - 2) ∧ frameAddr s 5 = phys s.ss (s.regs.sp - 1) := by
  refine ⟨?_, ?_, ?_, ?_, ?_, ?_⟩ <;> (unfold frameAddr; congr 1; bv_omega)

theorem forall_lt_six {P : Nat → Prop} : (∀ k < 6, P k) ↔ P 0 ∧ P 1 ∧ P 2 ∧ P 3 ∧ P 4 ∧ P 5 := by
  constructor
  · intro h; exact ⟨h 0 (by omega), h 1 (by omega), h 2 (by omega), h 3 (by omega), h 4 (by omega), h 5 (by omega)⟩
  · rintro ⟨h0, h1, h2, h3, h4, h5⟩ k hk
    interval_cases k <;> assumption

theorem forall_lt_four {P : Nat → Prop} : (∀ k < 4, P k) ↔ P 0 ∧ P 1 ∧ P 2 ∧ P 3 := by
  constructor
  · intro h; exact ⟨h 0 (by omega), h 1 (by omega), h 2 (by omega), h 3 (by omega)⟩
  · rintro ⟨h0, h1, h2, h3⟩ k hk
    interval_cases k <;> assumption

/-- What taking an interrupt can answer: exactly what R92 leaves, and only where the frame has room. -/
theorem interruptSequence_next {n : Byte} {s t : State} (h : interruptSequence n s = .next t) :
    FrameRoom s ∧ TookInterrupt n s t := by
  simp only [interruptSequence, andThen_eq_next, Host.Outcome.next.injEq] at h
  obtain ⟨s1, h1, s2, h2, s3, h3, vec, hv, rfl⟩ := h
  obtain ⟨f0, f1, f2, f3, f4, f5⟩ := frameAddr_eq s
  obtain ⟨hsp1, w2, w1, e1⟩ := push16_eq_next.1 h1
  have r1 := push16_readBack h1
  have x1 := fun {a} => push16_elsewhere h1 (a := a)
  obtain ⟨hsp2, w4, w3, e2⟩ := push16_eq_next.1 h2
  have r2 := push16_readBack h2
  have x2 := fun {a} => push16_elsewhere h2 (a := a)
  obtain ⟨hsp3, w6, w5, e3⟩ := push16_eq_next.1 h3
  have r3 := push16_readBack h3
  have x3 := fun {a} => push16_elsewhere h3 (a := a)
  obtain ⟨hip, hcs⟩ := ivtRead_eq_next.1 hv
  clear h1 h2 h3 hv
  have sp1 : s1.regs.sp = s.regs.sp - 2 := by rw [e1]; rfl
  have ss1 : s1.ss = s.ss := by rw [e1]; rfl
  have cf1 : s1.config = s.config := by rw [e1]; rfl
  have cs1 : s1.cs = s.cs := by rw [e1]; rfl
  have k1 : s.regs.sp - 2 - 1 = s.regs.sp - 3 := by bv_omega
  have k2 : s.regs.sp - 2 - 2 = s.regs.sp - 4 := by bv_omega
  have k3 : s.regs.sp - 4 - 1 = s.regs.sp - 5 := by bv_omega
  have k4 : s.regs.sp - 4 - 2 = s.regs.sp - 6 := by bv_omega
  simp only [withDraw_regs, withDraw_ss, withDraw_config] at hsp1 w1 w2 e1 r1 x1
  simp only [withFlags_regs, withFlags_ss, withFlags_config, sp1, ss1, cf1, cs1, k1, k2] at hsp2 w3 w4 e2 r2 x2
  have sp2 : s2.regs.sp = s.regs.sp - 4 := by rw [e2]; rfl
  have ss2 : s2.ss = s.ss := by rw [e2]; exact ss1
  have cf2 : s2.config = s.config := by rw [e2]; exact cf1
  have ip2 : s2.ip = s.ip := by rw [e2, e1]; rfl
  simp only [sp2, ss2, cf2, ip2, k3, k4] at hsp3 w5 w6 e3 r3 x3
  have hn3 : s.regs.sp ≠ 3 := by intro hh; apply hsp2; rw [hh]; decide
  have hn5 : s.regs.sp ≠ 5 := by intro hh; apply hsp3; rw [hh]; decide
  have succ2 : phys s.ss (s.regs.sp - 2) + 1 = phys s.ss (s.regs.sp - 1) :=
    phys_sub_succ (by decide) hsp1
  have succ4 : phys s.ss (s.regs.sp - 4) + 1 = phys s.ss (s.regs.sp - 3) :=
    phys_sub_succ (by decide) hn3
  have reread : ∀ (c i : Word) (a : Addr), readWord a (withCsIp c i s3) = readWord a s3 := fun c i a => rfl
  refine ⟨⟨hsp1, hn3, hn5, forall_lt_six.2 ⟨f0 ▸ w6, f1 ▸ w5, f2 ▸ w4, f3 ▸ w3, f4 ▸ w2, f5 ▸ w1⟩⟩, ?_, ?_, ?_, ?_, ?_,
    ?_, ?_⟩
  · rw [e3, e2, e1]
    rfl
  · rw [f4, reread]
    rw [← r1]
    refine readWord_congr _ ?_ ?_
    · rw [x3 (phys_sub_ne _ _ (by decide)) (phys_sub_ne _ _ (by decide))]
      exact x2 (phys_sub_ne _ _ (by decide)) (phys_sub_ne _ _ (by decide))
    · rw [succ2, x3 (phys_sub_ne _ _ (by decide)) (phys_sub_ne _ _ (by decide))]
      exact x2 (phys_sub_ne _ _ (by decide)) (phys_sub_ne _ _ (by decide))
  · rw [f2, reread, ← r2]
    refine readWord_congr _ ?_ ?_
    · exact x3 (phys_sub_ne _ _ (by decide)) (phys_sub_ne _ _ (by decide))
    · rw [succ4]; exact x3 (phys_sub_ne _ _ (by decide)) (phys_sub_ne _ _ (by decide))
  · rw [f0, reread, r3]
  · rw [reread]; exact hip
  · rw [reread]; exact hcs
  · intro a ha
    have ha' := forall_lt_six.1 ha
    rw [f0, f1, f2, f3, f4, f5] at ha'
    obtain ⟨a6, a5, a4, a3, a2, a1⟩ := ha'
    show readByte a s3 = readByte a s
    rw [x3 a5 a6]
    exact (x2 a3 a4).trans (x1 a1 a2)

/-- A push answers where its two bytes are writable and it is not at offset FFFFH (R45). -/
theorem push16_completes (v : Word) {s : State} (h : s.regs.sp ≠ 1)
    (w2 : writableAt s.config (phys s.ss (s.regs.sp - 2)) = true)
    (w1 : writableAt s.config (phys s.ss (s.regs.sp - 1)) = true) : ∃ t, push16 v s = .next t :=
  ⟨_, push16_eq_next.2 ⟨h, w2, w1, rfl⟩⟩

theorem memGet_isSome_memPut {a b : Nat} {v : Byte} {m : List Host.Cell} (h : (memGet b m).isSome = true ∨ b = a) :
    (memGet b (memPut a v m)).isSome = true := by
  rw [memGet_memPut]
  split
  · rfl
  · next hne => exact h.resolve_right hne

/-- After a push its two bytes have values, and every byte that had one still has. -/
theorem push16_hasValue {v : Word} {s t : State} (h : push16 v s = .next t) {a : Addr}
    (ha : (memGet a.toNat s.mem).isSome = true ∨ a = phys s.ss (s.regs.sp - 2) ∨ a = phys s.ss (s.regs.sp - 1)) :
    (memGet a.toNat t.mem).isSome = true := by
  obtain ⟨_, _, _, rfl⟩ := push16_eq_next.1 h
  refine memGet_isSome_memPut ?_
  rcases ha with ha | rfl | rfl
  · exact .inl (memGet_isSome_memPut (.inl ha))
  · exact .inl (memGet_isSome_memPut (.inr rfl))
  · exact .inr rfl

/-- A word read answers where both bytes exist and have values. -/
theorem readWord_completes {a : Addr} {s : State} (e0 : existsAt s.config a = true)
    (e1 : existsAt s.config (a + 1) = true) (g0 : (memGet a.toNat s.mem).isSome = true)
    (g1 : (memGet (a + 1).toNat s.mem).isSome = true) : ∃ v, readWord a s = .next v := by
  obtain ⟨v0, h0⟩ := Option.isSome_iff_exists.1 g0
  obtain ⟨v1, h1⟩ := Option.isSome_iff_exists.1 g1
  exact ⟨_, readWord_eq_next.2 ⟨v0, v1, readByte_eq_next.2 ⟨e0, h0⟩, readByte_eq_next.2 ⟨e1, h1⟩, rfl⟩⟩

/-- The vector read answers where the four bytes exist and have values. -/
theorem ivtRead_completes {n : Byte} {s : State}
    (h : ∀ k < 4, existsAt s.config (vectorAddr n + BitVec.ofNat 20 k) = true ∧
      (memGet (vectorAddr n + BitVec.ofNat 20 k).toNat s.mem).isSome = true) : ∃ r, ivtRead n s = .next r := by
  obtain ⟨v0, v1, v2, v3⟩ := forall_lt_four.1 h
  rw [show vectorAddr n + BitVec.ofNat 20 0 = vectorAddr n from BitVec.add_zero _] at v0
  rw [show vectorAddr n + BitVec.ofNat 20 3 = vectorAddr n + 2 + 1 from (BitVec.add_assoc _ 2 1).symm] at v3
  obtain ⟨i, hi⟩ := readWord_completes v0.1 v1.1 v0.2 v1.2
  obtain ⟨c, hc⟩ := readWord_completes v2.1 v3.1 v2.2 v3.2
  exact ⟨(c, i), ivtRead_eq_next.2 ⟨hi, hc⟩⟩

/-- Where the frame has room and the vector can be read, taking an interrupt answers a next state (R92). -/
theorem interruptSequence_completes {n : Byte} {s : State} (hr : FrameRoom s) (hv : VectorReady n s) :
    ∃ t, interruptSequence n s = .next t := by
  obtain ⟨n1, n3, n5, hw⟩ := hr
  obtain ⟨f0, f1, f2, f3, f4, f5⟩ := frameAddr_eq s
  obtain ⟨w0, w1, w2, w3, w4, w5⟩ := forall_lt_six.1 hw
  rw [f0] at w0
  rw [f1] at w1
  rw [f2] at w2
  rw [f3] at w3
  rw [f4] at w4
  rw [f5] at w5
  have k1 : s.regs.sp - 2 - 1 = s.regs.sp - 3 := BitVec.sub_sub _ 2 1
  have k2 : s.regs.sp - 2 - 2 = s.regs.sp - 4 := BitVec.sub_sub _ 2 2
  have k3 : s.regs.sp - 4 - 1 = s.regs.sp - 5 := BitVec.sub_sub _ 4 1
  have k4 : s.regs.sp - 4 - 2 = s.regs.sp - 6 := BitVec.sub_sub _ 4 2
  have m3 : s.regs.sp - 2 ≠ 1 := fun hh => n3 (by rw [← BitVec.sub_add_cancel s.regs.sp 2, hh]; rfl)
  have m5 : s.regs.sp - 4 ≠ 1 := fun hh => n5 (by rw [← BitVec.sub_add_cancel s.regs.sp 4, hh]; rfl)
  obtain ⟨s1, h1⟩ := push16_completes (flagsImage s) (s := withDraw s) n1 w4 w5
  obtain ⟨-, -, -, e1⟩ := push16_eq_next.1 h1
  have c1 : s1.config = s.config ∧ s1.ss = s.ss ∧ s1.regs.sp = s.regs.sp - 2 := by rw [e1]; exact ⟨rfl, rfl, rfl⟩
  obtain ⟨s2, h2⟩ := push16_completes s1.cs (s := withFlags (clearTF (clearIF s1.flags)) s1)
    (by simp only [withFlags_regs, c1]; exact m3)
    (by simp only [withFlags_regs, withFlags_ss, withFlags_config, c1, k2]; exact w2)
    (by simp only [withFlags_regs, withFlags_ss, withFlags_config, c1, k1]; exact w3)
  obtain ⟨-, -, -, e2⟩ := push16_eq_next.1 h2
  have c2 : s2.config = s.config ∧ s2.ss = s.ss ∧ s2.regs.sp = s.regs.sp - 4 := by
    rw [e2]; exact ⟨c1.1, c1.2.1, by rw [← k2, ← c1.2.2]; rfl⟩
  obtain ⟨s3, h3⟩ := push16_completes s2.ip (s := s2) (by rw [c2.2.2]; exact m5)
    (by simp only [c2, k4]; exact w0) (by simp only [c2, k3]; exact w1)
  obtain ⟨-, -, -, e3⟩ := push16_eq_next.1 h3
  have c3 : s3.config = s.config := by rw [e3]; exact c2.1
  have hsome : ∀ a : Addr, (memGet a.toNat s.mem).isSome = true ∨ (∃ j < 6, a = frameAddr s j) →
      (memGet a.toNat s3.mem).isSome = true := by
    intro a ha
    have g1 := fun h => push16_hasValue h1 (a := a) h
    have g2 := fun h => push16_hasValue h2 (a := a) h
    have g3 := fun h => push16_hasValue h3 (a := a) h
    simp only [withFlags_regs, withFlags_ss, withFlags_mem, withDraw_regs, withDraw_ss, withDraw_mem, c1, c2, k1, k2, k3,
      k4, ← f0, ← f1, ← f2, ← f3, ← f4, ← f5] at g1 g2 g3
    rcases ha with ha | ⟨j, hj, ha⟩
    · exact g3 (.inl (g2 (.inl (g1 (.inl ha)))))
    · interval_cases j
      · exact g3 (.inr (.inl ha))
      · exact g3 (.inr (.inr ha))
      · exact g3 (.inl (g2 (.inr (.inl ha))))
      · exact g3 (.inl (g2 (.inr (.inr ha))))
      · exact g3 (.inl (g2 (.inl (g1 (.inr (.inl ha))))))
      · exact g3 (.inl (g2 (.inl (g1 (.inr (.inr ha))))))
  obtain ⟨r, hrd⟩ := ivtRead_completes (n := n) (s := s3) fun k hk =>
    ⟨c3 ▸ (hv k hk).1, hsome _ (hv k hk).2⟩
  exact ⟨withCsIp r.1 r.2 s3, by unfold interruptSequence; rw [h1, andThen_next, h2, andThen_next, h3, andThen_next, hrd]; rfl⟩

/-- Where the frame has room and the vector can be read, taking an interrupt leaves what R92 says. -/
theorem interruptSequence_took {n : Byte} {s : State} (hr : FrameRoom s) (hv : VectorReady n s) :
    ∃ t, interruptSequence n s = .next t ∧ TookInterrupt n s t := by
  obtain ⟨t, ht⟩ := interruptSequence_completes hr hv
  exact ⟨t, ht, (interruptSequence_next ht).2⟩

/-- What a sequence leaves does not depend on the STI shadow. -/
theorem TookInterrupt.withShadow {n : Byte} {s t : State} (h : TookInterrupt n s t) (b : Bool) :
    TookInterrupt n (withShadow b s) (withShadow b t) where
  rest := by rw [h.rest]; rfl
  image := h.image
  savedCs := h.savedCs
  savedIp := h.savedIp
  newIp := h.newIp
  newCs := h.newCs
  elsewhere := h.elsewhere

/-! ### The return from an interrupt -/

/-- What the return can answer: IP, CS and FLAGS from the three words at SS:SP, SP raised by 6 (R80). -/
theorem interruptReturn_eq_next {s t : State} :
    interruptReturn s = .next t ↔ s.regs.sp ≠ 0xFFFF ∧ s.regs.sp ≠ 0xFFFD ∧ s.regs.sp ≠ 0xFFFB ∧
      ∃ i c w, readWord (phys s.ss s.regs.sp) s = .next i ∧ readWord (phys s.ss (s.regs.sp + 2)) s = .next c ∧
        readWord (phys s.ss (s.regs.sp + 4)) s = .next w ∧
        t = withFlags (flagsLoad w) (withCsIp c i (withSp (s.regs.sp + 6) s)) := by
  have k2 : s.regs.sp + 2 + 2 = s.regs.sp + 4 := BitVec.add_assoc _ 2 2
  have k3 : s.regs.sp + 2 + 2 + 2 = s.regs.sp + 6 := by rw [k2]; exact BitVec.add_assoc _ 4 2
  have e2 : s.regs.sp + 2 ≠ 0xFFFF ↔ s.regs.sp ≠ 0xFFFD := by
    constructor <;> (intro h hh; apply h; bv_omega)
  have e3 : s.regs.sp + 2 + 2 ≠ 0xFFFF ↔ s.regs.sp ≠ 0xFFFB := by
    constructor <;> (intro h hh; apply h; bv_omega)
  have rd : ∀ (a : Addr) (v : Word), readWord a (withSp v s) = readWord a s := fun _ _ => rfl
  simp only [interruptReturn, andThen_eq_next, pop16_eq_next, Host.Outcome.next.injEq]
  constructor
  · rintro ⟨⟨i, s1⟩, ⟨h1, hi, rfl⟩, ⟨c, s2⟩, ⟨h2, hc, rfl⟩, ⟨w, s3⟩, ⟨h3, hw, rfl⟩, rfl⟩
    refine ⟨h1, e2.1 h2, e3.1 h3, i, c, w, hi, hc, ?_, ?_⟩
    · rw [← k2]; exact hw
    · rw [← k3]; rfl
  · rintro ⟨h1, h2, h3, i, c, w, hi, hc, hw, rfl⟩
    refine ⟨(i, _), ⟨h1, hi, rfl⟩, (c, _), ⟨e2.2 h2, hc, rfl⟩, (w, _), ⟨e3.2 h3, ?_, rfl⟩, ?_⟩
    · rw [← k2] at hw; exact hw
    · rw [← k3]; rfl

end Sys2Proof.Machine
end

