-- ==== Sys2Proof/Laws/Pic.lean ====
section
/-! SUPPORT. The 8259A's small laws: bits of a register, ranks, the winner, what serving and driving a line change, and
that every access keeps a chip consistent (60_exceptions.md rules R121 to R142). -/

namespace Sys2Proof.Machine

/-! ### Bits of a register of eight levels -/

theorem bitAt_withBit (v : Byte) (n m : Level) : bitAt (withBit v n) m = if m = n then true else bitAt v m := by
  revert v n m; unfold bitAt withBit
  intro v n m
  rw [BitVec.getLsbD_or, BitVec.getLsbD_shiftLeft]
  have hn := n.isLt
  have hm := m.isLt
  by_cases h : m = n
  · subst h
    have : m.toNat < 8 := hm
    simp [this]
  · have hne : m.toNat ≠ n.toNat := fun hh => h (BitVec.eq_of_toNat_eq hh)
    have : (1#8).getLsbD (m.toNat - n.toNat) = decide (m.toNat - n.toNat = 0) := by
      rw [BitVec.getLsbD_one]; simp
    rw [this]
    by_cases hlt : m.toNat < n.toNat
    · simp [h, hlt]
    · have : m.toNat - n.toNat ≠ 0 := by omega
      simp [h, this]

theorem bitAt_withoutBit (v : Byte) (n m : Level) :
    bitAt (withoutBit v n) m = if m = n then false else bitAt v m := by
  unfold bitAt withoutBit
  rw [BitVec.getLsbD_and, BitVec.getLsbD_not, BitVec.getLsbD_shiftLeft]
  have hn := n.isLt
  have hm : m.toNat < 8 := m.isLt
  by_cases h : m = n
  · subst h
    simp [hm]
  · have hne : m.toNat ≠ n.toNat := fun hh => h (BitVec.eq_of_toNat_eq hh)
    have : (1#8).getLsbD (m.toNat - n.toNat) = decide (m.toNat - n.toNat = 0) := by
      rw [BitVec.getLsbD_one]; simp
    rw [this]
    by_cases hlt : m.toNat < n.toNat
    · simp [h, hm, hlt]
    · have : m.toNat - n.toNat ≠ 0 := by omega
      simp [h, this, hm]

theorem bitAt_and (v w : Byte) (n : Level) : bitAt (v &&& w) n = (bitAt v n && bitAt w n) :=
  BitVec.getLsbD_and

theorem bitAt_irr (p : Pic) (n : Level) :
    bitAt (irr p) n = if p.ltim = true then bitAt p.ir n else bitAt p.edge n && bitAt p.ir n := by
  unfold irr
  split
  · rfl
  · exact bitAt_and _ _ _

/-! ### Levels and ranks -/

theorem mem_levels (n : Level) : n ∈ levels := by
  revert n; decide

theorem rank_toNat (p : Pic) (n : Level) : (rank p n).toNat = (n.toNat + 7 - p.lowest.toNat) % 8 := by
  unfold rank
  have hn := n.isLt
  have hl := p.lowest.isLt
  have h1 : (1 : Level).toNat = 1 := rfl
  simp only [BitVec.toNat_sub, h1]
  omega

theorem rank_inj {p : Pic} {n m : Level} (h : rank p n = rank p m) : n = m := by
  have hn := n.isLt
  have hm := m.isLt
  have hl := p.lowest.isLt
  have := congrArg BitVec.toNat h
  rw [rank_toNat, rank_toNat] at this
  apply BitVec.eq_of_toNat_eq
  omega

/-- The list of levels by priority holds each level at the place its rank says. -/
theorem byPriority_getElem (p : Pic) (k : Level) : (byPriority p)[k.toNat]? = some (p.lowest + 1 + k) := by
  unfold byPriority
  generalize p.lowest = l
  revert l k; decide

theorem byPriority_length (p : Pic) : (byPriority p).length = 8 := rfl

/-- In a list of rising levels the first that passes a test is the least that does. -/
theorem find_rising (q : Level → Bool) {l : List Level} (h : l.Pairwise fun a b => a.toNat < b.toNat) (n : Level) :
    l.find? q = some n ↔ n ∈ l ∧ q n = true ∧ ∀ m ∈ l, q m = true → n.toNat ≤ m.toNat := by
  induction l with
  | nil => simp
  | cons a l ih =>
    rw [List.pairwise_cons] at h
    rw [List.find?_cons]
    cases hq : q a
    · simp only [ih h.2, List.mem_cons, forall_eq_or_imp, hq, Bool.false_eq_true, false_implies, true_and]
      refine ⟨fun ⟨hn, hp⟩ => ⟨.inr hn, hp⟩, fun ⟨hn, hp⟩ => ⟨hn.resolve_left ?_, hp⟩⟩
      rintro rfl
      rw [hp.1] at hq
      cases hq
    · simp only [Option.some.injEq, List.mem_cons, forall_eq_or_imp]
      constructor
      · rintro rfl
        exact ⟨.inl rfl, hq, fun _ => Nat.le_refl _, fun m hm _ => Nat.le_of_lt (h.1 m hm)⟩
      · rintro ⟨hn, _, hle, _⟩
        rcases hn with rfl | hn
        · rfl
        · have := h.1 n hn
          have := hle hq
          omega

/-- The first level by priority that passes a test is the one of smallest rank that does. -/
theorem find_byPriority (p : Pic) (q : Level → Bool) (n : Level) :
    (byPriority p).find? q = some n ↔ q n = true ∧ ∀ m, q m = true → (rank p n).toNat ≤ (rank p m).toNat := by
  have key : ∀ (l : Level) (n : Level),
      (levels.map fun k => l + 1 + k).find? q = some n ↔
        q n = true ∧ ∀ m, q m = true → (n - l - 1).toNat ≤ (m - l - 1).toNat := by
    intro l n
    have hl : ∀ k : Level, (l + 1 + k) - l - 1 = k := by intro k; bv_omega
    have hn : ∀ m : Level, l + 1 + (m - l - 1) = m := by intro m; bv_omega
    rw [List.find?_map]
    have main : ∀ (r : Level → Bool) (j : Level),
        levels.find? r = some j ↔ r j = true ∧ ∀ k, r k = true → j.toNat ≤ k.toNat := by
      intro r j
      rw [find_rising r (by decide)]
      simp only [mem_levels, true_and, true_implies]
    constructor
    · intro h
      obtain ⟨j, hj, rfl⟩ := Option.map_eq_some_iff.1 h
      obtain ⟨hq, hmin⟩ := (main _ _).1 hj
      refine ⟨hq, fun m hm => ?_⟩
      rw [hl]
      exact hmin (m - l - 1) (by simpa [hn] using hm)
    · rintro ⟨hq, hmin⟩
      refine Option.map_eq_some_iff.2 ⟨n - l - 1, (main _ _).2 ⟨by simpa [hn] using hq, fun k hk => ?_⟩, hn n⟩
      have := hmin _ hk
      rwa [hl] at this
  exact key p.lowest n

theorem find_byPriority_none (p : Pic) (q : Level → Bool) :
    (byPriority p).find? q = none ↔ ∀ m, q m = false := by
  rw [List.find?_eq_none]
  constructor
  · intro h m
    have hm : m ∈ byPriority p := by
      refine List.mem_map.2 ⟨m - p.lowest - 1, mem_levels _, ?_⟩
      show p.lowest + 1 + (m - p.lowest - 1) = m
      bv_omega
    simpa using h m hm
  · intro h m _; simp [h m]

/-! ### The winner and INT (R135) -/

/-- What the winner is: the eligible level of smallest rank. -/
theorem winner_eq_some {p : Pic} {n : Level} :
    winner p = some n ↔ eligible p n = true ∧ ∀ m, eligible p m = true → (rank p n).toNat ≤ (rank p m).toNat :=
  find_byPriority p (eligible p) n

theorem winner_eq_none {p : Pic} : winner p = none ↔ ∀ m, eligible p m = false :=
  find_byPriority_none p (eligible p)

/-- INT is high exactly when the chip is ready and some level is eligible. -/
theorem intOut_eq_true {p : Pic} : intOut p = true ↔ p.init = .ready ∧ ∃ n, eligible p n = true := by
  unfold intOut
  rw [Bool.and_eq_true, beq_iff_eq, List.any_eq_true]
  exact and_congr_right fun _ => ⟨fun ⟨n, _, h⟩ => ⟨n, h⟩, fun ⟨n, h⟩ => ⟨n, mem_levels n, h⟩⟩

/-- What eligible means: requesting, not masked, and held back by no level. -/
theorem eligible_eq_true {p : Pic} {n : Level} :
    eligible p n = true ↔ bitAt (irr p) n = true ∧ bitAt p.imr n = false ∧ ∀ m, holdsBack p n m = false := by
  unfold eligible
  rw [Bool.and_eq_true, Bool.and_eq_true, Bool.not_eq_true', Bool.not_eq_true', and_assoc, List.any_eq_false]
  refine and_congr_right fun _ => and_congr_right fun _ => ?_
  exact ⟨fun h m => by simpa using h m (mem_levels m), fun h m _ => by simp [h m]⟩

/-- When a level does not hold another back. -/
theorem holdsBack_eq_false {p : Pic} {n m : Level} :
    holdsBack p n m = false ↔ (inServiceCounts p m = true →
      if nestsInService p n = true then (rank p n).toNat ≤ (rank p m).toNat
      else (rank p n).toNat < (rank p m).toNat) := by
  unfold holdsBack
  cases inServiceCounts p m <;> cases nestsInService p n <;> simp [BitVec.ult, BitVec.ule]

/-! ### Driving a line and serving a level -/

/-- A line driven changes that input and its edge latch only. -/
theorem irChange_eq (n : Level) (v : Bool) (p : Pic) :
    irChange n v p = { p with ir := (irChange n v p).ir, edge := (irChange n v p).edge } := rfl

theorem bitAt_irChange_ir (n m : Level) (v : Bool) (p : Pic) :
    bitAt (irChange n v p).ir m = if m = n then v else bitAt p.ir m := by
  unfold irChange
  cases v
  · exact bitAt_withoutBit _ _ _
  · exact bitAt_withBit _ _ _

theorem bitAt_irChange_edge (n m : Level) (v : Bool) (p : Pic) :
    bitAt (irChange n v p).edge m =
      if m = n ∧ bitAt p.ir n = false ∧ v = true then true else bitAt p.edge m := by
  unfold irChange
  cases v <;> cases bitAt p.ir n <;> simp [bitAt_withBit]

theorem bitAt_serve_isr (n m : Level) (p : Pic) :
    bitAt (serve n p).isr m = if m = n then !aeoiMode p else bitAt p.isr m := by
  unfold serve
  cases h : aeoiMode p <;> simp [bitAt_withBit, bitAt_withoutBit]

/-- In a single chip and in a master of a cascade automatic EOI mode is in force as ICW4 says; in no chip without it. -/
theorem aeoiMode_eq {p : Pic} (h : p.aeoi = false ∨ p.sngl = true ∨ isMaster p = true) : aeoiMode p = p.aeoi := by
  rcases h with h | h | h <;> simp [aeoiMode, isSlave, h]

theorem bitAt_serve_edge (n m : Level) (p : Pic) :
    bitAt (serve n p).edge m = if m = n then false else bitAt p.edge m :=
  bitAt_withoutBit _ _ _

/-- The slaves' outputs change nothing of the master but its inputs and edge latches. -/
theorem driveLines_eq (p : Pic) (l : List Slave) :
    driveLines p l = { p with ir := (driveLines p l).ir, edge := (driveLines p l).edge } := by
  unfold driveLines
  induction l generalizing p with
  | nil => rfl
  | cons sl l ih =>
    simp only [List.foldl_cons]
    rw [ih]
    rfl

theorem bitAt_driveLines_of_not_mem (p : Pic) (l : List Slave) (n : Level) (h : n ∉ l.map Slave.line) :
    bitAt (driveLines p l).ir n = bitAt p.ir n := by
  unfold driveLines
  induction l generalizing p with
  | nil => rfl
  | cons sl l ih =>
    simp only [List.map_cons, List.mem_cons, not_or] at h
    simp only [List.foldl_cons]
    rw [ih _ h.2, driveLine, bitAt_irChange_ir, if_neg h.1]

/-- After the slaves' outputs are driven, each input a slave hangs on has that slave's level. -/
theorem bitAt_driveLines (p : Pic) (l : List Slave) (hnd : (l.map Slave.line).Nodup) :
    ∀ sl ∈ l, bitAt (driveLines p l).ir sl.line = intOut sl.chip := by
  unfold driveLines
  induction l generalizing p with
  | nil => intro sl h; cases h
  | cons x l ih =>
    rw [List.map_cons, List.nodup_cons] at hnd
    intro sl hsl
    simp only [List.foldl_cons]
    rcases List.mem_cons.1 hsl with rfl | hsl
    · have := bitAt_driveLines_of_not_mem (driveLine p sl) l sl.line hnd.1
      unfold driveLines at this
      rw [this, driveLine, bitAt_irChange_ir, if_pos rfl]
    · exact ih _ hnd.2 sl hsl

theorem withBit_eq_self {v : Byte} {n : Level} (h : bitAt v n = true) : withBit v n = v := by
  apply BitVec.eq_of_getLsbD_eq
  intro i hi
  have := bitAt_withBit v n (BitVec.ofNat 3 i)
  have hm : (BitVec.ofNat 3 i).toNat = i := by rw [BitVec.toNat_ofNat]; omega
  unfold bitAt at this
  rw [hm] at this
  rw [this]
  split
  · next heq => rw [← heq] at h; unfold bitAt at h; rw [hm] at h; exact h.symm
  · rfl

theorem withoutBit_eq_self {v : Byte} {n : Level} (h : bitAt v n = false) : withoutBit v n = v := by
  apply BitVec.eq_of_getLsbD_eq
  intro i hi
  have := bitAt_withoutBit v n (BitVec.ofNat 3 i)
  have hm : (BitVec.ofNat 3 i).toNat = i := by rw [BitVec.toNat_ofNat]; omega
  unfold bitAt at this
  rw [hm] at this
  rw [this]
  split
  · next heq => rw [← heq] at h; unfold bitAt at h; rw [hm] at h; exact h.symm
  · rfl

/-- A line driven to the level it has changes nothing. -/
theorem irChange_eq_self {n : Level} {p : Pic} {v : Bool} (h : bitAt p.ir n = v) : irChange n v p = p := by
  unfold irChange
  cases v
  · simp [withoutBit_eq_self h]
  · simp [withBit_eq_self h, h]

/-- Slaves whose outputs already stand on the master's inputs change nothing there. -/
theorem driveLines_eq_self {p : Pic} {l : List Slave} (h : ∀ sl ∈ l, bitAt p.ir sl.line = intOut sl.chip) :
    driveLines p l = p := by
  unfold driveLines
  induction l with
  | nil => rfl
  | cons sl l ih =>
    rw [List.foldl_cons, driveLine, irChange_eq_self (h sl (by simp))]
    exact ih fun x hx => h x (by simp [hx])

/-- Outputs that are low, or high where the input is already high, are no edge: they latch nothing. -/
theorem driveLines_edge {p : Pic} {l : List Slave} (h : ∀ sl ∈ l, intOut sl.chip = true → bitAt p.ir sl.line = true)
    (hnd : (l.map Slave.line).Nodup) : (driveLines p l).edge = p.edge := by
  unfold driveLines
  induction l generalizing p with
  | nil => rfl
  | cons x l ih =>
    rw [List.map_cons, List.nodup_cons] at hnd
    rw [List.foldl_cons, ih (fun sl hs ho => ?_) hnd.2]
    · cases ho : intOut x.chip
      · simp [driveLine, irChange, ho]
      · simp [driveLine, irChange, ho, h x (by simp) ho]
    · have hne : sl.line ≠ x.line := fun he => hnd.1 (he ▸ List.mem_map_of_mem hs)
      rw [driveLine, bitAt_irChange_ir, if_neg hne]
      exact h sl (by simp [hs]) ho

/-- Whether a level in service counts (R137, R140). -/
theorem inServiceCounts_eq_true {p : Pic} {n : Level} :
    inServiceCounts p n = true ↔ bitAt p.isr n = true ∧ (p.smm = false ∨ bitAt p.imr n = false) := by
  unfold inServiceCounts
  cases bitAt p.isr n <;> cases p.smm <;> cases bitAt p.imr n <;> decide

theorem typeOf_toNat (p : Pic) (n : Level) : (typeOf p n).toNat = p.t.toNat * 8 + n.toNat := by
  have : n.toNat < 2 ^ 3 := n.isLt
  rw [typeOf, BitVec.toNat_append, ← Nat.shiftLeft_add_eq_or_of_lt this, Nat.shiftLeft_eq]

/-! ### What the chips' operations leave of the rest of the state -/

/-- Two states that agree on everything but the chips, the count of draws and the byte of the last read. -/
def SameButPics (s t : State) : Prop :=
  t = { s with pic := t.pic, slaves := t.slaves, draws := t.draws, ioData := t.ioData }

theorem SameButPics.refl (s : State) : SameButPics s s := rfl

theorem SameButPics.trans {s t u : State} (h : SameButPics s t) (h' : SameButPics t u) : SameButPics s u := by
  unfold SameButPics at *
  rw [h', h]

theorem settlePics_same (p : Pic) (l : List Slave) (s : State) : SameButPics s (settlePics p l s) := rfl

theorem setChip_same (id : ChipId) (p : Pic) (s : State) : SameButPics s (setChip id p s) := by
  cases id <;> rfl

theorem driveIr_same (id : ChipId) (n : Level) (v : Bool) (s : State) : SameButPics s (driveIr id n v s) := by
  unfold driveIr
  split
  · rfl
  · split
    · exact setChip_same _ _ _
    · rfl

/-- What an acknowledge by the 8259A can answer: nothing changes but the chips and the count of draws. -/
theorem picAcknowledge_same {s : State} {r : Byte × State} (h : picAcknowledge s = .next r) : SameButPics s r.2 := by
  have hs' : SameButPics s (if s.config.picSpurious = true then withDraw s else s) := by split <;> rfl
  unfold picAcknowledge at h
  dsimp only at h
  revert h hs'
  generalize (if s.config.picSpurious = true then withDraw s else s) = s'
  intro h hs'
  split at h
  · cases h
  split at h
  · cases h
  split at h
  · cases h
  split at h
  · cases h; exact hs'
  split at h
  · cases h; exact hs'
  split at h
  · split at h
    · unfold cascadeAcknowledge at h
      dsimp only at h
      split at h
      · cases h
      · split at h <;> cases h
        · exact hs'.trans (settlePics_same _ _ _)
        · exact hs'.trans (SameButPics.trans (t := withDraw s') rfl (settlePics_same _ _ _))
    · cases h
  · cases h; exact hs'.trans (settlePics_same _ _ _)

/-- What an acknowledge can answer: nothing changes but the chips and the count of draws (R92, R99). -/
theorem acknowledge_same {s : State} {r : Byte × State} (h : acknowledge s = .next r) : SameButPics s r.2 := by
  unfold acknowledge at h
  split at h
  · exact picAcknowledge_same h
  · cases h; rfl

/-- What a write to a port can answer: the chip that answers there takes the byte (R31, R122). -/
theorem portWrite_eq_next {port : Word} {d : Byte} {s t : State} :
    portWrite port d s = .next t ↔ (s.config.picPresent = true ∧ boardAdmitted s = true) ∧ ∃ id a0 p p',
      portChip port s = some (id, a0) ∧ chipOf id s = some p ∧ chipWrite s.config a0 d p = .next p' ∧
        t = setChip id p' s := by
  unfold portWrite picWrite
  constructor
  · intro h
    split at h
    · next id a0 hp hc =>
      split at h
      · next hb =>
        split at h
        · next p hch =>
          obtain ⟨p', hw, h⟩ := andThen_eq_next.1 h
          cases h
          exact ⟨⟨hp, hb⟩, id, a0, p, p', hc, hch, hw, rfl⟩
        · cases h
      · cases h
    · cases h
  · rintro ⟨⟨hp, hb⟩, id, a0, p, p', hc, hch, hw, rfl⟩
    simp [hp, hb, hc, hch, hw]

theorem portWrite_same {port : Word} {d : Byte} {s t : State} (h : portWrite port d s = .next t) : SameButPics s t := by
  obtain ⟨_, id, a0, p, p', _, _, _, rfl⟩ := portWrite_eq_next.1 h
  exact setChip_same _ _ _

/-- What a read from a port can answer: the byte of the chip that answers there, which may count as an acknowledge
(R31, R133). -/
theorem portRead_eq_next {port : Word} {s t : State} :
    portRead port s = .next t ↔ (s.config.picPresent = true ∧ boardAdmitted s = true) ∧ ∃ id a0 p r,
      portChip port s = some (id, a0) ∧ chipOf id s = some p ∧
        chipRead (Config.freePollByte s.draws) a0 p = .next r ∧
        t = { setChip id r.2 (withDraw s) with ioData := r.1 } := by
  unfold portRead picRead
  constructor
  · intro h
    split at h
    · next id a0 hp hc =>
      split at h
      · next hb =>
        split at h
        · next p hch =>
          obtain ⟨_, h, h'⟩ := andThen_eq_next.1 h
          obtain ⟨r, hr, h⟩ := andThen_eq_next.1 h
          cases h
          cases h'
          exact ⟨⟨hp, hb⟩, id, a0, p, r, hc, hch, hr, rfl⟩
        · cases h
      · cases h
    · cases h
  · rintro ⟨⟨hp, hb⟩, id, a0, p, r, hc, hch, hr, rfl⟩
    simp [hp, hb, hc, hch, hr]

theorem portRead_same {port : Word} {s t : State} (h : portRead port s = .next t) : SameButPics s t := by
  obtain ⟨_, id, a0, p, r, _, _, _, rfl⟩ := portRead_eq_next.1 h
  have : SameButPics s (setChip id r.2 (withDraw s)) := SameButPics.trans (t := withDraw s) rfl (setChip_same id r.2 _)
  exact this.trans rfl

end Sys2Proof.Machine
end

