-- ==== Sys2Proof/Laws/Boundary.lean ====
section
/-! SUPPORT. What the boundary can do, said once: a relation that its parts keep, it keeps; and how it ends in the cases
in which one cause, or none, is recognised (60_exceptions.md rules R96 to R101). -/

namespace Sys2Proof.Machine

/-! ### What a cause taken can answer -/

theorem takeNmi_next {s t : State} (h : takeNmi s = .next t) : TookInterrupt 2 (withNmi false s) t :=
  (interruptSequence_next h).2

theorem divideError_next {s t : State} (h : divideError s = .next t) : TookInterrupt 0 s t :=
  (interruptSequence_next (n := 0) h).2

theorem takeTrap_next {s t : State} (h : takeTrap s = .next t) : TookInterrupt 1 s t :=
  (interruptSequence_next h).2

/-- An INTR taken is an acknowledge, then the sequence of the type it answered (R98, R99). -/
theorem takeIntr_eq_next {s t : State} :
    takeIntr s = .next t ↔ ∃ r, acknowledge s = .next r ∧ interruptSequence r.1 r.2 = .next t :=
  andThen_eq_next

/-! ### A relation carried through the boundary -/

/-- The parts a boundary is made of: clearing the shadow or the NMI latch, an acknowledge, and a sequence. A relation
that follows itself and holds across each of them holds across the boundary (R101). -/
structure CarriedByBoundary (R : State → State → Prop) : Prop where
  refl : ∀ s, R s s
  trans : ∀ {s t u}, R s t → R t u → R s u
  shadow : ∀ s, R s (withShadow false s)
  nmi : ∀ s, R s (withNmi false s)
  ack : ∀ {s r}, acknowledge s = .next r → R s r.2
  seq : ∀ {n s t}, interruptSequence n s = .next t → R s t

variable {R : State → State → Prop}

theorem CarriedByBoundary.takeNmi (c : CarriedByBoundary R) {s t : State} (h : takeNmi s = .next t) : R s t :=
  c.trans (c.nmi s) (c.seq h)

theorem CarriedByBoundary.takeIntr (c : CarriedByBoundary R) {s t : State} (h : takeIntr s = .next t) : R s t := by
  obtain ⟨r, hr, ht⟩ := takeIntr_eq_next.1 h
  exact c.trans (c.ack hr) (c.seq ht)

theorem CarriedByBoundary.takeTrap (c : CarriedByBoundary R) {s t : State} (h : takeTrap s = .next t) : R s t :=
  c.seq h

theorem CarriedByBoundary.afterNmi (c : CarriedByBoundary R) {due : Bool} {s t : State}
    (h : afterNmi due s = .next t) : R s t := by
  unfold Machine.afterNmi at h
  split at h
  · exact c.takeTrap h
  · cases h; exact c.refl s

theorem CarriedByBoundary.afterSequence (c : CarriedByBoundary R) {due : Bool} {s t : State}
    (h : afterSequence due s = .next t) : R s t := by
  unfold Machine.afterSequence at h
  split at h
  · obtain ⟨u, hu, ht⟩ := andThen_eq_next.1 h
    exact c.trans (c.takeNmi hu) (c.afterNmi ht)
  · exact c.afterNmi h

theorem CarriedByBoundary.recognise (c : CarriedByBoundary R) {shadow : Bool} {s t : State}
    (h : recognise shadow s = .next t) : R s t := by
  unfold Machine.recognise at h
  split at h
  · obtain ⟨u, hu, ht⟩ := andThen_eq_next.1 h
    exact c.trans (c.takeNmi hu) (c.afterSequence ht)
  split at h
  · obtain ⟨u, hu, ht⟩ := andThen_eq_next.1 h
    exact c.trans (c.takeIntr hu) (c.afterSequence ht)
  split at h
  · obtain ⟨u, hu, ht⟩ := andThen_eq_next.1 h
    exact c.trans (c.takeTrap hu) (c.afterSequence ht)
  · cases h; exact c.refl s

/-- What a boundary can answer: whatever its parts carry. -/
theorem CarriedByBoundary.boundary (c : CarriedByBoundary R) {internal : Bool} {s t : State}
    (h : boundary internal s = .next t) : R s t := by
  unfold Machine.boundary at h
  split at h
  · exact c.trans (c.shadow s) (c.afterSequence h)
  · exact c.trans (c.shadow s) (c.recognise h)

/-! ### How the boundary ends -/

theorem withShadow_eq_self {s : State} (h : s.stiShadow = false) : withShadow false s = s := by
  unfold withShadow
  rw [← h]

theorem afterSequence_none {s : State} (hn : s.nmiPending = false) : afterSequence false s = .next s := by
  simp [afterSequence, afterNmi, hn]

/-- A sequence leaves the NMI latch, the shadow and the sampled TF as they are (R92). -/
theorem TookInterrupt.latches {n : Byte} {s t : State} (h : TookInterrupt n s t) :
    t.nmiPending = s.nmiPending ∧ t.stiShadow = s.stiShadow ∧ t.tfBefore = s.tfBefore ∧ t.flags.IF = false := by
  rw [h.rest]
  exact ⟨rfl, rfl, rfl, rfl⟩

/-- With nothing latched, INTR not recognised and no single step due, the boundary takes nothing. -/
theorem boundary_quiet {s : State} (hn : s.nmiPending = false) (ht : s.tfBefore = false)
    (hi : intrRecognised s.stiShadow (withShadow false s) = false) :
    boundary false s = .next (withShadow false s) := by
  simp [boundary, recognise, hn, ht, hi]

/-- The end of the loop of R101: the single-step request left over runs, if there is one. -/
theorem afterSequence_eq {due : Bool} {s : State} (hn : s.nmiPending = false) :
    afterSequence due s = if due then takeTrap s else .next s := by
  simp [afterSequence, afterNmi, hn]

/-- A latched NMI is taken first, whether or not the instruction ran a sequence, and only the single step due follows. -/
theorem boundary_nmi {internal : Bool} {s t : State} (hn : s.nmiPending = true)
    (h : takeNmi (withShadow false s) = .next t) :
    boundary internal s = if s.tfBefore then takeTrap t else .next t := by
  have hl := (takeNmi_next h).latches
  cases internal
  · simp only [boundary, recognise, hn, withShadow_nmiPending, withShadow_tfBefore, if_true, Bool.false_eq_true,
      if_false, h, andThen_next]
    exact afterSequence_eq hl.1
  · simp only [boundary, afterSequence, hn, withShadow_nmiPending, if_true, h, andThen_next]
    rfl

/-- An INTR recognised is taken when no NMI is latched, and only the single step due follows. -/
theorem boundary_intr {s t : State} (hn : s.nmiPending = false)
    (hi : intrRecognised s.stiShadow (withShadow false s) = true) (h : takeIntr (withShadow false s) = .next t) :
    boundary false s = if s.tfBefore then takeTrap t else .next t := by
  obtain ⟨r, hr, hs⟩ := takeIntr_eq_next.1 h
  have hl := (interruptSequence_next hs).2.latches
  have hp : t.nmiPending = false := by
    rw [hl.1, acknowledge_same hr]
    exact hn
  simp only [boundary, recognise, hn, hi, withShadow_nmiPending, withShadow_tfBefore, if_true, Bool.false_eq_true,
    if_false, h, andThen_next]
  exact afterSequence_eq hp

/-- With no NMI latched, the boundary after an instruction that ran a sequence takes the single step due, if any. -/
theorem boundary_internal {s : State} (hn : s.nmiPending = false) :
    boundary true s = if s.tfBefore then takeTrap (withShadow false s) else .next (withShadow false s) := by
  simp only [boundary, if_true]
  exact afterSequence_eq hn

/-- A single step due is taken when nothing is recognised before it, and nothing follows it. -/
theorem boundary_trap {s t : State} (hn : s.nmiPending = false) (ht : s.tfBefore = true)
    (hi : intrRecognised s.stiShadow (withShadow false s) = false) (h : takeTrap (withShadow false s) = .next t) :
    boundary false s = .next t := by
  have hl := (takeTrap_next h).latches
  simp only [boundary, recognise, hn, ht, hi, withShadow_nmiPending, withShadow_tfBefore, if_true, Bool.false_eq_true,
    if_false, h, andThen_next]
  exact afterSequence_none (hl.1.trans hn)

end Sys2Proof.Machine
end

