-- ==== Sys2Proof/Laws/Flags.lean ====
section
/-! SUPPORT. The flag register's image, bit by bit, and what loading it gives (10_state.md rules R24, R28). -/

namespace Sys2Proof.Machine

theorem getLsbD_flagWord_shift (b : Bool) (k j : Nat) (hj : j < 16) :
    (flagWord b <<< k).getLsbD j = (b && decide (j = k)) := by
  have h1 : (1 : Word).getLsbD (j - k) = decide (j - k = 0) := by
    rw [show (1 : Word) = 1#16 from rfl, BitVec.getLsbD_one]
    simp
  unfold flagWord
  rw [BitVec.getLsbD_shiftLeft]
  cases b
  · simp
  · simp only [if_true, h1, hj, decide_true, Bool.true_and]
    by_cases h : j < k
    · simp [h, Nat.ne_of_lt h]
    · rw [decide_eq_false h, Bool.not_false, Bool.true_and, decide_eq_decide]
      omega

/-- The image's defined bits are the flags at their positions; its other bits are those of `r` (R28). -/
theorem getLsbD_imageWith (f : Flags) (r : Word) :
    (imageWith f r).getLsbD 0 = f.CF ∧ (imageWith f r).getLsbD 2 = f.PF ∧ (imageWith f r).getLsbD 4 = f.AF ∧
    (imageWith f r).getLsbD 6 = f.ZF ∧ (imageWith f r).getLsbD 7 = f.SF ∧ (imageWith f r).getLsbD 8 = f.TF ∧
    (imageWith f r).getLsbD 9 = f.IF ∧ (imageWith f r).getLsbD 10 = f.DF ∧ (imageWith f r).getLsbD 11 = f.OF := by
  have hc : ∀ j < 16, (flagWord f.CF).getLsbD j = (f.CF && decide (j = 0)) := fun j hj => by
    simpa using getLsbD_flagWord_shift f.CF 0 j hj
  have hi : ∀ j < 16, (definedImage f).getLsbD j =
      (f.OF && decide (j = 11) || f.DF && decide (j = 10) || f.IF && decide (j = 9) || f.TF && decide (j = 8) ||
        f.SF && decide (j = 7) || f.ZF && decide (j = 6) || f.AF && decide (j = 4) || f.PF && decide (j = 2) ||
        f.CF && decide (j = 0)) := by
    intro j hj
    simp only [definedImage, BitVec.getLsbD_or, getLsbD_flagWord_shift _ _ j hj, hc j hj]
  have hd : ∀ j, definedFlags.getLsbD j = true →
      (imageWith f r).getLsbD j = (definedImage f).getLsbD j := by
    intro j hj
    rw [imageWith, BitVec.getLsbD_or, BitVec.getLsbD_and, BitVec.getLsbD_not, hj]
    simp
  rw [hd 0 (by decide), hd 2 (by decide), hd 4 (by decide), hd 6 (by decide), hd 7 (by decide), hd 8 (by decide),
    hd 9 (by decide), hd 10 (by decide), hd 11 (by decide), hi 0 (by decide), hi 2 (by decide), hi 4 (by decide),
    hi 6 (by decide), hi 7 (by decide), hi 8 (by decide), hi 9 (by decide), hi 10 (by decide), hi 11 (by decide)]
  simp

/-- Loading an image gives the flags it was made of, whatever its reserved bits (R28). -/
@[simp] theorem flagsLoad_imageWith (f : Flags) (r : Word) : flagsLoad (imageWith f r) = f := by
  obtain ⟨h0, h2, h4, h6, h7, h8, h9, h10, h11⟩ := getLsbD_imageWith f r
  simp only [flagsLoad, h0, h2, h4, h6, h7, h8, h9, h10, h11]

/-! ### FLAGS_RESERVED (R4) -/

theorem reservedFor_of_mem {f : Word → Word} {m : WordMap} {d : Word} (hl : ∀ e ∈ m.listed, e.2 = f e.1)
    (hd : ∃ e ∈ m.listed, e.1 = d) : reservedFor m d = f d := by
  unfold reservedFor
  cases h : m.listed.find? fun e => e.1 == d with
  | some e =>
    have he : e.1 = d := by simpa using List.find?_some h
    rw [← he]
    exact hl e (List.mem_of_find?_eq_some h)
  | none =>
    obtain ⟨e, hm, he⟩ := hd
    have := List.find?_eq_none.1 h e hm
    simp [he] at this

/-- Every function from words to words is the value of the parameter FLAGS_RESERVED at some choice of it. -/
theorem reservedFor_complete (f : Word → Word) : ∃ m : WordMap, ∀ d, reservedFor m d = f d := by
  obtain ⟨n, hn⟩ : ∃ n, ∀ d : Word, d.toNat < n := ⟨2 ^ 16, fun d => d.isLt⟩
  refine ⟨{ listed := (List.range n).map fun k => (BitVec.ofNat 16 k, f (BitVec.ofNat 16 k)), other := 0 },
    fun d => reservedFor_of_mem (fun e he => ?_) ?_⟩
  · obtain ⟨k, _, rfl⟩ := List.mem_map.1 he
    rfl
  · exact ⟨_, List.mem_map.2 ⟨d.toNat, List.mem_range.2 (hn d), rfl⟩, by simp⟩

end Sys2Proof.Machine
end

