-- ==== Sys2Proof/Laws/PerInstr.lean ====
section
/-! SUPPORT. Statements made per instruction: the first byte alone determines the length (30_encoding.md rule R60). -/

namespace Sys2Proof.Laws

/-- The first byte of an instruction's encoding selects its length, which is the number of its bytes, one or two. -/
def LengthByFirstByte.Statement (i : Instr) : Prop :=
  ∃ first rest, encode i = first :: rest ∧ instrLength? first = some i.length ∧ i.length = rest.length + 1 ∧
    i.length ≤ 2

theorem LengthByFirstByte.int3 : LengthByFirstByte.Statement .int3 :=
  ⟨_, _, rfl, rfl, rfl, by decide⟩

theorem LengthByFirstByte.intN (n : Byte) : LengthByFirstByte.Statement (.intN n) :=
  ⟨_, _, rfl, rfl, rfl, Nat.le_refl 2⟩

theorem LengthByFirstByte.into : LengthByFirstByte.Statement .into :=
  ⟨_, _, rfl, rfl, rfl, by decide⟩

theorem LengthByFirstByte.iret : LengthByFirstByte.Statement .iret :=
  ⟨_, _, rfl, rfl, rfl, by decide⟩

theorem LengthByFirstByte.cli : LengthByFirstByte.Statement .cli :=
  ⟨_, _, rfl, rfl, rfl, by decide⟩

theorem LengthByFirstByte.sti : LengthByFirstByte.Statement .sti :=
  ⟨_, _, rfl, rfl, rfl, by decide⟩

end Sys2Proof.Laws
end

