-- ==== Sys2Proof/Laws/Step.lean ====
section
/-! SUPPORT. What an instruction, a turn of the processor, a move of the agenda and a step can do, said once; and that
every operation over memory keeps its canonical form (60_exceptions.md rule R101, 00_scope.md rule R9). -/

namespace Sys2Proof.Machine

/-! ### The canonical form of memory -/

theorem reset_memory_wf : Memory.wf State.reset.mem := by decide

theorem writeByte_wf {a : Addr} {v : Byte} {s t : State} (h : writeByte a v s = .next t) (hw : Memory.wf s.mem) :
    Memory.wf t.mem := by
  obtain ⟨_, rfl⟩ := writeByte_eq_next.1 h
  exact memPut_wf a.isLt v hw

theorem writeWord_wf {a : Addr} {v : Word} {s t : State} (h : writeWord a v s = .next t) (hw : Memory.wf s.mem) :
    Memory.wf t.mem := by
  obtain ⟨u, h1, h2⟩ := andThen_eq_next.1 h
  exact writeByte_wf h2 (writeByte_wf h1 hw)

theorem push16_wf {v : Word} {s t : State} (h : push16 v s = .next t) (hw : Memory.wf s.mem) : Memory.wf t.mem := by
  unfold push16 at h
  split at h
  · cases h
  · exact writeWord_wf h hw

theorem interruptSequence_wf {n : Byte} {s t : State} (h : interruptSequence n s = .next t) (hw : Memory.wf s.mem) :
    Memory.wf t.mem := by
  simp only [interruptSequence, andThen_eq_next, Host.Outcome.next.injEq] at h
  obtain ⟨s1, h1, s2, h2, s3, h3, _, _, rfl⟩ := h
  have w1 : Memory.wf s1.mem := push16_wf h1 hw
  have w2 : Memory.wf s2.mem := push16_wf h2 w1
  have w3 : Memory.wf s3.mem := push16_wf h3 w2
  exact w3

/-- Bytes that exist stay the only bytes listed (R30). -/
theorem push16_memoryInv {v : Word} {s t : State} (h : push16 v s = .next t) (hi : MemoryInv s) : MemoryInv t := by
  refine ⟨push16_wf h hi.1, ?_⟩
  obtain ⟨_, w2, w1, rfl⟩ := push16_eq_next.1 h
  intro c hc
  rcases mem_memPut hc with rfl | hc
  · simpa using writableAt_existsAt w1
  rcases mem_memPut hc with rfl | hc
  · simpa using writableAt_existsAt w2
  · exact hi.2 c hc

theorem interruptSequence_memoryInv {n : Byte} {s t : State} (h : interruptSequence n s = .next t)
    (hi : MemoryInv s) : MemoryInv t := by
  simp only [interruptSequence, andThen_eq_next, Host.Outcome.next.injEq] at h
  obtain ⟨s1, h1, s2, h2, s3, h3, _, _, rfl⟩ := h
  have i1 : MemoryInv s1 := push16_memoryInv h1 hi
  have i2 : MemoryInv s2 := push16_memoryInv h2 i1
  have i3 : MemoryInv s3 := push16_memoryInv h3 i2
  exact i3

/-! ### What an instruction can answer -/

/-- Every meaning, by what it does to the state: a sequence after IP has moved on, or one of the four others. -/
theorem exec_cases {i : Instr} {s t : State} (h : exec i s = .next t) :
    (runsSequence i s = true ∧ i ≠ .iret ∧ i ≠ .cli ∧ i ≠ .sti ∧
      ∃ n len, interruptSequence n (advanceIp len s) = .next t) ∨
    (runsSequence i s = false ∧
      ((i = .into ∧ s.flags.OF = false ∧ t = advanceIp 1 s) ∨
       (i = .iret ∧ interruptReturn (advanceIp 1 s) = .next t) ∨
       (i = .cli ∧ t = withFlags (clearIF s.flags) (advanceIp 1 s)) ∨
       (i = .sti ∧ t = withFlags (setIF s.flags) (withShadow (shadowAfterSti s) (advanceIp 1 s))))) := by
  cases i with
  | int3 => exact .inl ⟨rfl, nofun, nofun, nofun, 3, 1, h⟩
  | intN n => exact .inl ⟨rfl, nofun, nofun, nofun, n, 2, h⟩
  | into =>
    simp only [exec, execInto] at h
    split at h
    · next hof => exact .inl ⟨hof, nofun, nofun, nofun, 4, 1, h⟩
    · next hof =>
      cases h
      have hof : s.flags.OF = false := by simpa using hof
      exact .inr ⟨hof, .inl ⟨rfl, hof, rfl⟩⟩
  | iret => exact .inr ⟨rfl, .inr (.inl ⟨rfl, h⟩)⟩
  | cli => cases h; exact .inr ⟨rfl, .inr (.inr (.inl ⟨rfl, rfl⟩))⟩
  | sti => cases h; exact .inr ⟨rfl, .inr (.inr (.inr ⟨rfl, rfl⟩))⟩

/-- No instruction touches the NMI latch, the sampled TF, a pin, an input, a chip or a parameter; only STI touches the
shadow. -/
theorem exec_latches {i : Instr} {s u : State} (h : exec i s = .next u) :
    u.nmiPending = s.nmiPending ∧ u.tfBefore = s.tfBefore ∧ (i ≠ .sti → u.stiShadow = s.stiShadow) ∧
      u.config = s.config ∧ u.intrPin = s.intrPin ∧ u.intaByte = s.intaByte ∧ u.pic = s.pic ∧ u.slaves = s.slaves ∧
      u.resetPin = s.resetPin := by
  rcases exec_cases h with
    ⟨-, -, -, -, n, len, hs⟩ | ⟨-, ⟨rfl, -, rfl⟩ | ⟨rfl, hret⟩ | ⟨rfl, rfl⟩ | ⟨rfl, rfl⟩⟩
  · rw [(interruptSequence_next hs).2.rest]
    exact ⟨rfl, rfl, fun _ => rfl, rfl, rfl, rfl, rfl, rfl, rfl⟩
  · exact ⟨rfl, rfl, fun _ => rfl, rfl, rfl, rfl, rfl, rfl, rfl⟩
  · obtain ⟨_, _, _, _, _, _, _, _, _, rfl⟩ := interruptReturn_eq_next.1 hret
    exact ⟨rfl, rfl, fun _ => rfl, rfl, rfl, rfl, rfl, rfl, rfl⟩
  · exact ⟨rfl, rfl, fun _ => rfl, rfl, rfl, rfl, rfl, rfl, rfl⟩
  · exact ⟨rfl, rfl, fun h => absurd rfl h, rfl, rfl, rfl, rfl, rfl, rfl⟩

/-! ### The fetch -/

/-- The fetch looks at CS, IP, memory and the launch memory only. -/
theorem readByte_withTfBefore (a : Addr) (b : Bool) (s : State) : readByte a (withTfBefore b s) = readByte a s := rfl

theorem fetchBytes_congr {s t : State} (hm : t.mem = s.mem) (hc : t.config = s.config) (hcs : t.cs = s.cs)
    (hip : t.ip = s.ip) (k n : Nat) : fetchBytes k n t = fetchBytes k n s := by
  have ha : ∀ k, fetchAddr k t = fetchAddr k s := fun k => by simp only [fetchAddr, hcs, hip]
  have hr : ∀ a, readByte a t = readByte a s := fun a => readByte_congr a hc (by rw [hm])
  induction n generalizing k with
  | zero => rfl
  | succ n ih => simp only [fetchBytes, ha, hr, ih]

theorem fetch_congr {s t : State} (hm : t.mem = s.mem) (hc : t.config = s.config) (hcs : t.cs = s.cs)
    (hip : t.ip = s.ip) : fetch t = fetch s := by
  have ha : fetchAddr 0 t = fetchAddr 0 s := by simp only [fetchAddr, hcs, hip]
  simp only [fetch, ha, readByte_congr _ hc (congrArg (memGet _) hm), fetchBytes_congr hm hc hcs hip]

@[simp] theorem fetch_withTfBefore (b : Bool) (s : State) : fetch (withTfBefore b s) = fetch s :=
  fetch_congr rfl rfl rfl rfl

@[simp] theorem fetch_withAgenda (l : List Move) (s : State) : fetch (withAgenda l s) = fetch s :=
  fetch_congr rfl rfl rfl rfl

/-! ### A turn of the processor, a move, a step -/

theorem runInstr_eq_next {i : Instr} {s t : State} :
    runInstr i s = .next t ↔ ∃ u, exec i s = .next u ∧ boundary (runsSequence i s) u = .next t :=
  andThen_eq_next

/-- What a turn of the processor can answer (R101). -/
theorem processorStep_eq_next {s t : State} :
    processorStep s = .next t ↔
      (s.resetPin = true ∧ t = resetEvent s) ∨
      (s.resetPin = false ∧ ∃ i, fetch s = .next i ∧ runInstr i (withTfBefore s.flags.TF s) = .next t) := by
  unfold processorStep
  split
  · next h => simp [h, eq_comm]
  · next h => simp [h, andThen_eq_next]

/-- What a turn with an instruction out of scope can answer: reset, or its effect and then the boundary. -/
theorem outsideTurn_eq_next {len : Nat} {internal : Bool} {act : State → Res State} {s t : State} :
    outsideTurn len internal act s = .next t ↔
      (s.resetPin = true ∧ t = resetEvent s) ∨
      (s.resetPin = false ∧ ∃ u, act (advanceIp len (withTfBefore s.flags.TF s)) = .next u ∧
        boundary internal u = .next t) := by
  unfold outsideTurn
  split
  · next h => simp [h, eq_comm]
  · next h => simp [h, andThen_eq_next]

/-! The moves of an instruction out of scope, as turns. -/

theorem takeMove_divideError (len : Nat) (wide : Bool) (s : State) :
    takeMove (.divideError len wide) s =
      outsideTurn len true (fun u => interruptSequence 0 (withDividendLost wide u)) s := rfl

theorem takeMove_portWrite (len : Nat) (port : Word) (d : Byte) (s : State) :
    takeMove (.portWrite len port d) s = outsideTurn len false (portWrite port d) s := rfl

theorem takeMove_portRead (len : Nat) (port : Word) (s : State) :
    takeMove (.portRead len port) s =
      outsideTurn len false (fun u => andThen (portRead port u) fun v => .next (withAl v.ioData v)) s := rfl

/-- What a step can answer: the processor's turn, or the move at the head of the agenda (R9). -/
theorem step_eq_next {s t : State} :
    step s = .next t ↔
      (s.agenda = [] ∧ processorStep s = .next t) ∨
      ∃ m rest, s.agenda = m :: rest ∧ takeMove m (withAgenda rest s) = .next t := by
  unfold step machineStep
  split
  · next h => simp [h]
  · next m rest h => simp [h]

/-- What driving the RESET pin does: on its release the reset event, else the level alone (R170). -/
theorem driveReset_eq (v : Bool) (s : State) :
    driveReset v s = { s with resetPin := v } ∨
      (s.resetPin = true ∧ v = false ∧ driveReset v s = resetEvent { s with resetPin := v }) := by
  unfold driveReset
  cases s.resetPin <;> cases v <;> simp

theorem runsSequence_withTfBefore (i : Instr) (b : Bool) (s : State) :
    runsSequence i (withTfBefore b s) = runsSequence i s := by cases i <;> rfl

theorem runsSequence_withAgenda (i : Instr) (l : List Move) (s : State) :
    runsSequence i (withAgenda l s) = runsSequence i s := by cases i <;> rfl

theorem processorStep_run {s : State} {i : Instr} (hr : s.resetPin = false) (hf : fetch s = .next i) :
    processorStep s = runInstr i (withTfBefore s.flags.TF s) := by
  unfold processorStep
  rw [if_neg (by simp [hr]), fetch_withTfBefore, hf, andThen_next]

theorem step_idle {s : State} (ha : s.agenda = []) : step s = processorStep s := by
  unfold step machineStep
  rw [ha]

theorem step_move {s : State} {m : Move} {rest : List Move} (ha : s.agenda = m :: rest) :
    step s = takeMove m (withAgenda rest s) := by
  unfold step machineStep
  rw [ha]

/-! ### A relation carried through a step -/

/-- The parts the moves are made of, beside those of a boundary. A relation that holds across each of them holds across
every step. -/
structure CarriedByStep (R : State → State → Prop) : Prop extends CarriedByBoundary R where
  agenda : ∀ l s, R s (withAgenda l s)
  tfBefore : ∀ s, R s (withTfBefore s.flags.TF s)
  advance : ∀ len s, R s (advanceIp len s)
  exec : ∀ {i s t}, exec i s = .next t → R s t
  dividend : ∀ w s, R s (withDividendLost w s)
  al : ∀ v s, R s (withAl v s)
  reset : ∀ s, s.resetPin = true → R s (resetEvent s)
  portWrite : ∀ {port d s t}, portWrite port d s = .next t → R s t
  portRead : ∀ {port s t}, portRead port s = .next t → R s t
  driveNmi : ∀ v s, R s (driveNmi v s)
  driveIntr : ∀ v s, R s (driveIntr v s)
  driveInta : ∀ n s, R s (driveInta n s)
  driveIr : ∀ id n v s, R s (driveIr id n v s)
  resetPin : ∀ v s, R s { s with resetPin := v }

variable {R : State → State → Prop}

theorem CarriedByStep.runInstr (c : CarriedByStep R) {i : Instr} {s t : State} (h : runInstr i s = .next t) : R s t := by
  obtain ⟨u, hu, ht⟩ := runInstr_eq_next.1 h
  exact c.trans (c.exec hu) (c.boundary ht)

theorem CarriedByStep.processorStep (c : CarriedByStep R) {s t : State} (h : processorStep s = .next t) : R s t := by
  rcases processorStep_eq_next.1 h with ⟨hr, rfl⟩ | ⟨_, i, _, ht⟩
  · exact c.reset s hr
  · exact c.trans (c.tfBefore s) (c.runInstr ht)

theorem CarriedByStep.outsideTurn (c : CarriedByStep R) {len : Nat} {internal : Bool} {act : State → Res State}
    {s t : State} (ha : ∀ {s t}, act s = .next t → R s t) (h : outsideTurn len internal act s = .next t) : R s t := by
  rcases outsideTurn_eq_next.1 h with ⟨hr, rfl⟩ | ⟨_, u, hu, ht⟩
  · exact c.reset s hr
  · exact c.trans (c.tfBefore s) (c.trans (c.advance len _) (c.trans (ha hu) (c.boundary ht)))

theorem CarriedByStep.driveReset (c : CarriedByStep R) (v : Bool) (s : State) : R s (driveReset v s) := by
  rcases driveReset_eq v s with h | ⟨hr, rfl, h⟩ <;> rw [h]
  · exact c.resetPin v s
  · exact c.trans (c.reset s hr) (c.resetPin false (resetEvent s))

theorem CarriedByStep.takeMove (c : CarriedByStep R) {m : Move} {s t : State} (h : takeMove m s = .next t) : R s t := by
  cases m with
  | processor => exact c.processorStep h
  | divideError len wide => exact c.outsideTurn (fun h => c.trans (c.dividend wide _) (c.seq h)) h
  | portWrite len port d => exact c.outsideTurn c.portWrite h
  | portRead len port =>
    rw [takeMove_portRead] at h
    refine c.outsideTurn (fun h => ?_) h
    obtain ⟨u, hu, h⟩ := andThen_eq_next.1 h
    cases h
    exact c.trans (c.portRead hu) (c.al _ _)
  | nmi v => cases h; exact c.driveNmi v s
  | intr v => cases h; exact c.driveIntr v s
  | inta n => cases h; exact c.driveInta n s
  | ir id n v => cases h; exact c.driveIr id n v s
  | reset v => cases h; exact c.driveReset v s

theorem CarriedByStep.step (c : CarriedByStep R) {s t : State} (h : step s = .next t) : R s t := by
  rcases step_eq_next.1 h with ⟨_, ht⟩ | ⟨m, rest, _, ht⟩
  · exact c.processorStep ht
  · exact c.trans (c.agenda rest s) (c.takeMove ht)

end Sys2Proof.Machine
end

