-- ==== Sys2Proof/Tests/Slice0.lean ====
section
/-! SUPPORT. Tests: decoding, refusals, one step of each instruction, the boundary and the 8259A, from the vectors of
95_test_vectors.md (named beside each test), and for each statement that has hypotheses a state that meets them. -/

namespace Sys2Proof.Machine.Tests

/- One theorem after the other: many kernel evaluations at once would each take a thread. -/
set_option Elab.async false

open Sys2Proof Sys2Proof.Machine

/-! ### Helpers -/

/-- The parameters after reset, but for reserved bits of a pushed image that the kernel can compute. -/
def fixedReserved : Config :=
  { configAtReset with flagsReserved := some { listed := [], other := 0xF002 } }

/-- A launch state of the vectors: CS:IP, SS = 2000H, SP, the nine flags, and the bytes given. The reserved bits of a
pushed image are fixed, so that the kernel can compute it; the tests compare under the mask 0FD5H. -/
def launch (cs ip sp f : Word) (mem : List Host.Cell) : State :=
  { State.reset with
    cs := cs, ip := ip, ss := 0x2000, regs := { Regs.reset with sp := sp }, flags := flagsLoad f, mem := mem
    config := fixedReserved }

/-- What a vector's End line gives: CS, IP, SP and F. -/
def ends (o : Res State) : Option (Word × Word × Word × Word) :=
  match o with
  | .next s => some (s.cs, s.ip, s.regs.sp, definedImage s.flags)
  | .fault _ => none
  | .refused _ => none

/-- The word at a physical address after a step, under the mask 0FD5H if it is an image. -/
def wordAfter (a : Addr) (mask : Word) (o : Res State) : Option Word :=
  match o with
  | .next s =>
    match readWord a s with
    | .next w => some (w &&& mask)
    | .fault _ => none
    | .refused _ => none
  | .fault _ => none
  | .refused _ => none

/-- The three words of the frame at a physical address: IP, CS, and FLAGS under the mask 0FD5H. -/
def frameAfter (a : Addr) (o : Res State) : List (Option Word) :=
  [wordAfter a 0xFFFF o, wordAfter (a + 2) 0xFFFF o, wordAfter (a + 4) 0x0FD5 o]

/-- The refusal an operation ends in. -/
def refusal {α : Type} (o : Res α) : Option Refusal :=
  match o with
  | .next _ => none
  | .fault _ => none
  | .refused r => some r

/-- The fault an operation ends in. -/
def faultOf {α : Type} (o : Res α) : Option Fault :=
  match o with
  | .next _ => none
  | .fault r => some r
  | .refused _ => none

/-! ### Decoding (V01 to V09) -/

theorem test_decode_int3 : decodeTableWord 8 0xCC = some .int3 := by decide

/-- V02: `CD 21`, the immediate in bits 15 to 8 of the table's numbering. -/
theorem test_decode_intN : decodeTableWord 16 0x21CD = some (.intN 0x21) := by decide

/-- V04: the two-byte form of type 3 is not the one-byte instruction. -/
theorem test_decode_intN_3 : decodeTableWord 16 0x03CD = some (.intN 3) ∧ decodeTableWord 16 0xFFCD = some (.intN 255) := by
  decide

theorem test_decode_others :
    decodeTableWord 8 0xCE = some .into ∧ decodeTableWord 8 0xCF = some .iret ∧ decodeTableWord 8 0xFA = some .cli ∧
      decodeTableWord 8 0xFB = some .sti := by decide

/-- V06 and V07: NOP, HLT, PUSHF, OUT, a LOCK prefix and a segment prefix are refused. -/
theorem test_decode_refuses :
    [0x90, 0xF4, 0x9C, 0x20E6, 0xFAF0, 0xCF2E].map (decodeTableWord 16) = [none, none, none, none, none, none] := by decide

/-- V06: the refusal names the byte and its physical address. -/
theorem test_fetch_refuses :
    refusal (step (launch 0x1000 0x100 0x100 0 [(0x10100, 0x90)])) = some (.opcodeOutOfScope 0x90 0x10100) := by
  decide +kernel

/-- V08: the immediate is fetched at offset 0000H of the same segment. -/
theorem test_fetch_wraps :
    (fetch (launch 0x1000 0xFFFF 0x100 0 [(0x10000, 0x21), (0x1FFFF, 0xCD)]) matches .next (.intN 0x21)) = true := by
  decide +kernel

/-- V09: the byte after CDH is absent: no step. -/
theorem test_fetch_absent :
    faultOf (fetch { launch 0x1000 0x100 0x100 0 [(0x10100, 0xCD)] with
      config := { configAtReset with memoryMap := [{ base := 0x10100, size := 1, writable := false }] } }) =
      some (.absentByte 0x10101) := by decide +kernel

/-! ### Well-formedness -/

/-- An instruction cannot be ill formed; the launch data can, in each of four ways. -/
theorem test_wellFormed_instr : (Instr.intN 255).wellFormed = true := by decide

theorem test_wellFormed_region_empty : Region.wellFormed { base := 0, size := 0, writable := true } = false := by decide

theorem test_wellFormed_region_outside :
    Region.wellFormed { base := 1048575, size := 2, writable := true } = false ∧
      Region.wellFormed { base := 1048575, size := 1, writable := true } = true := by decide

theorem test_wellFormed_ports :
    Config.wellFormed { configAtReset with picA0Step := 0 } = false ∧ Config.wellFormed configAtReset = true := by decide

/-- `PIC_COUNT` is 1 to 9. -/
theorem test_wellFormed_picCount :
    [0, 1, 9, 10].map (fun n => Config.wellFormed { configAtReset with picCount := n }) = [false, true, true, false] := by
  decide

/-! ### One step of each instruction -/

/-- The vectors of the conventions: types 0 to 4, 8, 21H, 40H. -/
def vectors : List Host.Cell :=
  [(0x00, 0), (0x01, 0), (0x02, 0), (0x03, 0x60), (0x04, 0), (0x05, 0), (0x06, 0), (0x07, 0x40)] ++
  [(0x08, 0), (0x09, 0), (0x0A, 0), (0x0B, 0x50), (0x0C, 0x10), (0x0D, 0), (0x0E, 0), (0x0F, 0x30)] ++
  [(0x10, 0), (0x11, 5), (0x12, 0), (0x13, 0), (0x20, 0), (0x21, 0), (0x22, 0), (0x23, 0x30)] ++
  [(0x84, 0x10), (0x85, 0), (0x86, 0), (0x87, 0x30), (0x100, 0), (0x101, 0), (0x102, 0), (0x103, 0x30)]

/-- V10. -/
theorem test_intN :
    ends (step (launch 0x1000 0x100 0x100 0x200 (vectors ++ [(0x10100, 0xCD), (0x10101, 0x21)]))) =
        some (0x3000, 0x0010, 0x00FA, 0) ∧
      frameAfter 0x200FA (step (launch 0x1000 0x100 0x100 0x200 (vectors ++ [(0x10100, 0xCD), (0x10101, 0x21)]))) =
        [some 0x0102, some 0x1000, some 0x0200] := by decide +kernel

/-- V17: the opcode byte at offset FFFFH, the return offset wrapped; with the other flags of V11. -/
theorem test_intN_wraps :
    ends (step (launch 0x1000 0xFFFF 0x100 0x841 (vectors ++ [(0x10000, 0x21), (0x1FFFF, 0xCD)]))) =
        some (0x3000, 0x0010, 0x00FA, 0x841) ∧
      frameAfter 0x200FA (step (launch 0x1000 0xFFFF 0x100 0x841 (vectors ++ [(0x10000, 0x21), (0x1FFFF, 0xCD)]))) =
        [some 1, some 0x1000, some 0x841] := by decide +kernel

/-- R28: FLAGS_RESERVED is a function of the defined flags: FFFFH at 0200H, 0 elsewhere; all 16 bits compared. -/
theorem test_flagsReserved :
    [0x200, 0x201].map (fun f => wordAfter 0x200FE 0xFFFF (exec (.intN 0x21) { launch 0x1000 0x100 0x100 f vectors with
      config := { configAtReset with flagsReserved := some { listed := [(0x200, 0xFFFF)], other := 0 } } })) =
      [some 0xF22A, some 0x0201] := by decide +kernel

/-- V12. -/
theorem test_int3 :
    ends (step (launch 0x1000 0x100 0x100 0x200 (vectors ++ [(0x10100, 0xCC)]))) = some (0x3000, 0x0010, 0x00FA, 0) ∧
      frameAfter 0x200FA (step (launch 0x1000 0x100 0x100 0x200 (vectors ++ [(0x10100, 0xCC)]))) =
        [some 0x0101, some 0x1000, some 0x0200] := by decide +kernel

/-- V13. -/
theorem test_into_taken :
    ends (step (launch 0x1000 0x200 0x80 0xA00 (vectors ++ [(0x10200, 0xCE)]))) = some (0, 0x0500, 0x007A, 0x800) ∧
      frameAfter 0x2007A (step (launch 0x1000 0x200 0x80 0xA00 (vectors ++ [(0x10200, 0xCE)]))) =
        [some 0x0201, some 0x1000, some 0x0A00] := by decide +kernel

/-- V14: neither the vector nor the stack need exist. -/
theorem test_into_notTaken :
    ends (step (launch 0x1000 0x200 0x80 0x200 [(0x10200, 0xCE)])) = some (0x1000, 0x0201, 0x0080, 0x200) := by
  decide +kernel

/-- The frame of V20. -/
def frame (ip0 ip1 cs0 cs1 f0 f1 : Byte) : List Host.Cell :=
  [(0x200FA, ip0), (0x200FB, ip1), (0x200FC, cs0), (0x200FD, cs1), (0x200FE, f0), (0x200FF, f1)]

/-- V20. -/
theorem test_iret :
    ends (step (launch 0x3000 0x20 0xFA 0 (frame 2 1 0 0x10 0 2 ++ [(0x30020, 0xCF)]))) =
      some (0x1000, 0x0102, 0x0100, 0x0200) := by decide +kernel

/-- V21: all nine flags are loaded, and the reserved bits ignored. -/
theorem test_iret_flags :
    ends (step (launch 0x3000 0x20 0xFA 0 (frame 2 1 0 0x10 0xFF 0xFF ++ [(0x30020, 0xCF)]))) =
        some (0x1000, 0x0102, 0x0100, 0x0FD5) ∧
      ends (step (launch 0x3000 0x20 0xFA 0 (frame 2 1 0 0x10 0x2A 0xF0 ++ [(0x30020, 0xCF)]))) =
        some (0x1000, 0x0102, 0x0100, 0) := by decide +kernel

/-- V30. -/
theorem test_cli :
    ends (step (launch 0x1000 0 0x100 0x200 [(0x10000, 0xFA)])) = some (0x1000, 1, 0x0100, 0) := by decide +kernel

/-- V37: CLI takes effect at its own boundary, INTR being high. -/
theorem test_cli_boundary :
    ends (step { launch 0x1000 0 0x100 0x200 [(0x10000, 0xFA)] with intrPin := true, intaByte := 0x40 }) =
      some (0x1000, 1, 0x0100, 0) := by decide +kernel

/-- V32, step 1: the shadow keeps a high INTR out. -/
theorem test_sti_shadow :
    ends (step { launch 0x1000 1 0x100 0 (vectors ++ [(0x10001, 0xFB)]) with intrPin := true, intaByte := 0x40 }) =
      some (0x1000, 2, 0x0100, 0x200) := by decide +kernel

/-- V35: with IF already 1 there is no shadow. -/
theorem test_sti_noShadow :
    ends (step { launch 0x1000 1 0x100 0x200 (vectors ++ [(0x10001, 0xFB)]) with intrPin := true, intaByte := 0x40 }) =
        some (0x3000, 0, 0x00FA, 0) ∧
      frameAfter 0x200FA
          (step { launch 0x1000 1 0x100 0x200 (vectors ++ [(0x10001, 0xFB)]) with intrPin := true, intaByte := 0x40 }) =
        [some 2, some 0x1000, some 0x200] := by decide +kernel

/-! ### The boundary -/

/-- V36: the shadow does not delay NMI. -/
theorem test_nmi_inShadow :
    ends (step { launch 0x1000 1 0x100 0 (vectors ++ [(0x10001, 0xFB)]) with nmiPending := true, intrPin := true }) =
      some (0x5000, 0, 0x00FA, 0) := by decide +kernel

/-- V41, step 1: NMI before INTR. -/
theorem test_nmi_beforeIntr :
    ends (step { launch 0x1000 0x200 0x100 0x200 (vectors ++ [(0x10200, 0xCE)]) with
      nmiPending := true, intrPin := true, intaByte := 0x40 }) = some (0x5000, 0, 0x00FA, 0) := by decide +kernel

/-- V46: three sequences at one boundary; the last frame. -/
theorem test_threeSequences :
    ends (step { launch 0x1000 0x100 0x100 0x300 (vectors ++ [(0x10100, 0xCD), (0x10101, 0x21)]) with
        nmiPending := true }) = some (0x4000, 0, 0x00EE, 0) ∧
      frameAfter 0x200EE (step { launch 0x1000 0x100 0x100 0x300 (vectors ++ [(0x10100, 0xCD), (0x10101, 0x21)]) with
        nmiPending := true }) = [some 0, some 0x5000, some 0] := by decide +kernel

/-- V18: INT 2 with an NMI latched runs a second sequence of type 2. -/
theorem test_int2_nmi :
    ends (step { launch 0x1000 0x100 0x100 0x200 (vectors ++ [(0x10100, 0xCD), (0x10101, 2)]) with
        nmiPending := true }) = some (0x5000, 0, 0x00F4, 0) ∧
      frameAfter 0x200F4 (step { launch 0x1000 0x100 0x100 0x200 (vectors ++ [(0x10100, 0xCD), (0x10101, 2)]) with
        nmiPending := true }) = [some 0, some 0x5000, some 0] := by decide +kernel

/-- V44: NMI, then single step. -/
theorem test_trapAfterNmi :
    ends (step { launch 0x1000 0x200 0x100 0x100 (vectors ++ [(0x10200, 0xCE)]) with nmiPending := true }) =
        some (0x4000, 0, 0x00F4, 0) ∧
      frameAfter 0x200F4 (step { launch 0x1000 0x200 0x100 0x100 (vectors ++ [(0x10200, 0xCE)]) with
        nmiPending := true }) = [some 0, some 0x5000, some 0] := by decide +kernel

/-- V45: INTR, then single step. -/
theorem test_trapAfterIntr :
    ends (step { launch 0x1000 0x200 0x100 0x300 (vectors ++ [(0x10200, 0xCE)]) with
        intrPin := true, intaByte := 0x40 }) = some (0x4000, 0, 0x00F4, 0) ∧
      frameAfter 0x200F4 (step { launch 0x1000 0x200 0x100 0x300 (vectors ++ [(0x10200, 0xCE)]) with
        intrPin := true, intaByte := 0x40 }) = [some 0, some 0x3000, some 0] := by decide +kernel

/-- V47, step 1, and V48: the trap uses TF from before the IRET. -/
theorem test_trapOfIret :
    ends (step (launch 0x4000 0 0xFA 0 (frame 0 2 0 0x10 0 1 ++ [(0x40000, 0xCF)]))) =
        some (0x1000, 0x0200, 0x0100, 0x0100) ∧
      ends (step (launch 0x4000 0 0xFA 0x100 (vectors ++ frame 2 1 0 0x10 0 0 ++ [(0x40000, 0xCF)]))) =
        some (0x4000, 0, 0x00FA, 0) := by decide +kernel

/-- V49: INTR with IF = 0 is ignored. -/
theorem test_intr_masked :
    ends (step { launch 0x1000 0x200 0x100 0 [(0x10200, 0xCE)] with intrPin := true }) =
      some (0x1000, 0x0201, 0x0100, 0) := by decide +kernel

/-- The divide error of a two-byte DIV at 1000H:0100H: type 0, the following instruction stacked (R95); of a byte
division DX keeps its value (R59). -/
theorem test_divideError :
    ends (step { launch 0x1000 0x100 0x100 0x200 vectors with agenda := [.divideError 2 true] }) =
        some (0x6000, 0, 0x00FA, 0) ∧
      frameAfter 0x200FA (step { launch 0x1000 0x100 0x100 0x200 vectors with agenda := [.divideError 2 false] }) =
        [some 0x0102, some 0x1000, some 0x0200] := by decide +kernel

/-! ### Stack and address corners -/

/-- V50: SP wraps inside a frame. -/
theorem test_spWraps :
    ends (step (launch 0x1000 0x100 4 0x200 (vectors ++ [(0x10100, 0xCD), (0x10101, 0x21)]))) =
        some (0x3000, 0x0010, 0xFFFE, 0) ∧
      wordAfter 0x2FFFE 0xFFFF (step (launch 0x1000 0x100 4 0x200 (vectors ++ [(0x10100, 0xCD), (0x10101, 0x21)]))) =
        some 0x0102 := by decide +kernel

/-- V51: the refusals of a word at offset FFFFH. -/
theorem test_offsetFFFF :
    [1, 3, 5].map (fun sp => refusal (exec (.intN 0x21) (launch 0x1000 0x100 sp 0 vectors))) =
        [some .wordPushAtFFFF, some .wordPushAtFFFF, some .wordPushAtFFFF] ∧
      [0xFFFF, 0xFFFD, 0xFFFB].map (fun sp => refusal (exec .iret (launch 0x1000 0x100 sp 0
          [(0x2FFFB, 0), (0x2FFFC, 0), (0x2FFFD, 0), (0x2FFFE, 0)]))) =
        [some .wordPopAtFFFF, some .wordPopAtFFFF, some .wordPopAtFFFF] := by decide +kernel

/-- V53: a stack that overlaps the vector table; INT 0 returns to itself through its own frame. -/
theorem test_stackOverVectors :
    ends (step { launch 0x1000 0x100 0x16 0x200 [(0x10100, 0xCD), (0x10101, 0)] with ss := 0xFFFF }) =
      some (0x1000, 0x0102, 0x0010, 0) := by decide +kernel

/-- V54: a vector that was never given a value faults. -/
theorem test_unwrittenVector :
    faultOf (step (launch 0x1000 0x100 0x100 0x200 [(0x10100, 0xCD), (0x10101, 0x21)])) = some (.unwrittenByte 0x84) := by
  decide +kernel

/-! ### Reset -/

/-- V70: a turn with RESET asserted, from a state that no run reaches. -/
theorem test_reset :
    ends (step { launch 0x1000 0x100 0x100 0xFD5 vectors with resetPin := true, nmiPending := true }) =
      some (0xFFFF, 0, 0, 0) := by decide +kernel

/-- R170: RESET raised and released with no turn between; the NMI edge latched meanwhile does not survive. -/
theorem test_reset_release :
    (match Host.Core.run core 3 { launch 0x1000 0x100 0x100 0xFD5 vectors with
        agenda := [.reset true, .nmi true, .reset false] } with
      | .next s => some (ends (.next s), s.nmiPending, s.resetPin)
      | _ => none) = some (some (0xFFFF, 0, 0, 0), false, false) := by decide +kernel

/-- R181: the run has not ended while something comes before the next turn; at the turn itself it has, if RESET is not
asserted. -/
theorem test_exit :
    [([.reset true, .processor], false), ([.nmi true], false), ([.processor], false), ([], false), ([], true)].map
      (fun a => ended { launch 0x1000 0x100 0x100 0 [] with
        agenda := a.1, resetPin := a.2, config := { configAtReset with exit := some (0x1000, 0x100) } }) =
      [false, false, true, true, false] := by decide +kernel

/-- V70: the first fetch is at FFFF0H; with FAH there, IP = 0001H. -/
theorem test_firstFetch : ends (step (State.reset.withFetchWord 8 0xFA)) = some (0xFFFF, 1, 0, 0) := by decide +kernel

/-- From reset with nothing placed the first byte has no value. -/
theorem test_firstFetch_empty : faultOf (step State.reset) = some (.unwrittenByte 0xFFFF0) := by decide +kernel

/-! ### The 8259A -/

/-- Writes to one chip, one after the other, within the admitted subset of R144. -/
def writes : List (Bool × Byte) → Pic → Res Pic
  | [], p => .next p
  | w :: rest, p => andThen (chipWrite configAtReset w.1 w.2 p) (writes rest)

/-- The chip an operation answers. -/
def chipAfter (o : Res Pic) : Pic :=
  match o with
  | .next p => p
  | .fault _ => Pic.powerOn true
  | .refused _ => Pic.powerOn true

/-- The chip of V60. -/
def v60 : Pic := chipAfter (writes [(false, 0x13), (true, 0x08), (true, 0x01), (true, 0xFE)] (Pic.powerOn true))

/-- IRR, ISR, IMR, INT and the lowest level. -/
def seen (p : Pic) : Byte × Byte × Byte × Bool × Level := (irr p, p.isr, p.imr, intOut p, p.lowest)

/-- V60. -/
theorem test_pic_initialization : v60.init = .ready ∧ v60.t = 1 ∧ seen v60 = (0, 0, 0xFE, false, 7) := by decide +kernel

/-- V61: an edge requests once, until the input has gone low and high again. -/
theorem test_pic_edge :
    seen (irChange 0 true v60) = (1, 0, 0xFE, true, 7) ∧
      winner (irChange 0 true v60) = some 0 ∧ typeOf v60 0 = 0x08 ∧
      seen (serve 0 (irChange 0 true v60)) = (0, 1, 0xFE, false, 7) ∧
      seen (ocw2 0x20 (serve 0 (irChange 0 true v60))) = (0, 0, 0xFE, false, 7) ∧
      seen (irChange 0 true (irChange 0 false (ocw2 0x20 (serve 0 (irChange 0 true v60))))) = (1, 0, 0xFE, true, 7) := by
  decide +kernel

/-- V62: masking and holding back. -/
theorem test_pic_mask :
    seen (irChange 1 true (serve 0 (irChange 0 true v60))) = (2, 1, 0xFE, false, 7) ∧
      seen (ocw1 0xFC (irChange 1 true (serve 0 (irChange 0 true v60)))) = (2, 1, 0xFC, false, 7) ∧
      winner (ocw2 0x20 (ocw1 0xFC (irChange 1 true (serve 0 (irChange 0 true v60))))) = some 1 := by decide +kernel

/-- V63: ICW2 = 0FH and 08H give the same types, F8H gives F8H to FFH. -/
theorem test_pic_types :
    levels.map (typeOf (icw2 0x0F v60)) = levels.map (typeOf (icw2 0x08 v60)) ∧
      typeOf (icw2 0x08 v60) 3 = 0x0B ∧ typeOf (icw2 0xF8 v60) 7 = 0xFF ∧ vectorAddr 0x0B = 0x2C := by decide +kernel

/-- V64: fully nested priority and the end of interrupt. -/
theorem test_pic_nesting :
    winner { v60 with imr := 0, ir := 0x28, edge := 0x28 } = some 3 ∧
      intOut { v60 with imr := 0, isr := 8, ir := 2, edge := 2 } = true ∧
      intOut { v60 with imr := 0, isr := 8, ir := 0x28, edge := 0x28 } = false ∧
      (ocw2 0x20 { v60 with isr := 0x0A }).isr = 8 ∧ (ocw2 0x20 { v60 with isr := 8 }).isr = 0 ∧
      (ocw2 0x63 { v60 with isr := 0x0A }).isr = 2 ∧ ocw2 0x20 v60 = v60 := by decide +kernel

/-- V65: rotation. -/
theorem test_pic_rotation :
    seen (ocw2 0xA0 { v60 with isr := 8 }) = (0, 0, 0xFE, false, 3) ∧
      [4, 5, 6, 7, 0, 1, 2, 3].map (rank (ocw2 0xA0 { v60 with isr := 8 })) = levels ∧
      winner (ocw2 0xA0 { v60 with isr := 8, imr := 0, ir := 0x21, edge := 0x21 }) = some 5 ∧
      (ocw2 0xC5 v60).lowest = 5 ∧ seen (ocw2 0xE2 { v60 with isr := 4 }) = (0, 0, 0xFE, false, 2) ∧
      ocw2 0x40 v60 = v60 := by decide +kernel

/-- V66: a level-triggered input requests for as long as it is high. -/
theorem test_pic_level :
    seen (serve 0 (irChange 0 true { v60 with ltim := true })) = (1, 1, 0xFE, false, 7) ∧
      seen (ocw2 0x20 (serve 0 (irChange 0 true { v60 with ltim := true }))) = (1, 0, 0xFE, true, 7) := by decide +kernel

/-- V67: automatic end of interrupt, with rotation. -/
theorem test_pic_aeoi :
    (serve 0 (irChange 0 true { v60 with aeoi := true })).isr = 0 ∧
      seen (serve 2 (irChange 2 true (ocw2 0x80 { v60 with aeoi := true, imr := 0 }))) = (0, 0, 0, false, 2) ∧
      typeOf v60 2 = 0x0A := by decide +kernel

/-- R138: AEOI is not in force in a slave of a cascade. -/
theorem test_pic_aeoi_slave :
    (serve 0 { v60 with aeoi := true, sngl := false, sp := false }).isr = 1 ∧
      (serve 0 { v60 with aeoi := true, sngl := false, sp := true }).isr = 0 := by decide +kernel

/-- The byte a read of a chip gives. -/
def readAfter (o : Res (Byte × Pic)) : Option Byte :=
  match o with
  | .next r => some r.1
  | .fault _ => none
  | .refused _ => none

/-- V68: register reads. -/
theorem test_pic_reads :
    readAfter (chipRead 0 false (ocw3 0x0B { v60 with isr := 5 })) = some 5 ∧
      readAfter (chipRead 0 false (ocw3 0x0A (ocw3 0x0B { v60 with isr := 5 }))) = some 0 ∧
      readAfter (chipRead 0 false (ocw3 0x08 (ocw3 0x0B { v60 with isr := 5 }))) = some 5 ∧
      readAfter (chipRead 0 true v60) = some 0xFE := by decide +kernel

/-- V69: the refusals; and OCW3 = 48H is admitted. -/
theorem test_pic_refusals :
    [(false, 0x20), (true, 0xFE)].map (fun w => refusal (chipWrite configAtReset w.1 w.2 (Pic.powerOn true))) =
        [some .picWriteBeforeIcw1, some .picWriteBeforeIcw1] ∧
      [0x11, 0x12, 0x88, 0x0C, 0x68, 0x48].map (fun d => refusal (chipWrite configAtReset false d v60)) =
        [some .picCascadeNotAdmitted, some .picMcsNotAdmitted, some .picOcw3Reserved, some .picPollNotAdmitted,
          some .picSpecialMaskNotAdmitted, none] ∧
      refusal (chipWrite configAtReset true 0 { v60 with init := .wantICW4 }) = some .picMcsNotAdmitted ∧
      refusal (chipWrite configAtReset false 0x20 { v60 with init := .wantICW2 }) = some .picCommandDuringInit ∧
      refusal (chipRead 0 true (Pic.powerOn true)) = some .picReadBeforeIcw1 := by decide +kernel

/-- R126 and R127: ICW1 = 11H, ICW3 = 0AH, then ICW4. Whether the chip is a slave, whose ICW3 has D7 to D3 clear, is said by
BUF and MS (09H a slave, 0DH a master), else by the strap. -/
theorem test_pic_icw3_role :
    [(false, 0x0D), (true, 0x01), (true, 0x09), (false, 0x01)].map (fun a =>
      refusal (andThen (chipWrite { configAtReset with picFull := true } true 0x0A
          { Pic.powerOn a.1 with ic4 := true, init := .wantICW3 })
        (chipWrite { configAtReset with picFull := true } true a.2))) =
      [none, none, some .picIcw3Reserved, some .picIcw3Reserved] ∧
    [true, false].map (fun sp => refusal (chipWrite configAtReset true 0x0A
      { Pic.powerOn sp with init := .wantICW3 })) = [none, some .picIcw3Reserved] := by decide +kernel

/-- P5, step 2 of run A: one request through the 8259A; the boundary after a no-operation takes type 08H. -/
theorem test_pic_endToEnd :
    ends (step { launch 0x1000 1 0x100 0x200 (vectors ++ [(0x10001, 0xCE)]) with
        pic := irChange 0 true { v60 with aeoi := true }
        config := { fixedReserved with picPresent := true } }) =
      some (0x3000, 0, 0x00FA, 0) := by decide +kernel

/-- A handler of level 0, level triggered and still requesting, about to write the EOI in an OUT of two bytes. -/
def beforeEoi (f : Word) : State :=
  { launch 0x1000 0x100 0x100 f vectors with
    pic := serve 0 (irChange 0 true { v60 with ltim := true }), agenda := [.portWrite 2 0x20 0x20]
    config := { fixedReserved with picPresent := true, picBase := 0x20 } }

/-- R177: with IF = 1 the EOI lets the same level interrupt before the IRET, with IF = 0 it does not. -/
theorem test_pic_eoi_boundary :
    ends (step (beforeEoi 0x200)) = some (0x3000, 0, 0x00FA, 0) ∧
      frameAfter 0x200FA (step (beforeEoi 0x200)) = [some 0x0102, some 0x1000, some 0x0200] ∧
      ends (step (beforeEoi 0)) = some (0x1000, 0x0102, 0x0100, 0) := by decide +kernel

/-- R31, R133: an IN of two bytes from PIC_BASE + 1 puts IMR into AL. -/
theorem test_pic_portRead :
    (match step { beforeEoi 0 with
        agenda := [.portRead 2 0x21], regs := { Regs.reset with ax := 0x1234, sp := 0x100 } } with
      | .next s => some (s.regs.ax, s.ip)
      | _ => none) = some (0x12FE, 0x0102) := by decide +kernel

/-! ### Witnesses: for each statement with hypotheses, a state that meets them -/

/-- The value an operation answers. -/
def value? {α : Type} (o : Res α) : Option α :=
  match o with
  | .next a => some a
  | .fault _ => none
  | .refused _ => none

theorem eq_next {α : Type} {o : Res α} {a : α} (h : value? o = some a) : o = .next a := by
  cases o with
  | next b => cases h; rfl
  | fault r => cases h
  | refused r => cases h

theorem next_of_isSome {α : Type} {o : Res α} (h : (value? o).isSome = true) : ∃ a, o = .next a := by
  obtain ⟨a, ha⟩ := Option.isSome_iff_exists.1 h
  exact ⟨a, eq_next ha⟩

/-- The state an operation answers. -/
def after (o : Res State) : State :=
  (value? o).getD State.reset

theorem next_after {o : Res State} (h : (value? o).isSome = true) : o = .next (after o) := by
  obtain ⟨a, rfl⟩ := next_of_isSome h
  rfl

/-- A state with the vectors, a stack at 2000H:SP, flags, and bytes of its own above the table. -/
def ready (sp f : Word) (bytes : List Host.Cell) : State :=
  launch 0x1000 0x100 sp f (vectors ++ bytes)

theorem test_meets_FetchFollowsTheOpcodeMap :
    readByte (phys 0x1000 0x100) (ready 0x100 0 [(0x10100, 0xCC)]) = .next 0xCC ∧
      readByte (phys 0x1000 0x100) (ready 0x100 0 [(0x10100, 0xCD), (0x10101, 0xFF)]) = .next 0xCD ∧
      readByte (phys 0x1000 (0x100 + 1)) (ready 0x100 0 [(0x10100, 0xCD), (0x10101, 0xFF)]) = .next 0xFF ∧
      readByte (phys 0x1000 0x100) (ready 0x100 0 [(0x10100, 0xCE)]) = .next 0xCE ∧
      readByte (phys 0x1000 0x100) (ready 0x100 0 [(0x10100, 0xCF)]) = .next 0xCF ∧
      readByte (phys 0x1000 0x100) (ready 0x100 0 [(0x10100, 0xFA)]) = .next 0xFA ∧
      readByte (phys 0x1000 0x100) (ready 0x100 0 [(0x10100, 0xFB)]) = .next 0xFB := by
  refine ⟨?_, ?_, ?_, ?_, ?_, ?_, ?_⟩ <;> exact eq_next (by decide +kernel)

/-- CBH and CFH are neighbours in the map; so are CDH's and FAH's. -/
theorem test_meets_OtherFirstBytesAreRefused :
    readByte (phys 0x1000 0x100) (ready 0x100 0 [(0x10100, 0xCB)]) = .next 0xCB ∧
      readByte (phys 0x1000 0x100) (ready 0x100 0 [(0x10100, 0xFC)]) = .next 0xFC ∧
      0xCB#8 ∉ [0xCC#8, 0xCD#8, 0xCE#8, 0xCF#8, 0xFA#8, 0xFB#8] ∧
      0xFC#8 ∉ [0xCC#8, 0xCD#8, 0xCE#8, 0xCF#8, 0xFA#8, 0xFB#8] ∧
      (ready 0x100 0 [(0x10100, 0xCB)]).resetPin = false ∧ (ready 0x100 0 [(0x10100, 0xCB)]).agenda = [] := by
  refine ⟨?_, ?_, by decide, by decide, rfl, rfl⟩ <;> exact eq_next (by decide +kernel)

/-- Both agendas; the bytes of INT 21H. -/
theorem test_meets_StepRunsTheDecodedInstruction :
    ∀ agenda ∈ [[], [Move.processor, Move.nmi true]],
      decode [0xCD, 0x21] = .ok (.intN 0x21, []) ∧
      ({ ready 0x100 0 [(0x10100, 0xCD), (0x10101, 0x21)] with agenda := agenda } : State).resetPin = false ∧
      ∀ k b, [0xCD#8, 0x21#8][k]? = some b →
        readByte (fetchAddr k (ready 0x100 0 [(0x10100, 0xCD), (0x10101, 0x21)]))
          { ready 0x100 0 [(0x10100, 0xCD), (0x10101, 0x21)] with agenda := agenda } = .next b := by
  intro agenda _
  have h0 : value? (readByte (phys 0x1000 (0x100 + 0)) (ready 0x100 0 [(0x10100, 0xCD), (0x10101, 0x21)])) = some 0xCD := by
    decide +kernel
  have h1 : value? (readByte (phys 0x1000 (0x100 + 1)) (ready 0x100 0 [(0x10100, 0xCD), (0x10101, 0x21)])) = some 0x21 := by
    decide +kernel
  refine ⟨rfl, rfl, fun k b h => ?_⟩
  match k with
  | 0 => cases h; exact eq_next h0
  | 1 => cases h; exact eq_next h1
  | k + 2 => cases h

/-- At the top of the address space, where it wraps, and at the bounds of the third clause. -/
theorem test_meets_PhysicalAddressFormation :
    writableAt (ready 0x100 0 []).config (phys 0xFFFF 0xFFFF) = true ∧
      writableAt (ready 0x100 0 []).config (phys 0 0) = true ∧
      (0xFFFE#16 ≠ 0xFFFF ∧ (0xFFEF#16).toNat + 16 < 2 ^ 16) := by decide +kernel

/-- The word that wraps from FFFFFH to 00000H. -/
theorem test_meets_WordsAreLittleEndian :
    writableAt (ready 0x100 0 []).config 0xFFFFF = true ∧ writableAt (ready 0x100 0 []).config (0xFFFFF + 1) = true := by
  decide +kernel

/-- A launch memory of two bytes, the second not writable. -/
def twoBytes : State :=
  { State.reset with
    config := { configAtReset with
      memoryMap := [{ base := 0, size := 1, writable := true }, { base := 1, size := 1, writable := false }] } }

theorem test_meets_AccessOutsideLaunchMemoryStops :
    existsAt twoBytes.config 2 = false ∧ existsAt twoBytes.config 0xFFFFF = false ∧
      (existsAt twoBytes.config 1 = true ∧ writableAt twoBytes.config 1 = false) ∧
      (existsAt twoBytes.config 0 = true ∧ memGet (0 : Addr).toNat twoBytes.mem = none) := by decide +kernel

/-- A push with SP = 1 is refused, with SP = 0, 2 and 3 not. -/
theorem test_meets_PushAndPop :
    (ready 1 0 []).regs.sp = 1 ∧
      ((ready 0 0 []).regs.sp ≠ 1 ∧ (ready 2 0 []).regs.sp ≠ 1 ∧ (ready 3 0 []).regs.sp ≠ 1) ∧
      (writableAt configAtReset (phys 0x2000 (0 - 2)) = true ∧ writableAt configAtReset (phys 0x2000 (0 - 1)) = true) ∧
      (writableAt configAtReset (phys 0x2000 (2 - 2)) = true ∧ writableAt configAtReset (phys 0x2000 (2 - 1)) = true) ∧
      writableAt configAtReset (phys 0x2000 (3 - 2)) = true ∧ writableAt configAtReset (phys 0x2000 (3 - 1)) = true := by
  decide +kernel

/-- A pop with SP = FFFFH is refused; SP = FFFEH wraps to 0 and FFFDH to FFFFH. -/
theorem test_meets_PushAndPop_pops :
    (ready 0xFFFF 0 []).regs.sp = 0xFFFF ∧
      readWord (phys 0x2000 0xFFFE) (ready 0xFFFE 0 [(0x2FFFE, 1), (0x2FFFF, 2)]) = .next 0x0201 ∧
      readWord (phys 0x2000 0xFFFD) (ready 0xFFFD 0 [(0x2FFFD, 1), (0x2FFFE, 2)]) = .next 0x0201 ∧
      ∃ t, push16 0x1234 (ready 0 0 []) = .next t := by
  exact ⟨rfl, eq_next (by decide +kernel), eq_next (by decide +kernel), next_of_isSome (by decide +kernel)⟩

/-- The last entry, type 255. -/
theorem test_meets_VectorTableEntry :
    readByte (vectorAddr 255) (launch 0 0 0 0 [(0x3FC, 1), (0x3FD, 2), (0x3FE, 3), (0x3FF, 4)]) = .next 1 ∧
      readByte (vectorAddr 255 + 1) (launch 0 0 0 0 [(0x3FC, 1), (0x3FD, 2), (0x3FE, 3), (0x3FF, 4)]) = .next 2 ∧
      readByte (vectorAddr 255 + 2) (launch 0 0 0 0 [(0x3FC, 1), (0x3FD, 2), (0x3FE, 3), (0x3FF, 4)]) = .next 3 ∧
      readByte (vectorAddr 255 + 3) (launch 0 0 0 0 [(0x3FC, 1), (0x3FD, 2), (0x3FE, 3), (0x3FF, 4)]) = .next 4 := by
  refine ⟨?_, ?_, ?_, ?_⟩ <;> exact eq_next (by decide +kernel)

theorem test_meets_FlagsImageAndLoadAgree : 0xFFFF#16 &&& 0x0FD5 = 0x0FD5#16 &&& 0x0FD5 := by decide

/-- Room for a frame at the values of SP next to the refused ones, where the frame wraps in the segment. -/
theorem test_meets_FrameRoom :
    FrameRoom (ready 0 0 []) ∧ FrameRoom (ready 2 0 []) ∧ FrameRoom (ready 4 0 []) ∧ FrameRoom (ready 6 0 []) ∧
      FrameRoom (ready 0xFFFF 0 []) := by
  unfold FrameRoom
  refine ⟨?_, ?_, ?_, ?_, ?_⟩ <;> decide +kernel

/-- The vectors are ready; so is vector 0 for a stack that overlaps it, with nothing written. -/
theorem test_meets_VectorReady :
    (∀ n ∈ [0#8, 1#8, 2#8, 3#8, 4#8, 0x21#8, 0x40#8], VectorReady n (ready 0x100 0 [])) ∧
      VectorReady 0 { launch 0x1000 0x100 0x16 0 [] with ss := 0xFFFF } := by
  unfold VectorReady
  decide +kernel

theorem test_meets_SoftwareInterruptsComplete :
    FrameRoom (ready 0x100 0x800 []) ∧ VectorReady 0x21 (ready 0x100 0x800 []) ∧ VectorReady 3 (ready 0x100 0x800 []) ∧
      VectorReady 4 (ready 0x100 0x800 []) ∧ (ready 0x100 0x800 []).flags.OF = true ∧
      (ready 0x100 0 []).flags.OF = false := by
  unfold FrameRoom VectorReady
  decide +kernel

theorem test_meets_EveryCauseRunsTheSameSequence :
    (∃ t, exec (.intN 0x21) (ready 0x100 0x800 []) = .next t) ∧ (∃ t, exec .int3 (ready 0x100 0x800 []) = .next t) ∧
      ((ready 0x100 0x800 []).flags.OF = true ∧ ∃ t, exec .into (ready 0x100 0x800 []) = .next t) ∧
      (∃ t, divideError (ready 0x100 0 []) = .next t) ∧ (∃ t, takeNmi (ready 0x100 0 []) = .next t) ∧
      (∃ t, takeTrap (ready 0x100 0 []) = .next t) ∧
      (∃ r t, acknowledge { ready 0x100 0 [] with intaByte := 0x40 } = .next r ∧
        takeIntr { ready 0x100 0 [] with intaByte := 0x40 } = .next t) ∧
      (FrameRoom (ready 0x100 0 []) ∧ VectorReady 0 (ready 0x100 0 []) ∧ VectorReady 2 (ready 0x100 0 []) ∧
        VectorReady 1 (ready 0x100 0 []) ∧ (ready 0x100 0 []).config.picPresent = false ∧
        VectorReady (ready 0x100 0 []).intaByte (ready 0x100 0 [])) := by
  refine ⟨next_of_isSome (by decide +kernel), next_of_isSome (by decide +kernel),
    ⟨by decide, next_of_isSome (by decide +kernel)⟩, next_of_isSome (by decide +kernel),
    next_of_isSome (by decide +kernel), next_of_isSome (by decide +kernel),
    ⟨_, _, rfl, next_after (by decide +kernel)⟩, ?_⟩
  unfold FrameRoom VectorReady
  decide +kernel

/-- The boundary SP = FFFAH, the last with no wrap, and FFFCH, whose frame wraps (V52). -/
theorem test_meets_IretCompletes :
    (0xFFFA#16 ≠ 0xFFFF ∧ 0xFFFA#16 ≠ 0xFFFD ∧ 0xFFFA#16 ≠ 0xFFFB) ∧
      readWord (phys 0x2000 0xFFFC) (ready 0xFFFC 0
        [(0x20000, 5), (0x20001, 6), (0x2FFFC, 1), (0x2FFFD, 2), (0x2FFFE, 3), (0x2FFFF, 4)]) = .next 0x0201 ∧
      readWord (phys 0x2000 (0xFFFC + 2)) (ready 0xFFFC 0
        [(0x20000, 5), (0x20001, 6), (0x2FFFC, 1), (0x2FFFD, 2), (0x2FFFE, 3), (0x2FFFF, 4)]) = .next 0x0403 ∧
      readWord (phys 0x2000 (0xFFFC + 4)) (ready 0xFFFC 0
        [(0x20000, 5), (0x20001, 6), (0x2FFFC, 1), (0x2FFFD, 2), (0x2FFFE, 3), (0x2FFFF, 4)]) = .next 0x0605 :=
  ⟨by decide, eq_next (by decide +kernel), eq_next (by decide +kernel), eq_next (by decide +kernel)⟩

theorem test_meets_StiSetsIfAndShadow :
    ((ready 0 0 []).config.stiShadow = true ∧ (ready 0 0 []).flags.IF = false) ∧
      (ready 0 0x200 []).flags.IF = true ∧
      ({ ready 0 0 [] with config := { configAtReset with stiShadow := false } } : State).config.stiShadow = false := by
  decide +kernel

/-- Every instruction answers a next state somewhere. -/
theorem test_meets_InstructionFrames :
    (∃ t, exec .int3 (ready 0x100 0 []) = .next t) ∧ (∃ t, exec (.intN 0x21) (ready 0x100 0 []) = .next t) ∧
      (∃ t, exec .into (ready 0x100 0x800 []) = .next t) ∧ (∃ t, exec .into (ready 0x100 0 []) = .next t) ∧
      (∃ t, exec .iret (ready 0xFA 0 (frame 2 1 0 0x10 0 2)) = .next t) ∧ (∃ t, exec .cli (ready 0 0 []) = .next t) ∧
      (∃ t, exec .sti (ready 0 0 []) = .next t) := by
  refine ⟨?_, ?_, ?_, ?_, ?_, ?_, ?_⟩ <;> exact next_of_isSome (by decide +kernel)

theorem test_meets_IretReturnsFromIntN : FrameRoom (ready 0 0 []) ∧ VectorReady 0x21 (ready 0 0 []) := by
  unfold FrameRoom VectorReady
  decide +kernel

theorem test_meets_WordAtOffsetFFFFIsRefused :
    (ready 1 0 []).regs.sp = 1 ∧
      ((ready 3 0 []).regs.sp = 3 ∧ ∀ k < 6, 4 ≤ k → writableAt (ready 3 0 []).config (frameAddr (ready 3 0 []) k) = true) ∧
      ((ready 5 0 []).regs.sp = 5 ∧ ∀ k < 6, 2 ≤ k → writableAt (ready 5 0 []).config (frameAddr (ready 5 0 []) k) = true) ∧
      (ready 0xFFFF 0 []).regs.sp = 0xFFFF := by decide +kernel

theorem test_meets_WordAtOffsetFFFFIsRefused_pops :
    ((ready 0xFFFD 0 []).regs.sp = 0xFFFD ∧
        readWord (phys 0x2000 0xFFFD) (ready 0xFFFD 0 [(0x2FFFD, 1), (0x2FFFE, 2)]) = .next 0x0201) ∧
      (ready 0xFFFB 0 []).regs.sp = 0xFFFB ∧
      readWord (phys 0x2000 0xFFFB) (ready 0xFFFB 0 [(0x2FFFB, 1), (0x2FFFC, 2), (0x2FFFD, 3), (0x2FFFE, 4)]) =
        .next 0x0201 ∧
      readWord (phys 0x2000 0xFFFD) (ready 0xFFFB 0 [(0x2FFFB, 1), (0x2FFFC, 2), (0x2FFFD, 3), (0x2FFFE, 4)]) =
        .next 0x0403 :=
  ⟨⟨rfl, eq_next (by decide +kernel)⟩, rfl, eq_next (by decide +kernel), eq_next (by decide +kernel)⟩

theorem test_meets_DivideErrorIsTypeZero :
    (∀ w, ({ ready 0x100 0 [] with agenda := [.divideError 2 w] } : State).agenda = .divideError 2 w :: []) ∧
      (ready 0x100 0 []).resetPin = false ∧ (ready 0x100 0 []).flags.TF = false ∧
      (ready 0x100 0 []).nmiPending = false ∧ FrameRoom (ready 0x100 0 []) ∧ VectorReady 0 (ready 0x100 0 []) := by
  unfold FrameRoom VectorReady
  decide +kernel

theorem test_meets_CliTurnTakesNoIntr :
    ({ ready 0x100 0x200 [] with intrPin := true } : State).nmiPending = false ∧
      ({ ready 0x100 0x200 [] with intrPin := true } : State).tfBefore = false := by decide +kernel

/-- A high INTR with type byte 40H. -/
def intrHigh (s : State) : State :=
  { s with intrPin := true, intaByte := 0x40 }

theorem test_meets_StiShadowDelaysIntr :
    (ready 0x100 0 []).nmiPending = false ∧ (ready 0x100 0 []).tfBefore = false ∧
      (ready 0x100 0 []).stiShadow = false ∧ (ready 0x100 0 []).flags.IF = false ∧
      (ready 0x100 0 []).config.stiShadow = true ∧ (intrHigh (ready 0x100 0 [])).config.picPresent = false ∧
      (intrHigh (ready 0x100 0 [])).intrPin = true ∧ FrameRoom (intrHigh (ready 0x100 0 [])) ∧
      VectorReady (intrHigh (ready 0x100 0 [])).intaByte (intrHigh (ready 0x100 0 [])) := by
  unfold FrameRoom VectorReady
  decide +kernel

/-- The state IRET is executed in, with a frame whose FLAGS word is F000H or'd with the byte given. -/
def beforeIret (high : Byte) : State :=
  intrHigh (ready 0xFA 0 (frame 2 1 0 0x10 0 high))

theorem test_meets_IntrTakenRightAfterIret :
    exec .iret (beforeIret 2) = .next (after (exec .iret (beforeIret 2))) ∧
      (after (exec .iret (beforeIret 2))).flags.IF = true ∧ (beforeIret 2).nmiPending = false ∧
      (beforeIret 2).tfBefore = false ∧ (beforeIret 2).stiShadow = false ∧ (beforeIret 2).config.picPresent = false ∧
      (beforeIret 2).intrPin = true ∧ FrameRoom (after (exec .iret (beforeIret 2))) ∧
      VectorReady (beforeIret 2).intaByte (after (exec .iret (beforeIret 2))) := by
  refine ⟨next_after (by decide +kernel), ?_⟩
  unfold FrameRoom VectorReady
  decide +kernel

/-- A state with an NMI latched, and TF as given before the instruction. -/
def nmiLatched (tf : Bool) : State :=
  { ready 0x100 0x200 [] with nmiPending := true, tfBefore := tf }

/-- After CLI, and after INT 21H. -/
theorem test_meets_NmiIsRecognisedFirst :
    ∀ i ∈ [Instr.cli, .intN 0x21], ∀ tf : Bool,
      exec i (nmiLatched tf) = .next (after (exec i (nmiLatched tf))) ∧ (nmiLatched tf).nmiPending = true ∧
      FrameRoom (after (exec i (nmiLatched tf))) ∧ VectorReady 2 (after (exec i (nmiLatched tf))) := by
  have key : ∀ i ∈ [Instr.cli, .intN 0x21], ∀ tf : Bool, (value? (exec i (nmiLatched tf))).isSome = true ∧
      FrameRoom (after (exec i (nmiLatched tf))) ∧ VectorReady 2 (after (exec i (nmiLatched tf))) := by
    unfold FrameRoom VectorReady
    decide +kernel
  exact fun i hi tf => ⟨next_after (key i hi tf).1, rfl, (key i hi tf).2⟩

/-- The state after the NMI that such a boundary takes, in which a single step due follows. -/
theorem test_meets_trapAfterNmi :
    ∀ u ∈ [nmiLatched true, after (exec .cli (nmiLatched true)), after (exec (.intN 0x21) (nmiLatched true))],
      u.tfBefore = true ∧ (value? (takeNmi { u with stiShadow := false })).isSome = true ∧
      FrameRoom (after (takeNmi { u with stiShadow := false })) ∧
      VectorReady 1 (after (takeNmi { u with stiShadow := false })) := by
  unfold FrameRoom VectorReady
  decide +kernel

theorem test_meets_BoundaryIsBlindToMaskedIntr : (intrHigh (ready 0x100 0x100 [])).flags.IF = false := by decide

/-- The three ways INTR is not recognised, and both values of the sampled TF. -/
theorem test_meets_SingleStepIsTakenLast :
    (ready 0x100 0 []).nmiPending = false ∧ (intrHigh (ready 0x100 0 [])).flags.IF = false ∧
      ({ intrHigh (ready 0x100 0x200 []) with stiShadow := true } : State).stiShadow = true ∧
      intrLevel (ready 0x100 0x200 []) = false ∧ (ready 0x100 0 []).tfBefore = false ∧
      ({ ready 0x100 0 [] with tfBefore := true } : State).tfBefore = true ∧
      FrameRoom { ready 0x100 0 [] with tfBefore := true } ∧ VectorReady 1 { ready 0x100 0 [] with tfBefore := true } ∧
      ∀ tf, (nmiLatched tf).nmiPending = true ∧ FrameRoom (nmiLatched tf) ∧ VectorReady 2 (nmiLatched tf) := by
  unfold FrameRoom VectorReady
  decide +kernel

/-- A high INTR with IF = 1, and TF as given before the instruction. -/
def intrDue (tf : Bool) : State :=
  { intrHigh (ready 0x100 0x200 []) with tfBefore := tf }

/-- INTR recognised, and the single step that follows it. -/
theorem test_meets_SingleStepIsTakenLast_intr (tf : Bool) :
    (intrDue tf).nmiPending = false ∧ (intrDue tf).flags.IF = true ∧ (intrDue tf).stiShadow = false ∧
      intrLevel (intrDue tf) = true ∧ acknowledge (intrDue tf) = .next (0x40, intrDue tf) ∧ FrameRoom (intrDue tf) ∧
      VectorReady 0x40 (intrDue tf) ∧ takeIntr (intrDue tf) = .next (after (takeIntr (intrDue tf))) ∧
      FrameRoom (after (takeIntr (intrDue tf))) ∧ VectorReady 1 (after (takeIntr (intrDue tf))) := by
  refine ⟨rfl, rfl, rfl, rfl, rfl, ?_, ?_, next_after ?_, ?_, ?_⟩ <;> revert tf <;>
    (try unfold FrameRoom) <;> (try unfold VectorReady) <;> decide +kernel

/-- V47. -/
theorem test_meets_IretLoadingTfIsNotTrapped :
    fetch (ready 0xFA 0 ((0x10100, 0xCF) :: frame 0 2 0 0x10 0 1)) = .next .iret ∧
      exec .iret (ready 0xFA 0 ((0x10100, 0xCF) :: frame 0 2 0 0x10 0 1)) =
        .next (after (exec .iret (ready 0xFA 0 ((0x10100, 0xCF) :: frame 0 2 0 0x10 0 1)))) ∧
      (after (exec .iret (ready 0xFA 0 ((0x10100, 0xCF) :: frame 0 2 0 0x10 0 1)))).flags.TF = true ∧
      (after (exec .iret (ready 0xFA 0 ((0x10100, 0xCF) :: frame 0 2 0 0x10 0 1)))).flags.IF = false ∧
      (ready 0xFA 0 []).flags.TF = false ∧ (ready 0xFA 0 []).nmiPending = false ∧ (ready 0xFA 0 []).resetPin = false ∧
      (ready 0xFA 0 []).agenda = [] := by
  refine ⟨eq_next (by decide +kernel), next_after (by decide +kernel), ?_⟩
  decide +kernel

/-- The three instructions that run a sequence. -/
theorem test_meets_NmiAndTrapFollowTheInstructionsOwnSequence :
    ∀ i ∈ [Instr.intN 0x21, .int3, .into],
      exec i (ready 0x100 0x800 []) = .next (after (exec i (ready 0x100 0x800 []))) ∧
        runsSequence i (ready 0x100 0x800 []) = true := by
  have key : ∀ i ∈ [Instr.intN 0x21, .int3, .into], (value? (exec i (ready 0x100 0x800 []))).isSome = true ∧
      runsSequence i (ready 0x100 0x800 []) = true := by decide +kernel
  exact fun i hi => ⟨next_after (key i hi).1, (key i hi).2⟩

/-- The boundary after INT 21H, V42 and V46: no NMI and NMI, TF 0 and 1 (the last clause with `test_meets_trapAfterNmi`). -/
theorem test_meets_NmiAndTrapFollowTheInstructionsOwnSequence_boundary :
    let u := after (exec (.intN 0x21) { ready 0x100 0x300 [] with tfBefore := true })
    u.nmiPending = false ∧ u.tfBefore = true ∧ FrameRoom u ∧ VectorReady 1 u ∧
      (after (exec (.intN 0x21) (ready 0x100 0 []))).tfBefore = false ∧
      (after (exec (.intN 0x21) (nmiLatched true))).nmiPending = true ∧
      FrameRoom (after (exec (.intN 0x21) (nmiLatched true))) ∧
      VectorReady 2 (after (exec (.intN 0x21) (nmiLatched true))) := by
  unfold FrameRoom VectorReady
  decide +kernel

/-- The most frames, and the fewest with an IRET. -/
theorem test_meets_TurnPushesAtMostThreeFrames :
    (∃ t, runInstr (.intN 0x21) { ready 0x100 0x300 [] with tfBefore := true, nmiPending := true } = .next t) ∧
      ∃ t, runInstr .iret (ready 0xFA 0 (frame 2 1 0 0x10 0 0)) = .next t :=
  ⟨next_of_isSome (by decide +kernel), next_of_isSome (by decide +kernel)⟩

/-- The state of P5 at the boundary that takes the request, ICW4 = 01H. -/
def picRequest : State :=
  { ready 0x100 0x200 [] with
    pic := irChange 0 true v60
    config := { fixedReserved with picPresent := true } }

theorem test_meets_IntrThroughThePic :
    picRequest.config.picPresent = true ∧ boardAdmitted picRequest = true ∧ picRequest.config.picSpurious = false ∧
      picRequest.slaves = [] ∧
      picRequest.pic.init = .ready ∧ picRequest.pic.upm = true ∧ picRequest.pic.sngl = true ∧
      picRequest.pic.aeoi = false ∧ winner picRequest.pic = some 0 ∧ picRequest.flags.IF = true ∧
      picRequest.stiShadow = false ∧ picRequest.nmiPending = false ∧ picRequest.tfBefore = false ∧
      FrameRoom picRequest ∧ VectorReady (picRequest.pic.t ++ 0#3) picRequest := by
  unfold FrameRoom VectorReady
  decide +kernel

/-- A state whose next step runs INT 21H. -/
def beforeInt : State :=
  ready 0x100 0x300 [(0x10100, 0xCD), (0x10101, 0x21)]

theorem test_meets_step :
    (∃ t, step beforeInt = .next t) ∧ beforeInt.resetPin = false ∧ beforeInt.flags.IF = true ∧
      (∃ i, fetch beforeInt = .next i ∧ fetch beforeInt ≠ .next .iret) := by
  refine ⟨next_of_isSome (by decide +kernel), rfl, by decide, .intN 0x21, eq_next (by decide +kernel), ?_⟩
  rw [eq_next (o := fetch beforeInt) (a := .intN 0x21) (by decide +kernel)]
  nofun

/-- A step that sets IF, by STI and by IRET. -/
theorem test_meets_OnlyStiAndIretSetIf :
    (step (ready 0x100 0 [(0x10100, 0xFB)]) = .next (after (step (ready 0x100 0 [(0x10100, 0xFB)]))) ∧
        (ready 0x100 0 [(0x10100, 0xFB)]).flags.IF = false ∧
        (after (step (ready 0x100 0 [(0x10100, 0xFB)]))).flags.IF = true) ∧
      step (ready 0xFA 0 ((0x10100, 0xCF) :: frame 2 1 0 0x10 0 2)) =
        .next (after (step (ready 0xFA 0 ((0x10100, 0xCF) :: frame 2 1 0 0x10 0 2)))) ∧
      (after (step (ready 0xFA 0 ((0x10100, 0xCF) :: frame 2 1 0 0x10 0 2)))).flags.IF = true := by
  refine ⟨⟨next_after (by decide +kernel), by decide, by decide +kernel⟩, next_after (by decide +kernel), ?_⟩
  decide +kernel

/-- One of each of the environment's moves; RESET raised, and driven low where it is low. -/
theorem test_meets_EnvironmentWritesNoRegisterOrMemory :
    ∀ m ∈ [Move.nmi true, .intr true, .inta 0x40, .ir .master 7 true, .reset true, .reset false],
      (withAgenda [m] State.reset).agenda = m :: [] ∧
        (match m with
          | .nmi _ | .intr _ | .inta _ | .ir _ _ _ => True
          | .reset level => level = true ∨ (withAgenda [m] State.reset).resetPin = false
          | _ => False) := by
  intro m hm
  simp only [List.mem_cons, List.not_mem_nil, or_false] at hm
  rcases hm with rfl | rfl | rfl | rfl | rfl | rfl
  all_goals first | exact ⟨rfl, trivial⟩ | exact ⟨rfl, .inl rfl⟩ | exact ⟨rfl, .inr rfl⟩

theorem test_meets_NmiEdgeIsLatched :
    (withAgenda [.nmi true] State.reset).agenda = .nmi true :: [] ∧
      (withAgenda [.nmi false] State.reset).agenda = .nmi false :: [] := by decide +kernel

/-- A turn with nothing on the agenda, each kind of turn on it, and the release. -/
theorem test_meets_ResetEventState :
    ({ beforeInt with resetPin := true } : State).resetPin = true ∧
      ({ beforeInt with resetPin := true } : State).agenda = [] ∧
      (∀ m ∈ [Move.processor, .divideError 2 true, .portWrite 2 0x20 0x20, .portRead 2 0x20],
        ({ beforeInt with resetPin := true, agenda := [m] } : State).agenda = m :: [] ∧ isTurn m = true) ∧
      ({ beforeInt with resetPin := true, agenda := [.reset false] } : State).agenda = .reset false :: [] := by
  decide +kernel

/-- A cascade: a master with a slave on input 2, both ready, the slave requesting. -/
def cascadeMaster : Pic :=
  { v60 with sngl := false, s := 4, imr := 0, ir := 4, edge := 4 }

/-- The slave of that cascade, identity 2, its level 1 requesting. -/
def cascadeSlave : Pic :=
  { v60 with sngl := false, s := 2, sp := false, imr := 0, t := 14, ir := 2, edge := 2 }

/-- A machine with that cascade. -/
def cascade : State :=
  { beforeInt with
    pic := cascadeMaster, slaves := [{ line := 2, base := 0xA0, chip := cascadeSlave }]
    config := { fixedReserved with picPresent := true, picFull := true, picBase := 0x20, picCount := 2 } }

/-- An IR input of the master with no slave on it, one of the slave, one a slave drives, and one of no chip. -/
theorem test_meets_EnvironmentWritesNoRegisterOrMemory_ir :
    (chipOf .master cascade = some cascadeMaster ∧ ∀ sl ∈ cascade.slaves, sl.line ≠ 7) ∧
      (chipOf (.slave 0) cascade = some cascadeSlave ∧ ChipId.slave 0 ≠ .master) ∧
      (∃ sl ∈ cascade.slaves, sl.line = 2) ∧ chipOf (.slave 1) cascade = none := by decide +kernel

/-- The same inputs driven: the master's and the slave's change, the one a slave drives and the one of no chip do not. -/
theorem test_driveIr :
    ([(ChipId.master, 7, true), (.slave 0, 7, true), (.master, 2, false), (.slave 1, 7, true)].map fun a =>
        let t := after (step { cascade with agenda := [.ir a.1 a.2.1 a.2.2] })
        (t.pic.ir, t.pic.edge, t.slaves.map fun sl => (sl.chip.ir, sl.chip.edge))) =
      [(0x84, 0x84, [(2, 2)]), (4, 4, [(0x82, 0x82)]), (4, 4, [(2, 2)]), (4, 4, [(2, 2)])] := by decide +kernel

/-- Each chip of the cascade at both its ports, a port at which none answers, no 8259A, and a board whose chips are not
counted. -/
theorem test_meets_PortTurnsReachTheChip :
    [0x20, 0x21, 0xA0, 0xA1, 0x22].map (fun port => portChip port cascade) =
        [some (.master, false), some (.master, true), some (.slave 0, false), some (.slave 0, true), none] ∧
      boardAdmitted cascade = true ∧ cascade.config.picPresent = true ∧ cascade.resetPin = false ∧
      chipOf .master cascade = some cascadeMaster ∧ chipOf (.slave 0) cascade = some cascadeSlave ∧
      beforeInt.config.picPresent = false ∧
      boardAdmitted { cascade with config := { cascade.config with picCount := 1 } } = false ∧
      ({ cascade with agenda := [.portWrite 2 0x20 0x20] } : State).agenda = .portWrite 2 0x20 0x20 :: [] ∧
      ({ cascade with agenda := [.portRead 2 0x20] } : State).agenda = .portRead 2 0x20 :: [] := by decide +kernel

/-- R31: an OUT to the slave's port and an IN from the master's complete, and reach those chips. -/
theorem test_portTurns :
    ((after (step { cascade with flags := flagsLoad 0, agenda := [.portWrite 2 0xA1 0xFF] })).slaves.map
        fun sl => sl.chip.imr) = [0xFF] ∧
      (after (step { cascade with flags := flagsLoad 0, agenda := [.portWrite 2 0xA1 0xFF] })).pic.ir = 0 ∧
      (after (step { cascade with flags := flagsLoad 0, agenda := [.portRead 2 0x20] })).ioData = 4 := by decide +kernel

/-- States that meet the invariants and have a next state: one with no 8259A initialized, one with a cascade. -/
theorem test_meets_invariants :
    (MemoryInv beforeInt ∧ CascadeInv beforeInt ∧ ShadowInv beforeInt) ∧ (MemoryInv cascade ∧ ShadowInv cascade) ∧
      (∃ t, step beforeInt = .next t) ∧ ∃ t, step cascade = .next t := by
  refine ⟨?_, ?_, next_of_isSome (by decide +kernel), next_of_isSome (by decide +kernel)⟩ <;>
    (unfold MemoryInv; try unfold CascadeInv) <;> unfold ShadowInv <;> decide +kernel

theorem test_meets_CascadeInvariantIsKept : CascadeInv cascade := by
  unfold CascadeInv
  decide +kernel

theorem consistent_of_ready {p : Pic} (h : p.init = .ready) (h4 : p.ic4 = true) (hb : badIdentity p = false) :
    PicConsistent p where
  icw3 := fun hh => by rw [h] at hh; cases hh
  icw4 := fun _ => h4
  noIcw4 := fun _ hh => by rw [h4] at hh; cases hh
  fresh := fun _ hh => absurd h hh
  identity := fun _ => hb

theorem test_meets_PicInvariantIsKept : PicInv cascade := by
  have hm : PicConsistent cascade.pic := consistent_of_ready (by decide +kernel) (by decide +kernel) (by decide +kernel)
  have hs : PicConsistent cascadeSlave := consistent_of_ready (by decide +kernel) (by decide +kernel) (by decide +kernel)
  have hf : cascade.config.picFull = true := rfl
  refine ⟨⟨hm, fun sl h => ?_⟩, fun h => ?_⟩
  · cases List.mem_singleton.1 h
    exact hs
  · rw [hf] at h
    cases h

/-- Inside the admitted subset, where the parameters say so. -/
theorem test_meets_PicInvariantIsKept_subset : PicInv picRequest := by
  have hm : PicConsistent picRequest.pic := consistent_of_ready (by decide +kernel) (by decide +kernel) (by decide +kernel)
  have hl : picRequest.slaves = [] := rfl
  have ha : PicAdmitted picRequest.pic := ⟨fun _ => by decide +kernel, fun _ => by decide +kernel⟩
  refine ⟨⟨hm, fun sl h => ?_⟩, fun _ => ⟨ha, fun sl h => ?_⟩⟩ <;> (rw [hl] at h; cases h)

/-- Every combination of SNGL and IC4; each way a chip's role and its ICW3 can agree, ICW4 = 0DH being a buffered master's
and 09H a buffered slave's. -/
theorem test_meets_InitializationSequence :
    v60.init = .ready ∧ (0x10#8).getLsbD 4 = true ∧ (0x20#8).getLsbD 4 = false ∧ (0x20#8).getLsbD 3 = false ∧
      (0x0B#8).getLsbD 4 = false ∧ (0x0B#8).getLsbD 3 = true ∧ cascade.config.picFull = true ∧
      (∀ d ∈ [0x10#8, 0x11#8, 0x12#8, 0x13#8], d.getLsbD 4 = true) ∧
      ((0x10#8).getLsbD 1 = false ∧ (0x10#8).getLsbD 0 = false) ∧ ((0x11#8).getLsbD 1 = false ∧ (0x11#8).getLsbD 0 = true) ∧
      ((0x12#8).getLsbD 1 = true ∧ (0x12#8).getLsbD 0 = false) ∧ ((0x13#8).getLsbD 1 = true ∧ (0x13#8).getLsbD 0 = true) ∧
      (Pic.powerOn true).sp = true ∧ (Pic.powerOn false).sp = false ∧ (0x07#8).extractLsb' 3 5 = 0 ∧
      (∀ d ∈ [0x1F#8, 0x0D#8, 0x09#8], d.extractLsb' 5 3 = 0) ∧
      ((0x0D#8).getLsbD 3 = true ∧ (0x0D#8).getLsbD 2 = true) ∧ (0x09#8).getLsbD 3 = true ∧ (0x09#8).getLsbD 2 = false := by
  decide +kernel

theorem test_meets_SinglePicSetUp :
    (0x13#8 &&& 0x13#8 = 0x13#8 ∧ 0x01#8 &&& 0xF1#8 = 0x01#8) ∧ 0xFF#8 &&& 0x13#8 = 0x13#8 ∧ 0x0F#8 &&& 0xF1#8 = 0x01#8 := by
  decide

theorem test_meets_RequestSensing : v60.ltim = false ∧ bitAt (irChange 7 true v60).ir 7 = true := by decide +kernel

theorem test_meets_PriorityResolution :
    v60.smm = false ∧ winner picRequest.pic = some 0 ∧ intOut picRequest.pic = true ∧
      picRequest.config.picPresent = true ∧ ({ cascadeMaster with sfnm := true } : Pic).sfnm = true ∧
      isMaster cascadeMaster = true ∧ cascadeMaster.sngl = false ∧ bitAt cascadeMaster.s 2 = true := by decide +kernel

theorem test_meets_AcknowledgeServesTheWinner :
    picRequest.config.picPresent = true ∧ picRequest.config.picSpurious = false ∧ picRequest.pic.init ≠ .uninit ∧
      ({ picRequest with pic := { v60 with upm := false } } : State).pic.upm = false ∧ picRequest.pic.upm = true ∧
      picRequest.pic.sngl = true ∧ winner picRequest.pic = some 0 ∧ picRequest.pic.t = (icw2 0x0F picRequest.pic).t ∧
      CascadeInv picRequest := by
  unfold CascadeInv
  decide +kernel

/-- The cascade's master with a request on input 0, which has no slave. -/
theorem test_meets_AcknowledgeServesTheWinner_cascade :
    CascadeInv { cascade with pic := { cascadeMaster with ir := 5, edge := 5 } } ∧
      winner { cascadeMaster with ir := 5, edge := 5 } = some 0 ∧ bitAt cascadeMaster.s 0 = false ∧
      isMaster cascadeMaster = true := by
  unfold CascadeInv
  decide +kernel

theorem test_meets_SpuriousAcknowledge :
    ({ picRequest with config := { picRequest.config with picSpurious := true } } : State).config.picSpurious = true ∧
      picRequest.config.picPresent = true ∧ boardAdmitted picRequest = true ∧ picRequest.pic.init ≠ .uninit ∧
      picRequest.pic.upm = true := by decide +kernel

/-- Level 3 in service: 5 and 3 are held back, 1 is not. -/
theorem test_meets_InServiceHoldsBackLowerLevels :
    v60.aeoi = false ∧ v60.smm = false ∧ v60.sfnm = false ∧ (rank v60 3).toNat ≤ (rank v60 5).toNat ∧
      (rank v60 3).toNat ≤ (rank v60 3).toNat ∧ (rank v60 1).toNat < (rank v60 3).toNat := by decide +kernel

/-- V64: levels 1 and 3 in service; and none. In special mask mode, level 1 masked. -/
theorem test_meets_EndOfInterrupt :
    (bitAt (0x0A : Byte) 1 = true ∧ v60.smm = false ∧
      ∀ m, bitAt (0x0A : Byte) m = true → (rank v60 1).toNat ≤ (rank v60 m).toNat) ∧
      (∀ m, bitAt v60.isr m = true → v60.smm = true ∧ bitAt v60.imr m = true) ∧
      (bitAt (0x02 : Byte) 1 = true ∧
        ∀ m, bitAt (0x02 : Byte) m = true → ({ v60 with smm := true, imr := 2 } : Pic).smm = true ∧ bitAt (0x02 : Byte) m = true) := by
  decide +kernel

theorem test_meets_OperationCommandTwo : v60.init = .ready := by decide +kernel

theorem test_meets_MaskDisablesItsLevel :
    v60.init = .ready ∧ bitAt (0xFE : Byte) 7 = true ∧ bitAt (0xFE : Byte) 0 = false ∧ v60.smm = false := by decide +kernel

/-- ESMM = SMM = 1, ESMM = 1 and SMM = 0, ESMM = 0; and a masked level in service beside one that is not. -/
theorem test_meets_SpecialMaskMode :
    ({ v60 with smm := true } : Pic).smm = true ∧ v60.init = .ready ∧ cascade.config.picFull = true ∧
      (∀ d ∈ [0x68#8, 0x48#8, 0x08#8, 0x6F#8], d &&& 0x98#8 = 0x08#8) ∧
      eoiLevel { v60 with smm := true, isr := 3, imr := 1 } = some 1 := by decide +kernel

theorem test_meets_RegisterReads :
    (Pic.powerOn true).init = .uninit ∧ v60.init ≠ .uninit ∧ v60.poll = false ∧ ({ v60 with poll := true } : Pic).poll = true ∧
      v60.init = .ready := by decide +kernel

theorem test_meets_PollReads :
    cascade.config.picFull = true ∧ v60.init = .ready ∧ winner (irChange 0 true v60) = some 0 ∧ winner v60 = none := by
  decide +kernel

theorem test_meets_RotationMakesALevelLowest :
    (7 : Level) ≠ 0 ∧ aeoiMode { v60 with aeoi := true, autoRotate := true } = true ∧
      ({ v60 with aeoi := true, autoRotate := true } : Pic).autoRotate = true := by decide +kernel

/-- The winner with a slave on it; and, with input 0 requesting too, the winner that has none. -/
theorem test_meets_CascadedAcknowledge :
    CascadeInv cascade ∧ cascade.config.picPresent = true ∧ cascade.config.picSpurious = false ∧
      cascade.pic.init = .ready ∧
      cascade.pic.upm = true ∧ cascade.pic.sngl = false ∧ isMaster cascade.pic = true ∧ winner cascade.pic = some 2 ∧
      bitAt cascade.pic.s 2 = true ∧
      (cascade.slaves.filter fun x => answers 2 x.chip) = [{ line := 2, base := 0xA0, chip := cascadeSlave }] ∧
      cascadeSlave.upm = true ∧ winner cascadeSlave = some 1 ∧
      CascadeInv { cascade with pic := { cascadeMaster with ir := 5, edge := 5 } } ∧
      winner { cascadeMaster with ir := 5, edge := 5 } = some 0 ∧ bitAt cascadeMaster.s 0 = false := by
  unfold CascadeInv
  decide +kernel

theorem test_meets_PicRefusesByName :
    (Pic.powerOn true).init = .uninit ∧ (0x20#8).getLsbD 4 = false ∧
      (({ v60 with init := .wantICW3 } : Pic).init ≠ .uninit ∧ ({ v60 with init := .wantICW3 } : Pic).init ≠ .ready) ∧
      (v60.init = .ready ∧ 0xEF#8 &&& 0x98#8 = 0x88#8) ∧ configAtReset.picFull = false ∧
      ((0x11#8).getLsbD 4 = true ∧ (0x11#8).getLsbD 1 = false) ∧
      ((0x12#8).getLsbD 4 = true ∧ (0x12#8).getLsbD 1 = true ∧ (0x12#8).getLsbD 0 = false) ∧
      (({ v60 with init := .wantICW4 } : Pic).init = .wantICW4 ∧ (0x10#8).extractLsb' 5 3 = 0 ∧ (0x10#8).getLsbD 0 = false) ∧
      ((0x11#8).extractLsb' 5 3 = 0 ∧ (0x11#8).getLsbD 0 = true ∧ (0x11#8).getLsbD 4 = true) ∧
      0x6C#8 &&& 0xF8#8 = 0x68#8 ∧ (0x4C#8 &&& 0x9C#8 = 0x0C#8 ∧ 0x4C#8 &&& 0x60#8 ≠ 0x60#8) := by decide +kernel

/-- A slave's ICW3 with and without an ICW4 to follow, and the acknowledge. -/
theorem test_meets_PicRefusesByName_U14 :
    ({ cascadeSlave with init := .wantICW3, ic4 := false } : Pic).ic4 = false ∧ cascadeSlave.sngl = false ∧
      isMaster cascadeSlave = false ∧ (0x0A#8).extractLsb' 3 5 ≠ 0 ∧ (0x02#8).extractLsb' 3 5 = 0 ∧
      isMaster cascadeMaster = true ∧ cascadeSlave.ic4 = true ∧
      (0x21#8).extractLsb' 5 3 ≠ 0 ∧ cascade.config.picFull = true ∧
      (∀ a ∈ [(0x09#8, true), (0x09#8, false), (0x01#8, false)], (a.1).extractLsb' 5 3 = 0 ∧
        (if (a.1).getLsbD 3 = true then (a.1).getLsbD 2 else a.2) = false) ∧
      (boardAdmitted { cascade with config := { cascade.config with picCount := 1 } } = false ∧
        boardAdmitted cascade = true ∧ cascade.config.picPresent = true) := by decide +kernel

end Sys2Proof.Machine.Tests
end

section
/-! The memory statements (20_memory.md): when two logical addresses name the same byte, and that a byte written is
read back. -/

namespace Sys2Proof.Machine

/-- A paragraph more in the segment is 16 more in the offset, where neither word wraps (R40). -/
theorem phys_succ_seg {seg off : Word} (hseg : seg ≠ 0xFFFF) (hoff : off.toNat + 16 < 2 ^ 16) :
    phys (seg + 1) off = phys seg (off + 16) := by
  have hsegNat : (seg + 1).toNat = seg.toNat + 1 := by bv_omega
  have hoffNat : (off + 16).toNat = off.toNat + 16 := by bv_omega
  apply BitVec.eq_of_toNat_eq
  rw [phys_toNat, phys_toNat, hsegNat, hoffNat]
  omega

/-- A write to a writable byte is accepted: no other check stands in its way (R40, R44). -/
theorem exists_writeByte_eq_next {a : Addr} {s : State} (hw : writableAt s.config a = true) (v : Byte) :
    ∃ t, writeByte a v s = .next t :=
  ⟨_, writeByte_eq_next.2 ⟨hw, rfl⟩⟩

/-- The byte a write put is read back at its address (R44). -/
theorem writeByte_readBack {a : Addr} {v : Byte} {s t : State} (h : writeByte a v s = .next t) :
    readByte a t = .next v := by
  obtain ⟨hw, rfl⟩ := writeByte_eq_next.1 h
  exact readByte_eq_next.2 ⟨writableAt_existsAt hw, memGet_memPut_same a.toNat v s.mem⟩

/-- Settles O6: the formula is `phys_toNat`, the other names of a byte `phys_succ_seg`, and a write to a writable byte is
accepted and read back. -/
theorem physicalAddressFormation : Obligations.PhysicalAddressFormation := by
  refine ⟨phys_toNat, by decide, fun _ _ => phys_succ_seg, fun seg off v s hw => ?_⟩
  obtain ⟨t, ht⟩ := exists_writeByte_eq_next hw v
  exact ⟨t, ht, writeByte_readBack ht⟩

end Sys2Proof.Machine
end

section
/-! The fetch statement (30_encoding.md): the bytes of an instruction, lying where the fetch reads, are fetched as that
instruction. -/

namespace Sys2Proof.Machine

theorem lengthByFirstByte_statement (i : Instr) : Laws.LengthByFirstByte.Statement i :=
  match i with
  | .int3 => Laws.LengthByFirstByte.int3
  | .intN n => Laws.LengthByFirstByte.intN n
  | .into => Laws.LengthByFirstByte.into
  | .iret => Laws.LengthByFirstByte.iret
  | .cli => Laws.LengthByFirstByte.cli
  | .sti => Laws.LengthByFirstByte.sti

/-- An encoding decodes to its instruction, whatever bytes follow (R62). -/
theorem decode_encode_append (i : Instr) (rest : List Byte) : decode (encode i ++ rest) = .ok (i, rest) := by
  cases i <;> rfl

theorem fetchAddr_zero (s : State) : fetchAddr 0 s = phys s.cs s.ip := by
  simp [fetchAddr]

theorem fetchAddr_one (s : State) : fetchAddr 1 s = phys s.cs (s.ip + 1) := rfl

/-- `fetchBytes` answers a non-empty list exactly when each of its bytes is read where it lies (R68). -/
theorem fetchBytes_succ_eq_next {k n : Nat} {b : Byte} {rest : List Byte} {s : State} :
    fetchBytes k (n + 1) s = .next (b :: rest) ↔
      readByte (fetchAddr k s) s = .next b ∧ fetchBytes (k + 1) n s = .next rest := by
  simp [fetchBytes, andThen_eq_next]

/-- The first byte selects the length (R60), so the fetch reads the encoding and no more, and decodes it back. -/
theorem fetch_of_fetchBytes {s : State} {i : Instr} (h : fetchBytes 0 i.length s = .next (encode i)) :
    fetch s = .next i := by
  obtain ⟨first, rest, henc, hlen, hsucc, -⟩ := lengthByFirstByte_statement i
  rw [henc, hsucc] at h
  obtain ⟨hfirst, hrest⟩ := fetchBytes_succ_eq_next.1 h
  have hdec : decode (first :: rest) = .ok (i, []) := by
    rw [← henc, ← List.append_nil (encode i), decode_encode_append]
  simp only [fetch, hfirst, andThen_next, hlen, hsucc, Nat.add_sub_cancel, hrest, hdec]

/-- A one-byte instruction whose byte is read at Phys(CS, IP) is fetched. -/
theorem fetch_of_encode_singleton {s : State} {i : Instr} {b : Byte} (henc : encode i = [b])
    (hb : readByte (phys s.cs s.ip) s = .next b) : fetch s = .next i := by
  apply fetch_of_fetchBytes
  rw [Instr.length, henc]
  exact fetchBytes_succ_eq_next.2 ⟨by rwa [fetchAddr_zero], rfl⟩

/-- A two-byte instruction whose bytes are read at Phys(CS, IP) and Phys(CS, IP + 1) is fetched. -/
theorem fetch_of_encode_pair {s : State} {i : Instr} {b0 b1 : Byte} (henc : encode i = [b0, b1])
    (h0 : readByte (phys s.cs s.ip) s = .next b0) (h1 : readByte (phys s.cs (s.ip + 1)) s = .next b1) :
    fetch s = .next i := by
  apply fetch_of_fetchBytes
  rw [Instr.length, henc]
  exact fetchBytes_succ_eq_next.2
    ⟨by rwa [fetchAddr_zero], fetchBytes_succ_eq_next.2 ⟨by rwa [fetchAddr_one], rfl⟩⟩

/-- Settles O2: byte 0 read at Phys(CS, IP) is a row's encoding, or CDH and the immediate behind it are. -/
theorem fetchFollowsTheOpcodeMap : Obligations.FetchFollowsTheOpcodeMap := by
  refine ⟨fun s b0 h0 => ⟨?_, fun b1 hb0 h1 => ?_, ?_, ?_, ?_, ?_⟩, fun i => by cases i <;> rfl⟩
  case refine_2 => exact fetch_of_encode_pair (hb0 ▸ rfl) h0 h1
  all_goals exact fun hb0 => fetch_of_encode_singleton (hb0 ▸ rfl) h0

end Sys2Proof.Machine
end

section
/-! The software interrupts (40_software_interrupts.md): each answer of `exec` as a sequence that starts with IP past the
instruction, and that such a sequence completes wherever it would have completed from the instruction itself. -/

namespace Sys2Proof.Machine

/-- INT 3 is a sequence of type 3 after one byte (R71). -/
theorem exec_int3 (s : State) : exec .int3 s = interruptSequence 3 (advanceIp 1 s) := rfl

/-- INT n is a sequence of type n after two bytes (R70). -/
theorem exec_intN (n : Byte) (s : State) : exec (.intN n) s = interruptSequence n (advanceIp 2 s) := rfl

/-- A taken INTO is a sequence of type 4 after one byte (R72). -/
theorem exec_into_of_overflow {s : State} (hof : s.flags.OF = true) :
    exec .into s = interruptSequence 4 (advanceIp 1 s) :=
  if_pos hof

/-- An INTO not taken only advances IP (R72). -/
theorem exec_into_of_no_overflow {s : State} (hof : s.flags.OF = false) : exec .into s = .next (advanceIp 1 s) :=
  if_neg (Bool.eq_false_iff.1 hof)

/-- Room for the frame is a matter of SS, SP and the launch memory, not of IP (R43, R47). -/
theorem frameRoom_advanceIp {len : Nat} {s : State} : FrameRoom (advanceIp len s) ↔ FrameRoom s := Iff.rfl

/-- Nor does a readable vector depend on IP (R49, R50). -/
theorem vectorReady_advanceIp {n : Byte} {len : Nat} {s : State} :
    VectorReady n (advanceIp len s) ↔ VectorReady n s := Iff.rfl

/-- Where the frame has room and the vector can be read, a sequence that starts with IP moved on completes, and the IP it
stacks is the moved one (R73). -/
theorem interruptSequence_advanceIp_took {n : Byte} {s : State} (len : Nat) (hr : FrameRoom s) (hv : VectorReady n s) :
    ∃ t, interruptSequence n (advanceIp len s) = .next t ∧ TookInterrupt n (advanceIp len s) t :=
  interruptSequence_took (frameRoom_advanceIp.2 hr) (vectorReady_advanceIp.2 hv)

/-- Of the flags a sequence changes IF and TF only (steps ii and iii of R92). -/
theorem TookInterrupt.flags_eq {n : Byte} {s t : State} (h : TookInterrupt n s t) :
    t.flags = { s.flags with IF := false, TF := false } := by
  rw [h.rest]

/-- Settles O13: each instruction is a sequence after `advanceIp`, which `interruptSequence_advanceIp_took` completes; INTO
is split on OF, which the sequence leaves as it was. -/
theorem softwareInterruptsComplete : Obligations.SoftwareInterruptsComplete := by
  refine fun s => ⟨fun hr n hv => ?intN, fun hr hv => ?int3, fun hof hr hv => ?taken, fun hof => ?notTaken, rfl, rfl,
    fun _ => rfl⟩
  case intN =>
    rw [exec_intN]
    exact interruptSequence_advanceIp_took 2 hr hv
  case int3 =>
    rw [exec_int3]
    exact interruptSequence_advanceIp_took 1 hr hv
  case taken =>
    rw [exec_into_of_overflow hof]
    obtain ⟨t, ht, took⟩ := interruptSequence_advanceIp_took 1 hr hv
    exact ⟨t, ht, took, by rw [took.flags_eq]; exact hof⟩
  case notTaken => exact exec_into_of_no_overflow hof

end Sys2Proof.Machine
end

section
/-! The statement on the six steps of the response (60_exceptions.md rule R92): each cause is an interrupt sequence, so
`interruptSequence_next` says what it leaves and `interruptSequence_completes` where it completes. -/

namespace Sys2Proof.Machine

/-- An INTR taken is the sequence of the type its acknowledge answered, from where the acknowledge left the machine. -/
theorem takeIntr_next {r : Byte × State} {s t : State} (hr : acknowledge s = .next r) (h : takeIntr s = .next t) :
    TookInterrupt r.1 r.2 t := by
  obtain ⟨r', hr', ht⟩ := takeIntr_eq_next.1 h
  obtain rfl : r = r' := Host.Outcome.next.inj (hr.symm.trans hr')
  exact (interruptSequence_next ht).2

/-- Without an 8259A the environment's byte is the type, and nothing changes (R99). -/
theorem acknowledge_without_pic {s : State} (h : s.config.picPresent = false) : acknowledge s = .next (s.intaByte, s) := by
  simp [acknowledge, h]

/-- Room for the frame and a readable vector do not depend on the NMI latch. -/
theorem frameRoom_withNmi {b : Bool} {s : State} : FrameRoom (withNmi b s) ↔ FrameRoom s := Iff.rfl

theorem vectorReady_withNmi {n : Byte} {b : Bool} {s : State} : VectorReady n (withNmi b s) ↔ VectorReady n s := Iff.rfl

theorem takeNmi_completes {s : State} (hr : FrameRoom s) (hv : VectorReady 2 s) : ∃ t, takeNmi s = .next t :=
  interruptSequence_completes (frameRoom_withNmi.2 hr) (vectorReady_withNmi.2 hv)

/-- Without an 8259A an INTR completes where a sequence of the environment's type does. -/
theorem takeIntr_completes {s : State} (hp : s.config.picPresent = false) (hr : FrameRoom s)
    (hv : VectorReady s.intaByte s) : ∃ t, takeIntr s = .next t := by
  obtain ⟨t, ht⟩ := interruptSequence_completes hr hv
  exact ⟨t, takeIntr_eq_next.2 ⟨_, acknowledge_without_pic hp, ht⟩⟩

/-- Settles O14: the software interrupts are sequences after `advanceIp`, NMI one after the latch is cleared, INTR one
after the acknowledge; divide error and single step are sequences as they stand. -/
theorem everyCauseRunsTheSameSequence : Obligations.EveryCauseRunsTheSameSequence := by
  refine fun s => ⟨fun n t h => ?intN, fun t h => ?int3, fun t hof h => ?into, fun _ => divideError_next,
    fun _ => takeNmi_next, fun _ => takeTrap_next, fun _ _ => takeIntr_next, fun hr =>
    ⟨interruptSequence_completes hr, takeNmi_completes hr, interruptSequence_completes hr,
      fun hp => takeIntr_completes hp hr⟩⟩
  case intN => exact (interruptSequence_next (exec_intN n s ▸ h)).2
  case int3 => exact (interruptSequence_next (exec_int3 s ▸ h)).2
  case into => exact (interruptSequence_next (exec_into_of_overflow hof ▸ h)).2

end Sys2Proof.Machine
end

section
/-! Request sensing and eligibility (60_exceptions.md rules R130, R134, R135, R140): IRR after serving and driving a
line, and eligibility written out in the registers, of which the default mode and special mask mode are two cases. -/

namespace Sys2Proof.Machine

/-! ### Sensing (R134) -/

@[simp] theorem serve_ir (n : Level) (p : Pic) : (serve n p).ir = p.ir := rfl

/-- IRR does not depend on the mask (R130, R134). -/
theorem irr_withMask (p : Pic) (d : Byte) : irr { p with imr := d } = irr p := rfl

/-- In edge-triggered mode a level requests when its edge is latched and its input still high. -/
theorem bitAt_irr_of_edge_triggered {p : Pic} (hl : p.ltim = false) (n : Level) :
    bitAt (irr p) n = (bitAt p.edge n && bitAt p.ir n) := by
  rw [bitAt_irr, if_neg (Bool.eq_false_iff.1 hl)]

/-- Serving a level takes its edge-triggered request away. -/
theorem bitAt_irr_serve {p : Pic} (hl : p.ltim = false) (n : Level) : bitAt (irr (serve n p)) n = false := by
  rw [bitAt_irr_of_edge_triggered (p := serve n p) hl, bitAt_serve_edge, if_pos rfl, Bool.false_and]

/-- In edge-triggered mode an input driven high requests if it was low, or if its edge was latched already. -/
theorem bitAt_irr_irChange_high {p : Pic} (hl : p.ltim = false) (n : Level) :
    bitAt (irr (irChange n true p)) n = (!bitAt p.ir n || bitAt p.edge n) := by
  rw [bitAt_irr_of_edge_triggered (p := irChange n true p) hl, bitAt_irChange_edge, bitAt_irChange_ir]
  cases bitAt p.ir n <;> simp

/-- Settles O47: what a driven line changes is said bit by bit in the model's laws; a served level's edge latch is clear,
so only an input driven high from low requests again. -/
theorem requestSensing : Obligations.RequestSensing := by
  refine fun p n m v => ⟨irChange_eq n v p, bitAt_irChange_ir n m v p, bitAt_irChange_edge n m v p, bitAt_irr p m,
    fun hl => ⟨bitAt_irr_serve hl n, ?stillHigh, ?lowThenHigh⟩, irr_withMask p⟩
  case stillHigh =>
    rw [bitAt_irr_irChange_high (p := serve n p) hl, bitAt_serve_edge, if_pos rfl, Bool.or_false, serve_ir]
  case lowThenHigh =>
    rw [bitAt_irr_irChange_high (p := irChange n false (serve n p)) hl, bitAt_irChange_ir, if_pos rfl]
    rfl

/-! ### Eligibility (R135, R140) -/

/-- Special fully nested mode, written out in the registers (R135, R142). -/
theorem nestsInService_eq_true {p : Pic} {n : Level} :
    nestsInService p n = true ↔ p.sfnm = true ∧ isMaster p = true ∧ p.sngl = false ∧ bitAt p.s n = true := by
  simp [nestsInService, hasSlave, and_assoc]

/-- Eligibility in every mode: no level that is in service and, in special mask mode, not masked has the same or higher
priority, or higher where special fully nested mode lets the same level through (R135, R140). -/
theorem eligible_iff {p : Pic} {n : Level} :
    eligible p n = true ↔ bitAt (irr p) n = true ∧ bitAt p.imr n = false ∧
      ∀ m, bitAt p.isr m = true → (p.smm = false ∨ bitAt p.imr m = false) →
        if nestsInService p n = true then (rank p n).toNat ≤ (rank p m).toNat
        else (rank p n).toNat < (rank p m).toNat := by
  simp only [eligible_eq_true, holdsBack_eq_false, inServiceCounts_eq_true, and_imp]

/-- A level's own mask bit set, it does not win (R130). -/
theorem winner_ne_of_masked {p : Pic} {n : Level} (h : bitAt p.imr n = true) : winner p ≠ some n := by
  intro hw
  obtain ⟨-, hunmasked, -⟩ := eligible_eq_true.1 (winner_eq_some.1 hw).1
  exact Bool.false_ne_true (hunmasked.symm.trans h)

/-- Outside special mask mode a level in service counts whatever the mask (R130, R137). -/
theorem inServiceCounts_withMask {p : Pic} (hsmm : p.smm = false) (d : Byte) (m : Level) :
    inServiceCounts { p with imr := d } m = inServiceCounts p m := by
  simp [inServiceCounts, hsmm]

/-- Outside special mask mode what holds a level back does not depend on the mask (R130). -/
theorem holdsBack_withMask {p : Pic} (hsmm : p.smm = false) (d : Byte) (n m : Level) :
    holdsBack { p with imr := d } n m = holdsBack p n m := by
  unfold holdsBack
  rw [inServiceCounts_withMask hsmm]
  rfl

/-- After ICW1 the ranks are the level numbers: IR0 highest, IR7 lowest (R124, R135). -/
theorem rank_icw1 (c : Config) (d : Byte) (p : Pic) (n : Level) : rank (icw1 c d p) n = n := by
  show n - 7 - 1 = n
  bv_omega

/-- With an 8259A present INTR is its INT output (R98, R135). -/
theorem intrLevel_of_present {s : State} (h : s.config.picPresent = true) : intrLevel s = intOut s.pic :=
  if_pos h

/-- Settles O48: rank, winner and INT are the model's laws; eligibility is `eligible_iff` with special mask mode off. -/
theorem priorityResolution : Obligations.PriorityResolution := by
  refine fun p => ⟨rank_toNat p, fun c d => ⟨rfl, rank_icw1 c d p⟩, fun _ => winner_eq_some, intOut_eq_true,
    fun hsmm n => ?defaultMode, fun s hp hs => hs ▸ intrLevel_of_present hp⟩
  case defaultMode =>
    simp only [eligible_iff, nestsInService_eq_true, hsmm, true_or, true_implies]

end Sys2Proof.Machine
end

section
/-! The acknowledge of a single chip, or of a master's level without a slave (60_exceptions.md rule R136). -/

namespace Sys2Proof.Machine

theorem hasSlave_eq_false {p : Pic} {n : Level} : hasSlave p n = false ↔ p.sngl = true ∨ bitAt p.s n = false := by
  rw [hasSlave, Bool.and_eq_false_iff, Bool.not_eq_false']

theorem acknowledge_with_pic {s : State} (h : s.config.picPresent = true) : acknowledge s = picAcknowledge s :=
  if_pos h

/-- In MCS-80/85 mode the acknowledge is refused (R136, U18). -/
theorem picAcknowledge_mcs {s : State} (hb : boardAdmitted s = true) (hi : s.pic.init ≠ .uninit)
    (hu : s.pic.upm = false) : picAcknowledge s = .refused .picMcsMode := by
  simp [picAcknowledge, hb, hi, hu]

/-- In 8086 mode a winner without a slave is served, and its type is sent (R136). -/
theorem picAcknowledge_winner {s : State} {n : Level} (hb : boardAdmitted s = true)
    (hsp : s.config.picSpurious = false) (hi : s.pic.init ≠ .uninit) (hu : s.pic.upm = true)
    (hw : winner s.pic = some n) (hs : hasSlave s.pic n = false) :
    picAcknowledge s = .next (typeOf s.pic n, settlePics (serve n s.pic) s.slaves s) := by
  simp [picAcknowledge, spuriousNow, hb, hsp, hi, hu, hw, hs]

/-- Serving a level of the chip on INTR changes no slave, and so no input a slave drives. -/
theorem settlePics_serve {s : State} (hc : CascadeInv s) (n : Level) :
    settlePics (serve n s.pic) s.slaves s = { s with pic := serve n s.pic } := by
  obtain ⟨-, -, hlines⟩ := hc
  unfold settlePics
  rw [driveLines_eq_self (p := serve n s.pic) hlines]
  rfl

/-- The type for level `n` is (b and F8H) + n where `b` is the byte of ICW2 (R125, R136). -/
theorem icw2_type_toNat (b : Byte) (p : Pic) : (icw2 b p).t.toNat * 8 = (b &&& 0xF8#8).toNat := by
  show (b.extractLsb' 3 5).toNat * 8 = _
  revert b
  decide

/-- Settles O49: the answer is `typeOf` and the chip is `serve`, in which automatic EOI mode is as ICW4 says because the
chip is single or a master. -/
theorem acknowledgeServesTheWinner : Obligations.AcknowledgeServesTheWinner := by
  intro s hc hp hsp hi
  rw [acknowledge_with_pic hp]
  refine ⟨picAcknowledge_mcs hc.1 hi, fun n hu hrole hw => ?_⟩
  have hslave : hasSlave s.pic n = false := hasSlave_eq_false.2 (hrole.imp_right And.right)
  have haeoi : aeoiMode s.pic = s.pic.aeoi := aeoiMode_eq (.inr (hrole.imp_right And.left))
  refine ⟨typeOf s.pic n, serve n s.pic, ?answer, typeOf_toNat s.pic n, ?vector, fun b ht => ?icw2, rfl,
    fun m => ?isr, fun m => bitAt_serve_edge n m s.pic, ?lowest⟩
  case answer => rw [picAcknowledge_winner hc.1 hsp hi hu hw hslave, settlePics_serve hc]
  case vector => rw [vectorAddr_toNat, typeOf_toNat]
  case icw2 => rw [typeOf_toNat, ht, icw2_type_toNat]
  case isr => rw [bitAt_serve_isr, haeoi]
  case lowest => simp [serve, haeoi]

end Sys2Proof.Machine
end

section
/-! The operation command words and the register reads of a ready 8259A (60_exceptions.md rules R130 to R133, R140): which
command a byte is, and what that command does. -/

namespace Sys2Proof.Machine

/-! ### Which command word a byte is (R122) -/

theorem chipWrite_ocw1 {p : Pic} (h : p.init = .ready) (c : Config) (d : Byte) :
    chipWrite c true d p = .next (ocw1 d p) := by
  simp [chipWrite, h]

theorem chipWrite_ocw2 {p : Pic} (h : p.init = .ready) (c : Config) {d : Byte} (h4 : d.getLsbD 4 = false)
    (h3 : d.getLsbD 3 = false) : chipWrite c false d p = .next (ocw2 d p) := by
  simp [chipWrite, h, h4, h3, -BitVec.getLsbD_eq_getElem]

theorem chipWrite_ocw3 {p : Pic} (h : p.init = .ready) (c : Config) {d : Byte} (h4 : d.getLsbD 4 = false)
    (h3 : d.getLsbD 3 = true) : chipWrite c false d p = writeOcw3 c d p := by
  simp [chipWrite, h, h4, h3, -BitVec.getLsbD_eq_getElem]

/-- With every mode admitted an OCW3 is refused for D7 only (R132, R144). -/
theorem writeOcw3_of_full {c : Config} (hf : c.picFull = true) {d : Byte} (h7 : d.getLsbD 7 = false) (p : Pic) :
    writeOcw3 c d p = .next (ocw3 d p) := by
  simp [writeOcw3, hf, h7, -BitVec.getLsbD_eq_getElem]

/-! ### OCW2 (R131) -/

/-- A level in the low bits leaves R, SL, EOI and the two bits that make a byte an OCW2 as the command has them. -/
theorem commandBits_or_level (v : Byte) (l : Level) :
    (v ||| l.setWidth 8).getLsbD 7 = v.getLsbD 7 ∧ (v ||| l.setWidth 8).getLsbD 6 = v.getLsbD 6 ∧
    (v ||| l.setWidth 8).getLsbD 5 = v.getLsbD 5 ∧ (v ||| l.setWidth 8).getLsbD 4 = v.getLsbD 4 ∧
    (v ||| l.setWidth 8).getLsbD 3 = v.getLsbD 3 := by
  simp

/-- L2 to L0 of a command with a level in its low bits are that level over the command's own three bits. -/
theorem extractLsb'_or_level (v : Byte) (l : Level) :
    (v ||| l.setWidth 8).extractLsb' 0 3 = v.extractLsb' 0 3 ||| l := by
  rw [BitVec.extractLsb'_or]
  congr 1
  revert l
  decide

/-- A command of OCW2 with any level in its low bits is taken as one. -/
theorem chipWrite_ocw2_level {p : Pic} (h : p.init = .ready) (c : Config) (l : Level) {v : Byte}
    (h4 : v.getLsbD 4 = false) (h3 : v.getLsbD 3 = false) :
    chipWrite c false (v ||| l.setWidth 8) p = .next (ocw2 (v ||| l.setWidth 8) p) :=
  have ⟨_, _, _, bit4, bit3⟩ := commandBits_or_level v l
  chipWrite_ocw2 h c (bit4.trans h4) (bit3.trans h3)

/-- Settles O53: the row a byte selects is fixed by its three high bits, and the level is its three low ones. -/
theorem operationCommandTwo : Obligations.OperationCommandTwo := by
  intro c p l h
  refine ⟨?_, ?_, ?_, ?_, ?_, ?_, ?_, ?_⟩
  all_goals
    rw [chipWrite_ocw2_level h c l (by decide) (by decide)]
    simp [ocw2, commandBits_or_level, extractLsb'_or_level, -BitVec.getLsbD_eq_getElem, -BitVec.getLsbD_or]

/-! ### OCW1 (R130) -/

/-- Settles O54: OCW1 loads the mask, on which neither IRR nor, outside special mask mode, `holdsBack` depends. -/
theorem maskDisablesItsLevel : Obligations.MaskDisablesItsLevel := by
  refine fun c p d h => ⟨chipWrite_ocw1 h c d, irr_withMask p d, fun n =>
    ⟨winner_ne_of_masked (p := { p with imr := d }), fun hsmm hd => ?_⟩⟩
  rw [eligible_eq_true, irr_withMask]
  simp only [holdsBack_withMask hsmm, hd, true_and]

/-! ### OCW3 (R132, R140) -/

/-- A byte whose bits D7, D4 and D3 are 0, 0 and 1 is an OCW3 (R132). -/
theorem ocw3_bits_of_mask {d : Byte} (h : d &&& 0x98#8 = 0x08#8) :
    d.getLsbD 7 = false ∧ d.getLsbD 4 = false ∧ d.getLsbD 3 = true := by
  revert d
  decide

/-- Settles O55: eligibility is `eligible_iff` with the mode on; an OCW3 loads the mode; the level a non-specific EOI ends
is one that counts. -/
theorem specialMaskMode : Obligations.SpecialMaskMode := by
  refine ⟨fun p n hsmm => ?eligibility, fun c p h hf => ⟨fun d hd => ?switch, fun n hsmm he => ?eoi⟩⟩
  case eligibility => simp only [eligible_iff, hsmm, Bool.true_eq_false, false_or]
  case switch =>
    obtain ⟨h7, h4, h3⟩ := ocw3_bits_of_mask hd
    exact ⟨ocw3 d p, by rw [chipWrite_ocw3 h c h4 h3, writeOcw3_of_full hf h7], rfl⟩
  case eoi =>
    obtain ⟨hisr, hmask⟩ := inServiceCounts_eq_true.1 ((find_byPriority p _ n).1 he).1
    exact ⟨hisr, hmask.resolve_left (by simp [hsmm])⟩

/-! ### Reads (R133) -/

theorem chipRead_uninit {p : Pic} (h : p.init = .uninit) (free : Byte) (a0 : Bool) :
    chipRead free a0 p = .refused .picReadBeforeIcw1 :=
  if_pos h

theorem chipRead_mask {p : Pic} (h : p.init ≠ .uninit) (free : Byte) : chipRead free true p = .next (p.imr, p) := by
  simp [chipRead, h]

theorem chipRead_register {p : Pic} (h : p.init ≠ .uninit) (hp : p.poll = false) (free : Byte) :
    chipRead free false p = .next (if p.readIsr = true then p.isr else irr p, p) := by
  cases hr : p.readIsr <;> simp [chipRead, h, hp, hr]

theorem chipRead_poll {p : Pic} (h : p.init ≠ .uninit) (hp : p.poll = true) (free : Byte) :
    chipRead free false p = .next (pollWord free { p with poll := false }) := by
  simp [chipRead, h, hp]

/-- An OCW3 that only selects a register is admitted whatever the parameters, and changes the selection alone (R132). -/
theorem chipWrite_select {p : Pic} (h : p.init = .ready) (c : Config) :
    chipWrite c false 0x0B p = .next { p with readIsr := true } ∧
      chipWrite c false 0x0A p = .next { p with readIsr := false } := by
  rw [chipWrite_ocw3 h c (by decide) (by decide), chipWrite_ocw3 h c (by decide) (by decide)]
  simp [writeOcw3, ocw3]

/-- Settles O56: one lemma per kind of read, and the two OCW3 bytes that select a register. -/
theorem registerReads : Obligations.RegisterReads :=
  fun free _ => ⟨fun h => chipRead_uninit h free,
    fun h => ⟨chipRead_mask h free, fun hp => chipRead_register h hp free, fun hp => chipRead_poll h hp free⟩,
    fun c h => chipWrite_select h c⟩

end Sys2Proof.Machine
end

section
/-! Decoding and the turn that runs what was decoded (30_encoding.md; 60_exceptions.md, `Step()`). -/

namespace Sys2Proof.Machine

/-! ### Decode and encode (R60 to R63) -/

/-- The operand's type holds the 256 legal values and no other (R61). -/
theorem wellFormed_eq_true (i : Instr) : i.wellFormed = true := by
  cases i with
  | intN n =>
    have hn := n.isLt
    simp only [Instr.wellFormed, decide_eq_true_eq]
    omega
  | _ => rfl

/-- What decoding can answer: the bytes were the instruction's encoding and what is left (R62). -/
theorem eq_encode_append_of_decode {i : Instr} {bytes rest : List Byte} (h : decode bytes = .ok (i, rest)) :
    bytes = encode i ++ rest := by
  cases bytes with
  | nil => cases h
  | cons first tail =>
    simp only [decode] at h
    split at h
    · next hb => cases h; subst hb; rfl
    split at h
    · next hb =>
      cases tail with
      | nil => cases h
      | cons n tail => cases h; subst hb; rfl
    split at h
    · next hb => cases h; subst hb; rfl
    split at h
    · next hb => cases h; subst hb; rfl
    split at h
    · next hb => cases h; subst hb; rfl
    split at h
    · next hb => cases h; subst hb; rfl
    · cases h

/-- Settles O3: an encoding decodes to its instruction whatever follows, and decoding answers nothing else. -/
theorem decodeInvertsEncode : Obligations.DecodeInvertsEncode := by
  refine fun i bytes rest => ⟨fun h => ⟨wellFormed_eq_true i, eq_encode_append_of_decode h⟩, ?_⟩
  rintro ⟨-, rfl⟩
  exact decode_encode_append i rest

/-- Settles O1: each list of bytes is an encoding with nothing behind it. -/
theorem writtenOutWordsDecode : Obligations.WrittenOutWordsDecode :=
  ⟨decode_encode_append .int3 [], decode_encode_append (.intN 0x21) [], decode_encode_append (.intN 3) [],
    decode_encode_append (.intN 255) [], decode_encode_append .into [], decode_encode_append .iret [],
    decode_encode_append .cli [], decode_encode_append .sti []⟩

/-! ### The fetch of other bytes (R63) -/

/-- A byte that begins no encoding selects no length (R60, R63). -/
theorem instrLength?_eq_none {b : Byte} (h : b ∉ [0xCC#8, 0xCD#8, 0xCE#8, 0xCF#8, 0xFA#8, 0xFB#8]) :
    instrLength? b = none := by
  simp only [List.mem_cons, List.not_mem_nil, or_false, not_or] at h
  simp [instrLength?, h]

/-- A first byte outside the map is refused with its address (R63). -/
theorem fetch_outOfScope {s : State} {b : Byte} (hb : readByte (phys s.cs s.ip) s = .next b)
    (hl : instrLength? b = none) : fetch s = .refused (.opcodeOutOfScope b (phys s.cs s.ip)) := by
  simp only [fetch, fetchAddr_zero, hb, andThen_next, hl]

/-- A turn whose fetch is refused is refused alike. -/
theorem processorStep_refused {s : State} {r : Refusal} (hr : s.resetPin = false) (hf : fetch s = .refused r) :
    processorStep s = .refused r := by
  simp [processorStep, hr, hf]

/-- Settles O4: the byte selects no length, so the fetch refuses it, and the turn with it. -/
theorem otherFirstBytesAreRefused : Obligations.OtherFirstBytesAreRefused := by
  intro s b hr ha hb hout
  rw [step_idle ha]
  exact processorStep_refused hr (fetch_outOfScope hb (instrLength?_eq_none hout))

/-! ### A turn with the bytes of an instruction at CS:IP (R68, R101) -/

/-- Bytes that each read where they lie are fetched in one go (R68). -/
theorem fetchBytes_of_reads {s : State} {bytes : List Byte} {k : Nat}
    (h : ∀ j b, bytes[j]? = some b → readByte (fetchAddr (k + j) s) s = .next b) :
    fetchBytes k bytes.length s = .next bytes := by
  induction bytes generalizing k with
  | nil => rfl
  | cons b bytes ih =>
    refine fetchBytes_succ_eq_next.2 ⟨h 0 b rfl, ih fun j b' hj => ?_⟩
    rw [Nat.add_assoc, Nat.add_comm 1 j]
    exact h (j + 1) b' hj

/-- Bytes at CS:IP that decode with nothing left are fetched as their instruction. -/
theorem fetch_of_decode {s : State} {bytes : List Byte} {i : Instr} (hd : decode bytes = .ok (i, []))
    (h : ∀ k b, bytes[k]? = some b → readByte (fetchAddr k s) s = .next b) : fetch s = .next i := by
  obtain rfl : bytes = encode i := by simpa using eq_encode_append_of_decode hd
  exact fetch_of_fetchBytes (fetchBytes_of_reads fun j b hj => by rw [Nat.zero_add]; exact h j b hj)

/-- Settles O5: the bytes are fetched as `i`, from the agenda's turn as from an empty agenda. -/
theorem stepRunsTheDecodedInstruction : Obligations.StepRunsTheDecodedInstruction := by
  intro s bytes i hr hd h
  have hf : fetch s = .next i := fetch_of_decode hd h
  refine ⟨fun ha => ?idle, fun rest ha => ?agenda⟩
  case idle =>
    rw [step_idle ha, processorStep_run hr hf, ← runsSequence_withTfBefore i s.flags.TF s]
    rfl
  case agenda =>
    have hf' : fetch (withAgenda rest s) = .next i := by rw [fetch_withAgenda, hf]
    rw [step_move ha, takeMove, processorStep_run (s := withAgenda rest s) hr hf', ← runsSequence_withAgenda i rest s,
      ← runsSequence_withTfBefore i s.flags.TF (withAgenda rest s)]
    rfl

end Sys2Proof.Machine
end

section
/-! What a step can do, said once for the statements about every step (60_exceptions.md rule R101, 00_scope.md rule R9):
the kinds of step, the frames of an instruction, a boundary and a move of the environment, and from them the whole-machine
statements about registers, flags and the shadow. -/

namespace Sys2Proof.Machine

/-! ### The kinds of step -/

theorem withAgenda_eq_self {l : List Move} {s : State} (h : s.agenda = l) : withAgenda l s = s := by
  subst h
  rfl

/-- The state in which a turn's instruction begins: its move is used up and TF is sampled (R101). -/
def turnStart (l : List Move) (s : State) : State :=
  withTfBefore s.flags.TF (withAgenda l s)

/-- What a step from `s` to `t` is, `l` being the moves left: a reset, an instruction fetched, one of the three turns out
of scope, or a move of the environment. -/
inductive StepTaken (s t : State) : Prop
  | reset (l : List Move) (hr : s.resetPin = true) (ht : t = resetEvent (withAgenda l s))
  | run (l : List Move) (i : Instr) (hr : s.resetPin = false) (ha : s.agenda = [] ∨ s.agenda = .processor :: l)
      (hf : fetch s = .next i) (ht : runInstr i (turnStart l s) = .next t)
  | divideError (l : List Move) (len : Nat) (wide : Bool) (u : State) (ha : s.agenda = .divideError len wide :: l)
      (hu : interruptSequence 0 (withDividendLost wide (advanceIp len (turnStart l s))) = .next u)
      (ht : boundary true u = .next t)
  | portWrite (l : List Move) (len : Nat) (port : Word) (d : Byte) (u : State) (ha : s.agenda = .portWrite len port d :: l)
      (hu : portWrite port d (advanceIp len (turnStart l s)) = .next u) (ht : boundary false u = .next t)
  | portRead (l : List Move) (len : Nat) (port : Word) (u : State) (ha : s.agenda = .portRead len port :: l)
      (hu : portRead port (advanceIp len (turnStart l s)) = .next u) (ht : boundary false (withAl u.ioData u) = .next t)
  | drive (l : List Move) (m : Move) (ha : s.agenda = m :: l) (hm : isTurn m = false)
      (ht : takeMove m (withAgenda l s) = .next t)

theorem stepTaken_of_processorStep {l : List Move} {s t : State} (ha : s.agenda = [] ∨ s.agenda = .processor :: l)
    (h : processorStep (withAgenda l s) = .next t) : StepTaken s t := by
  rcases processorStep_eq_next.1 h with ⟨hr, ht⟩ | ⟨hr, i, hf, ht⟩
  · exact .reset l hr ht
  · exact .run l i hr ha (by rwa [fetch_withAgenda] at hf) ht

/-- What a step can answer, by its kind. -/
theorem stepTaken_of_step {s t : State} (h : step s = .next t) : StepTaken s t := by
  rcases step_eq_next.1 h with ⟨ha, ht⟩ | ⟨m, l, ha, ht⟩
  · rw [← withAgenda_eq_self ha] at ht
    exact stepTaken_of_processorStep (.inl ha) ht
  cases m with
  | processor => exact stepTaken_of_processorStep (.inr ha) ht
  | divideError len wide =>
    rw [takeMove_divideError] at ht
    rcases outsideTurn_eq_next.1 ht with ⟨hr, ht⟩ | ⟨-, u, hu, ht⟩
    · exact .reset l hr ht
    · exact .divideError l len wide u ha hu ht
  | portWrite len port d =>
    rw [takeMove_portWrite] at ht
    rcases outsideTurn_eq_next.1 ht with ⟨hr, ht⟩ | ⟨-, u, hu, ht⟩
    · exact .reset l hr ht
    · exact .portWrite l len port d u ha hu ht
  | portRead len port =>
    rw [takeMove_portRead] at ht
    rcases outsideTurn_eq_next.1 ht with ⟨hr, ht⟩ | ⟨-, u, hu, ht⟩
    · exact .reset l hr ht
    · obtain ⟨v, hv, hu⟩ := andThen_eq_next.1 hu
      cases hu
      exact .portRead l len port v ha hv ht
  | nmi v => exact .drive l _ ha rfl ht
  | intr v => exact .drive l _ ha rfl ht
  | inta n => exact .drive l _ ha rfl ht
  | ir id n v => exact .drive l _ ha rfl ht
  | reset v => exact .drive l _ ha rfl ht

/-! ### Frames -/

/-- What no instruction writes: everything but SP, CS, IP, the flags, memory, the shadow and the count of draws. -/
theorem exec_frame {i : Instr} {s t : State} (h : exec i s = .next t) :
    t = { s with
      regs := { s.regs with sp := t.regs.sp }
      cs := t.cs, ip := t.ip, flags := t.flags, mem := t.mem, stiShadow := t.stiShadow, draws := t.draws } := by
  rcases exec_cases h with ⟨-, -, -, -, n, len, hs⟩ | ⟨-, ⟨-, -, rfl⟩ | ⟨-, hret⟩ | ⟨-, rfl⟩ | ⟨-, rfl⟩⟩
  · rw [(interruptSequence_next hs).2.rest]
    rfl
  · rfl
  · obtain ⟨-, -, -, i, c, w, -, -, -, rfl⟩ := interruptReturn_eq_next.1 hret
    rfl
  · rfl
  · rfl

/-- Two flag registers that agree on the seven flags besides IF and TF. -/
def SameOtherFlags (f g : Flags) : Prop :=
  g = { f with IF := g.IF, TF := g.TF }

theorem SameOtherFlags.trans {f g k : Flags} (h : SameOtherFlags f g) (h' : SameOtherFlags g k) : SameOtherFlags f k := by
  unfold SameOtherFlags at *
  rw [h', h]

/-- Of the flags every instruction but IRET writes IF and TF only. -/
theorem exec_flags {i : Instr} {s t : State} (h : exec i s = .next t) (hi : i ≠ .iret) :
    SameOtherFlags s.flags t.flags := by
  rcases exec_cases h with ⟨-, -, -, -, n, len, hs⟩ | ⟨-, ⟨-, -, rfl⟩ | ⟨rfl, -⟩ | ⟨-, rfl⟩ | ⟨-, rfl⟩⟩
  · rw [(interruptSequence_next hs).2.flags_eq]
    rfl
  · rfl
  · exact absurd rfl hi
  · rfl
  · rfl

/-- Every instruction but STI and IRET leaves IF clear where it was. -/
theorem exec_IF_clear {i : Instr} {s t : State} (h : exec i s = .next t) (hsti : i ≠ .sti) (hiret : i ≠ .iret)
    (hf : s.flags.IF = false) : t.flags.IF = false := by
  rcases exec_cases h with ⟨-, -, -, -, n, len, hs⟩ | ⟨-, ⟨-, -, rfl⟩ | ⟨rfl, -⟩ | ⟨-, rfl⟩ | ⟨rfl, -⟩⟩
  · rw [(interruptSequence_next hs).2.flags_eq]
  · exact hf
  · exact absurd rfl hiret
  · rfl
  · exact absurd rfl hsti

/-- What sequences, boundaries and accesses to the chips leave: every register but SP, CS and IP, every flag but IF and
TF, the pins, the agenda and the parameters; and they set no IF. -/
structure SequenceFrame (s t : State) : Prop where
  rest : t = { s with
    regs := { s.regs with sp := t.regs.sp }
    flags := { s.flags with IF := t.flags.IF, TF := t.flags.TF }
    cs := t.cs, ip := t.ip, mem := t.mem, nmiPending := t.nmiPending, stiShadow := t.stiShadow
    pic := t.pic, slaves := t.slaves, ioData := t.ioData, draws := t.draws }
  clear : s.flags.IF = false → t.flags.IF = false

theorem SequenceFrame.trans {s t u : State} (h : SequenceFrame s t) (h' : SequenceFrame t u) : SequenceFrame s u where
  rest := by rw [h'.rest, h.rest]
  clear hf := h'.clear (h.clear hf)

theorem SameButPics.sequenceFrame {s t : State} (h : SameButPics s t) : SequenceFrame s t := by
  rw [h]
  exact ⟨rfl, id⟩

theorem TookInterrupt.sequenceFrame {n : Byte} {s t : State} (h : TookInterrupt n s t) : SequenceFrame s t := by
  rw [h.rest]
  exact ⟨rfl, fun _ => rfl⟩

theorem sequenceFrame_carried : CarriedByBoundary SequenceFrame where
  refl _ := ⟨rfl, id⟩
  trans := SequenceFrame.trans
  shadow _ := ⟨rfl, id⟩
  nmi _ := ⟨rfl, id⟩
  ack h := (acknowledge_same h).sequenceFrame
  seq h := (interruptSequence_next h).2.sequenceFrame

theorem boundary_frame {internal : Bool} {s t : State} (h : boundary internal s = .next t) : SequenceFrame s t :=
  sequenceFrame_carried.boundary h

/-- What a move of the environment leaves, RESET's release aside: the registers, flags, memory, shadow, sampled TF, agenda
and parameters (R112). -/
def DriveFrame (s t : State) : Prop :=
  t = { s with
    nmiPending := t.nmiPending, nmiPin := t.nmiPin, intrPin := t.intrPin, intaByte := t.intaByte, resetPin := t.resetPin
    pic := t.pic, slaves := t.slaves, ioData := t.ioData, draws := t.draws }

theorem takeMove_drive {m : Move} {s t : State} (hm : isTurn m = false) (h : takeMove m s = .next t) :
    DriveFrame s t ∨ (s.resetPin = true ∧ ∃ u, t = resetEvent u) := by
  cases m with
  | processor => cases hm
  | divideError len wide => cases hm
  | portWrite len port d => cases hm
  | portRead len port => cases hm
  | nmi v =>
    cases h
    refine .inl ?_
    unfold driveNmi
    split <;> rfl
  | intr v => cases h; exact .inl rfl
  | inta n => cases h; exact .inl rfl
  | ir id n v =>
    cases h
    refine .inl ?_
    rw [driveIr_same id n v s]
    rfl
  | reset v =>
    cases h
    rcases driveReset_eq v s with h | ⟨hr, -, h⟩
    · rw [h]; exact .inl rfl
    · exact .inr ⟨hr, _, h⟩

/-! ### The other registers (R20, R22) -/

/-- Every register but SP, CS and IP is as before. -/
structure SameOtherRegs (s t : State) : Prop where
  regs : t.regs = { s.regs with sp := t.regs.sp }
  ds : t.ds = s.ds
  ss : t.ss = s.ss
  es : t.es = s.es

theorem SameOtherRegs.trans {s t u : State} (h : SameOtherRegs s t) (h' : SameOtherRegs t u) : SameOtherRegs s u where
  regs := by rw [h'.regs, h.regs]
  ds := h'.ds.trans h.ds
  ss := h'.ss.trans h.ss
  es := h'.es.trans h.es

theorem SameOtherRegs.readReg16_eq {s t : State} (h : SameOtherRegs s t) {r : Reg16} (hr : r ∈ untouchedRegs) :
    readReg16 r t = readReg16 r s := by
  obtain ⟨hregs, hds, hss, hes⟩ := h
  cases r with
  | SP => exact absurd hr (by decide)
  | CS => exact absurd hr (by decide)
  | DS => exact hds
  | SS => exact hss
  | ES => exact hes
  | _ => simp only [readReg16]; rw [hregs]

theorem SequenceFrame.otherRegs {s t : State} (h : SequenceFrame s t) : SameOtherRegs s t := by
  rw [h.rest]
  exact ⟨rfl, rfl, rfl, rfl⟩

theorem exec_otherRegs {i : Instr} {s t : State} (h : exec i s = .next t) : SameOtherRegs s t := by
  rw [exec_frame h]
  exact ⟨rfl, rfl, rfl, rfl⟩

theorem DriveFrame.otherRegs {s t : State} (h : DriveFrame s t) : SameOtherRegs s t := by
  rw [h]
  exact ⟨rfl, rfl, rfl, rfl⟩

theorem turnStart_otherRegs (l : List Move) (s : State) : SameOtherRegs s (turnStart l s) := ⟨rfl, rfl, rfl, rfl⟩

theorem advanceIp_otherRegs (len : Nat) (s : State) : SameOtherRegs s (advanceIp len s) := ⟨rfl, rfl, rfl, rfl⟩

/-- A divide error's destination is AX, and in a word division DX (assumption 25). -/
theorem readReg16_withDividendLost {r : Reg16} {wide : Bool} (s : State) (hax : r ≠ .AX)
    (hdx : r = .DX → wide = false) : readReg16 r (withDividendLost wide s) = readReg16 r s := by
  cases r with
  | AX => exact absurd rfl hax
  | DX => rw [hdx rfl]; rfl
  | _ => rfl

/-- Of the 16-bit registers an IN writes AX only. -/
theorem readReg16_withAl {r : Reg16} (v : Byte) (s : State) (hax : r ≠ .AX) :
    readReg16 r (withAl v s) = readReg16 r s := by
  cases r with
  | AX => exact absurd rfl hax
  | _ => rfl

/-- An IN keeps AH. -/
theorem readReg8_AH_withAl (v : Byte) (s : State) : readReg8 .AH (withAl v s) = readReg8 .AH s :=
  highByte_wordOf _ _

theorem SameOtherRegs.ax {s t : State} (h : SameOtherRegs s t) : t.regs.ax = s.regs.ax := by
  rw [h.regs]

theorem SameOtherRegs.readReg8_AH {s t : State} (h : SameOtherRegs s t) : readReg8 .AH t = readReg8 .AH s :=
  congrArg highByte h.ax

/-- Settles O32: every kind of step but the turns of an IN and of a divide error keeps the ten registers, and those two
write what `withAl` and `withDividendLost` write. -/
theorem onlyResetWritesTheOtherRegisters : Obligations.OnlyResetWritesTheOtherRegisters := by
  intro s t h hreset r hr
  have begun (l : List Move) (len : Nat) : SameOtherRegs s (advanceIp len (turnStart l s)) :=
    (turnStart_otherRegs l s).trans (advanceIp_otherRegs len _)
  cases stepTaken_of_step h with
  | reset l hr' => exact absurd (hreset.symm.trans hr') Bool.false_ne_true
  | run l i _ _ _ ht =>
    obtain ⟨u, hu, ht⟩ := runInstr_eq_next.1 ht
    have kept := (turnStart_otherRegs l s).trans ((exec_otherRegs hu).trans (boundary_frame ht).otherRegs)
    exact .inl (kept.readReg16_eq hr)
  | divideError l len wide u ha hu ht =>
    have after := ((interruptSequence_next hu).2.sequenceFrame.trans (boundary_frame ht)).otherRegs
    by_cases hax : r = .AX
    · exact .inr (.inr (.inl ⟨hax, len, wide, l, ha⟩))
    by_cases hdx : r = .DX ∧ wide = true
    · obtain ⟨hdx, rfl⟩ := hdx
      exact .inr (.inr (.inr ⟨hdx, len, l, ha⟩))
    · rw [after.readReg16_eq hr, readReg16_withDividendLost _ hax (by simpa using hdx), (begun l len).readReg16_eq hr]
      exact .inl rfl
  | portWrite l len port d u _ hu ht =>
    have kept := (begun l len).trans ((portWrite_same hu).sequenceFrame.trans (boundary_frame ht)).otherRegs
    exact .inl (kept.readReg16_eq hr)
  | portRead l len port u ha hu ht =>
    have before := (begun l len).trans (portRead_same hu).sequenceFrame.otherRegs
    have after := (boundary_frame ht).otherRegs
    by_cases hax : r = .AX
    · exact .inr (.inl ⟨hax, len, port, l, ha, by rw [after.readReg8_AH, readReg8_AH_withAl, before.readReg8_AH]⟩)
    · rw [after.readReg16_eq hr, readReg16_withAl _ _ hax, before.readReg16_eq hr]
      exact .inl rfl
  | drive l m _ hm ht =>
    obtain hd | ⟨hr', -⟩ := takeMove_drive hm ht
    · exact .inl (hd.otherRegs.readReg16_eq hr)
    · exact absurd (hreset.symm.trans hr') Bool.false_ne_true

/-! ### The flags (R24) -/

/-- After a reset every flag is clear (R34, R170). -/
theorem flagsLoad_zero : flagsLoad 0 = Flags.reset := by decide

/-- Settles O33: of all that a step can run, only STI and IRET set IF. -/
theorem onlyStiAndIretSetIf : Obligations.OnlyStiAndIretSetIf := by
  intro s t h hclear hset
  have clear_after {u : State} {P : Prop} (h : u.flags.IF = false) (hf : SequenceFrame u t) : P :=
    absurd ((hf.clear h).symm.trans hset) Bool.false_ne_true
  cases stepTaken_of_step h with
  | reset l _ ht => rw [ht] at hset; cases hset
  | run l i hr ha hf ht =>
    obtain ⟨u, hu, ht⟩ := runInstr_eq_next.1 ht
    refine ⟨hr, ha.imp_right fun ha => ⟨l, ha⟩, ?_⟩
    by_cases hsti : i = .sti
    · exact .inl (hsti ▸ hf)
    by_cases hiret : i = .iret
    · exact .inr (hiret ▸ hf)
    · exact clear_after (exec_IF_clear hu hsti hiret hclear) (boundary_frame ht)
  | divideError l len wide u _ hu ht =>
    exact clear_after (u := withDividendLost wide (advanceIp len (turnStart l s))) hclear
      ((interruptSequence_next hu).2.sequenceFrame.trans (boundary_frame ht))
  | portWrite l len port d u _ hu ht =>
    exact clear_after (u := advanceIp len (turnStart l s)) hclear
      ((portWrite_same hu).sequenceFrame.trans (boundary_frame ht))
  | portRead l len port u _ hu ht =>
    exact clear_after (u := withAl u.ioData u) ((portRead_same hu).sequenceFrame.clear hclear) (boundary_frame ht)
  | drive l m _ hm ht =>
    obtain hd | ⟨-, u, rfl⟩ := takeMove_drive hm ht
    · rw [hd] at hset
      exact absurd (hclear.symm.trans hset) Bool.false_ne_true
    · cases hset

theorem SequenceFrame.otherFlags {s t : State} (h : SequenceFrame s t) : SameOtherFlags s.flags t.flags := by
  rw [h.rest]
  rfl

/-- A step without reset that fetches no IRET keeps the seven flags. -/
theorem step_otherFlags {s t : State} (h : step s = .next t) (hreset : s.resetPin = false)
    (hiret : fetch s ≠ .next .iret) : SameOtherFlags s.flags t.flags := by
  cases stepTaken_of_step h with
  | reset l hr => exact absurd (hreset.symm.trans hr) Bool.false_ne_true
  | run l i _ _ hf ht =>
    obtain ⟨u, hu, ht⟩ := runInstr_eq_next.1 ht
    have hexec := exec_flags hu fun hi => hiret (hi ▸ hf)
    exact hexec.trans (boundary_frame ht).otherFlags
  | divideError l len wide u _ hu ht =>
    have hseq : SameOtherFlags s.flags u.flags := (interruptSequence_next hu).2.sequenceFrame.otherFlags
    exact hseq.trans (boundary_frame ht).otherFlags
  | portWrite l len port d u _ hu ht =>
    have hport : SameOtherFlags s.flags u.flags := (portWrite_same hu).sequenceFrame.otherFlags
    exact hport.trans (boundary_frame ht).otherFlags
  | portRead l len port u _ hu ht =>
    have hport : SameOtherFlags s.flags u.flags := (portRead_same hu).sequenceFrame.otherFlags
    exact hport.trans (boundary_frame ht).otherFlags
  | drive l m _ hm ht =>
    obtain hd | ⟨hr, -⟩ := takeMove_drive hm ht
    · rw [hd]; rfl
    · exact absurd (hreset.symm.trans hr) Bool.false_ne_true

/-- Settles O34: `step_otherFlags`, flag by flag. -/
theorem onlyIretWritesTheOtherFlags : Obligations.OnlyIretWritesTheOtherFlags := by
  intro s t h hreset hiret
  rw [step_otherFlags h hreset hiret]
  exact ⟨rfl, rfl, rfl, rfl, rfl, rfl, rfl⟩

/-! ### The shadow (R32 (c), R87) -/

theorem noShadow_carried : CarriedByBoundary fun s t => s.stiShadow = false → t.stiShadow = false where
  refl _ := id
  trans h h' := h' ∘ h
  shadow _ _ := rfl
  nmi _ := id
  ack h hs := by rw [acknowledge_same h]; exact hs
  seq h hs := (interruptSequence_next h).2.latches.2.1.trans hs

/-- Every boundary clears the shadow. -/
theorem boundary_clears_shadow {internal : Bool} {s t : State} (h : boundary internal s = .next t) :
    t.stiShadow = false := by
  cases internal with
  | true => exact noShadow_carried.afterSequence (s := withShadow false s) h rfl
  | false => exact noShadow_carried.recognise (s := withShadow false s) h rfl

/-- Settles O43: a turn ends in a boundary or a reset, and both clear the shadow; a move of the environment keeps it. -/
theorem shadowNeverOutlivesItsBoundary : Obligations.ShadowNeverOutlivesItsBoundary := by
  intro s t hs h
  cases stepTaken_of_step h with
  | reset l _ ht => rw [ht]; rfl
  | run l i _ _ _ ht =>
    obtain ⟨u, -, ht⟩ := runInstr_eq_next.1 ht
    exact boundary_clears_shadow ht
  | divideError l len wide u _ _ ht => exact boundary_clears_shadow ht
  | portWrite l len port d u _ _ ht => exact boundary_clears_shadow ht
  | portRead l len port u _ _ ht => exact boundary_clears_shadow ht
  | drive l m _ hm ht =>
    obtain hd | ⟨-, u, rfl⟩ := takeMove_drive hm ht
    · rw [hd]; exact hs
    · rfl

end Sys2Proof.Machine
end

section
/-! What every step keeps (10_state.md; 60_exceptions.md rules R121 to R144): the parameters and the wiring, the form of
memory, each 8259A in step with its initialization sequence, and the slaves' outputs on the master's inputs. -/

namespace Sys2Proof.Machine

/-! ### Memory (R30) -/

/-- The invariant is about the memory and the launch memory alone. -/
theorem MemoryInv.congr {s t : State} (h : MemoryInv s) (hm : t.mem = s.mem) (hc : t.config = s.config) : MemoryInv t := by
  unfold MemoryInv at *
  rwa [hm, hc]

theorem SameButPics.mem {s t : State} (h : SameButPics s t) : t.mem = s.mem := by rw [h]

theorem SameButPics.config {s t : State} (h : SameButPics s t) : t.config = s.config := by rw [h]

theorem exec_memoryInv {i : Instr} {s t : State} (h : exec i s = .next t) (hi : MemoryInv s) : MemoryInv t := by
  rcases exec_cases h with ⟨-, -, -, -, n, len, hs⟩ | ⟨-, ⟨-, -, rfl⟩ | ⟨-, hret⟩ | ⟨-, rfl⟩ | ⟨-, rfl⟩⟩
  · exact interruptSequence_memoryInv hs (hi.congr rfl rfl)
  · exact hi.congr rfl rfl
  · obtain ⟨-, -, -, i, c, w, -, -, -, rfl⟩ := interruptReturn_eq_next.1 hret
    exact hi.congr rfl rfl
  · exact hi.congr rfl rfl
  · exact hi.congr rfl rfl

theorem driveNmi_eq (v : Bool) (s : State) :
    driveNmi v s = { s with nmiPin := v, nmiPending := if v = true ∧ s.nmiPin = false then true else s.nmiPending } := by
  unfold driveNmi
  cases v <;> cases s.nmiPin <;> rfl

theorem memoryInv_carried : CarriedByStep fun s t => MemoryInv s → MemoryInv t where
  refl _ := id
  trans h h' := h' ∘ h
  shadow _ h := h.congr rfl rfl
  nmi _ h := h.congr rfl rfl
  ack hr h := h.congr (acknowledge_same hr).mem (acknowledge_same hr).config
  seq ht h := interruptSequence_memoryInv ht h
  agenda _ _ h := h.congr rfl rfl
  tfBefore _ h := h.congr rfl rfl
  advance _ _ h := h.congr rfl rfl
  exec ht h := exec_memoryInv ht h
  dividend _ _ h := h.congr rfl rfl
  al _ _ h := h.congr rfl rfl
  reset _ _ h := h.congr rfl rfl
  portWrite ht h := h.congr (portWrite_same ht).mem (portWrite_same ht).config
  portRead ht h := h.congr (portRead_same ht).mem (portRead_same ht).config
  driveNmi v s h := by rw [driveNmi_eq]; exact h.congr rfl rfl
  driveIntr _ _ h := h.congr rfl rfl
  driveInta _ _ h := h.congr rfl rfl
  driveIr id n v s h := h.congr (driveIr_same id n v s).mem (driveIr_same id n v s).config
  resetPin _ _ h := h.congr rfl rfl

/-- Settles O40: the only writes to memory are pushes, which keep it. -/
theorem memoryInvariantIsKept : Obligations.MemoryInvariantIsKept :=
  fun _ _ hi h => memoryInv_carried.step h hi

/-! ### What the chips' operations do to the chips -/

/-- A relation that only the chips and the parameters decide is carried by every step if the four operations on the chips
carry it. -/
theorem carriedByStep_of_chips {R : State → State → Prop}
    (same : ∀ {s t : State}, t.config = s.config → t.pic = s.pic → t.slaves = s.slaves → R s t)
    (trans : ∀ {s t u : State}, R s t → R t u → R s u)
    (ack : ∀ {s : State} {r : Byte × State}, acknowledge s = .next r → R s r.2)
    (write : ∀ {port : Word} {d : Byte} {s t : State}, portWrite port d s = .next t → R s t)
    (read : ∀ {port : Word} {s t : State}, portRead port s = .next t → R s t)
    (ir : ∀ id n v s, R s (driveIr id n v s)) : CarriedByStep R where
  refl _ := same rfl rfl rfl
  trans := trans
  shadow _ := same rfl rfl rfl
  nmi _ := same rfl rfl rfl
  ack := ack
  seq h := by
    rw [(interruptSequence_next h).2.rest]
    exact same rfl rfl rfl
  agenda _ _ := same rfl rfl rfl
  tfBefore _ := same rfl rfl rfl
  advance _ _ := same rfl rfl rfl
  exec h := by
    rw [exec_frame h]
    exact same rfl rfl rfl
  dividend _ _ := same rfl rfl rfl
  al _ _ := same rfl rfl rfl
  reset _ _ := same rfl rfl rfl
  portWrite := write
  portRead := read
  driveNmi v s := by
    rw [driveNmi_eq]
    exact same rfl rfl rfl
  driveIntr _ _ := same rfl rfl rfl
  driveInta _ _ := same rfl rfl rfl
  driveIr := ir
  resetPin _ _ := same rfl rfl rfl

/-- What an acknowledge by the 8259A does to the chips: nothing, or it serves a level of the master and perhaps of the
slaves, whose outputs then stand on the master's inputs. -/
theorem picAcknowledge_chips {s : State} {r : Byte × State} (h : picAcknowledge s = .next r) :
    (r.2.pic = s.pic ∧ r.2.slaves = s.slaves) ∨
      ∃ n l, (l = s.slaves ∨ l = serveSlaves n s.slaves) ∧ r.2.pic = driveLines (serve n s.pic) l ∧ r.2.slaves = l := by
  have hs' : ∀ s', s' = (if s.config.picSpurious = true then withDraw s else s) →
      s'.pic = s.pic ∧ s'.slaves = s.slaves := by
    rintro s' rfl
    split <;> exact ⟨rfl, rfl⟩
  unfold picAcknowledge at h
  dsimp only at h
  generalize (if s.config.picSpurious = true then withDraw s else s) = s' at h hs'
  obtain ⟨hpic, hslaves⟩ := hs' s' rfl
  split at h
  · cases h
  split at h
  · cases h
  split at h
  · cases h
  split at h
  · cases h; exact .inl ⟨hpic, hslaves⟩
  split at h
  · cases h; exact .inl ⟨hpic, hslaves⟩
  next n _ =>
  split at h
  · split at h
    · unfold cascadeAcknowledge at h
      dsimp only at h
      split at h
      · cases h
      · rw [hslaves] at h
        split at h <;> cases h
        · exact .inr ⟨n, _, .inr rfl, rfl, rfl⟩
        · exact .inr ⟨n, _, .inr rfl, rfl, rfl⟩
    · cases h
  · cases h
    rw [hslaves]
    exact .inr ⟨n, _, .inl rfl, rfl, rfl⟩

/-- Line and I/O base of each slave, in order: what is wired and not a chip's own (R31, R127). -/
def wiring (l : List Slave) : List (Level × Word) :=
  l.map fun sl => (sl.line, sl.base)

theorem wiring_serveSlaves (n : Level) (l : List Slave) : wiring (serveSlaves n l) = wiring l := by
  simp only [wiring, serveSlaves, List.map_map]
  refine List.map_congr_left fun sl _ => ?_
  simp only [Function.comp_apply]
  split <;> rfl

theorem wiring_setSlave (k : Nat) (p : Pic) (l : List Slave) : wiring (setSlave k p l) = wiring l := by
  apply List.ext_getElem?
  intro j
  simp only [wiring, setSlave, List.getElem?_map, List.getElem?_modify]
  cases l[j]? with
  | none => rfl
  | some sl => by_cases hk : k = j <;> simp [hk]

theorem map_line_eq_of_wiring {l l' : List Slave} (h : wiring l = wiring l') : l.map Slave.line = l'.map Slave.line := by
  have := congrArg (List.map Prod.fst) h
  simpa [wiring, Function.comp_def] using this

theorem map_base_eq_of_wiring {l l' : List Slave} (h : wiring l = wiring l') : l.map Slave.base = l'.map Slave.base := by
  have := congrArg (List.map Prod.snd) h
  simpa [wiring, Function.comp_def] using this

theorem length_eq_of_wiring {l l' : List Slave} (h : wiring l = wiring l') : l.length = l'.length := by
  have := congrArg List.length h
  simpa [wiring] using this

/-- The chips are as before, or the slaves are the same places with their outputs put on the master's inputs. -/
def ChipsSettled (s t : State) : Prop :=
  (t.pic = s.pic ∧ t.slaves = s.slaves) ∨ ((∃ q, t.pic = driveLines q t.slaves) ∧ wiring t.slaves = wiring s.slaves)

theorem setChip_settled (id : ChipId) (p : Pic) (s : State) : ChipsSettled s (setChip id p s) := by
  cases id with
  | master => exact .inr ⟨⟨p, rfl⟩, rfl⟩
  | slave k => exact .inr ⟨⟨s.pic, rfl⟩, wiring_setSlave k p s.slaves⟩

theorem acknowledge_settled {s : State} {r : Byte × State} (h : acknowledge s = .next r) : ChipsSettled s r.2 := by
  unfold acknowledge at h
  split at h
  · rcases picAcknowledge_chips h with hsame | ⟨n, l, hl, hpic, hslaves⟩
    · exact .inl hsame
    · refine .inr ⟨⟨serve n s.pic, hslaves ▸ hpic⟩, ?_⟩
      rw [hslaves]
      rcases hl with rfl | rfl
      · rfl
      · exact wiring_serveSlaves n s.slaves
  · cases h; exact .inl ⟨rfl, rfl⟩

theorem portWrite_settled {port : Word} {d : Byte} {s t : State} (h : portWrite port d s = .next t) :
    ChipsSettled s t := by
  obtain ⟨-, id, a0, p, p', -, -, -, rfl⟩ := portWrite_eq_next.1 h
  exact setChip_settled id p' s

theorem portRead_settled {port : Word} {s t : State} (h : portRead port s = .next t) : ChipsSettled s t := by
  obtain ⟨-, id, a0, p, r, -, -, -, rfl⟩ := portRead_eq_next.1 h
  exact setChip_settled id r.2 (withDraw s)

/-- An environment's change of an input is the change of a chip, or none (R134). -/
theorem driveIr_cases (id : ChipId) (n : Level) (v : Bool) (s : State) :
    driveIr id n v s = s ∨ ∃ p, chipOf id s = some p ∧ driveIr id n v s = setChip id (irChange n v p) s := by
  unfold driveIr
  split
  · exact .inl rfl
  · cases h : chipOf id s with
    | none => exact .inl rfl
    | some p => exact .inr ⟨p, rfl, rfl⟩

theorem driveIr_settled (id : ChipId) (n : Level) (v : Bool) (s : State) : ChipsSettled s (driveIr id n v s) := by
  rcases driveIr_cases id n v s with h | ⟨p, -, h⟩ <;> rw [h]
  · exact .inl ⟨rfl, rfl⟩
  · exact setChip_settled id _ s

theorem ChipsSettled.wiring_eq {s t : State} (h : ChipsSettled s t) : wiring t.slaves = wiring s.slaves := by
  rcases h with ⟨-, h⟩ | ⟨-, h⟩
  · rw [h]
  · exact h

/-! ### Parameters and wiring (R4) -/

theorem parameters_carried : CarriedByStep fun s t => t.config = s.config ∧ wiring t.slaves = wiring s.slaves :=
  carriedByStep_of_chips (fun hc _ hs => ⟨hc, by rw [hs]⟩)
    (fun h h' => ⟨h'.1.trans h.1, h'.2.trans h.2⟩)
    (fun h => ⟨(acknowledge_same h).config, (acknowledge_settled h).wiring_eq⟩)
    (fun h => ⟨(portWrite_same h).config, (portWrite_settled h).wiring_eq⟩)
    (fun h => ⟨(portRead_same h).config, (portRead_settled h).wiring_eq⟩)
    (fun id n v s => ⟨(driveIr_same id n v s).config, (driveIr_settled id n v s).wiring_eq⟩)

/-- Settles O35: the wiring is the line and the base of every slave. -/
theorem noStepChangesTheParameters : Obligations.NoStepChangesTheParameters := by
  intro s t h
  obtain ⟨hc, hw⟩ := parameters_carried.step h
  exact ⟨hc, map_line_eq_of_wiring hw, map_base_eq_of_wiring hw⟩

/-! ### The cascade (R142) -/

/-- Chips settled on the same wiring meet the invariant again: each input has just been given its slave's level. -/
theorem CascadeInv.of_settled {s t : State} (hi : CascadeInv s) (hc : t.config = s.config) (h : ChipsSettled s t) :
    CascadeInv t := by
  obtain ⟨hb, hnd, hlines⟩ := hi
  have hw := h.wiring_eq
  refine ⟨?board, ?nodup, ?levels⟩
  case board =>
    unfold boardAdmitted at *
    rwa [hc, length_eq_of_wiring hw]
  case nodup => rwa [map_line_eq_of_wiring hw]
  case levels =>
    rcases h with ⟨hpic, hslaves⟩ | ⟨⟨q, hq⟩, -⟩
    · rwa [hpic, hslaves]
    · rw [hq]
      exact bitAt_driveLines q t.slaves (by rwa [map_line_eq_of_wiring hw])

theorem cascadeInv_carried : CarriedByStep fun s t => CascadeInv s → CascadeInv t :=
  carriedByStep_of_chips (fun hc hp hs hi => hi.of_settled hc (.inl ⟨hp, hs⟩)) (fun h h' => h' ∘ h)
    (fun h hi => hi.of_settled (acknowledge_same h).config (acknowledge_settled h))
    (fun h hi => hi.of_settled (portWrite_same h).config (portWrite_settled h))
    (fun h hi => hi.of_settled (portRead_same h).config (portRead_settled h))
    (fun id n v s hi => hi.of_settled (driveIr_same id n v s).config (driveIr_settled id n v s))

/-- Settles O42: every change of a chip puts the slaves' outputs on the master's inputs again. -/
theorem cascadeInvariantIsKept : Obligations.CascadeInvariantIsKept :=
  fun _ _ hi h => cascadeInv_carried.step h hi

/-! ### A property of every chip -/

/-- Every chip of the machine has the property. -/
def AllChips (P : Pic → Prop) (s : State) : Prop :=
  P s.pic ∧ ∀ sl ∈ s.slaves, P sl.chip

/-- The accesses to one chip keep the property, under the parameters `c`: a line driven, a level served, a write and a
read. -/
structure KeptByChip (c : Config) (P : Pic → Prop) : Prop where
  line : ∀ n v {p}, P p → P (irChange n v p)
  serve : ∀ n {p}, P p → P (serve n p)
  write : ∀ {a0 d p p'}, chipWrite c a0 d p = .next p' → P p → P p'
  read : ∀ {free a0 p r}, chipRead free a0 p = .next r → P p → P r.2

variable {P : Pic → Prop} {c : Config}

theorem KeptByChip.driveLines (k : KeptByChip c P) {p : Pic} (hp : P p) (l : List Slave) : P (driveLines p l) := by
  unfold Machine.driveLines
  induction l generalizing p with
  | nil => exact hp
  | cons sl l ih => exact ih (k.line sl.line _ hp)

theorem KeptByChip.slaveServe (k : KeptByChip c P) {p : Pic} (hp : P p) : P (slaveServe p) := by
  unfold Machine.slaveServe
  split
  · exact k.serve _ hp
  · exact hp

theorem KeptByChip.serveSlaves (k : KeptByChip c P) (n : Level) {l : List Slave} (hl : ∀ sl ∈ l, P sl.chip) :
    ∀ sl ∈ serveSlaves n l, P sl.chip := by
  intro sl hsl
  obtain ⟨x, hx, rfl⟩ := List.mem_map.1 hsl
  split
  · exact k.slaveServe (hl x hx)
  · exact hl x hx

theorem mem_setSlave {k : Nat} {p : Pic} {l : List Slave} {sl : Slave} (h : sl ∈ setSlave k p l) :
    sl ∈ l ∨ sl.chip = p := by
  obtain ⟨j, hj⟩ := List.mem_iff_getElem?.1 h
  rw [setSlave, List.getElem?_modify] at hj
  obtain ⟨x, hx, rfl⟩ := Option.map_eq_some_iff.1 hj
  by_cases hk : k = j
  · exact .inr (by rw [if_pos hk])
  · exact .inl (by rw [if_neg hk]; exact List.mem_of_getElem? hx)

theorem AllChips.chipOf {s : State} (h : AllChips P s) {id : ChipId} {p : Pic} (hp : chipOf id s = some p) : P p := by
  cases id with
  | master => cases hp; exact h.1
  | slave k =>
    obtain ⟨sl, hsl, rfl⟩ := Option.map_eq_some_iff.1 hp
    exact h.2 sl (List.mem_of_getElem? hsl)

theorem AllChips.setChip {s : State} (h : AllChips P s) (k : KeptByChip c P) (id : ChipId) {p : Pic} (hp : P p) :
    AllChips P (setChip id p s) := by
  cases id with
  | master => exact ⟨k.driveLines hp s.slaves, h.2⟩
  | slave j =>
    refine ⟨k.driveLines h.1 _, fun sl hsl => ?_⟩
    rcases mem_setSlave hsl with hsl | hsl
    · exact h.2 sl hsl
    · exact hsl ▸ hp

theorem AllChips.acknowledge {s : State} (h : AllChips P s) (k : KeptByChip c P) {r : Byte × State}
    (hr : acknowledge s = .next r) : AllChips P r.2 := by
  unfold Machine.acknowledge at hr
  split at hr
  · rcases picAcknowledge_chips hr with ⟨hpic, hslaves⟩ | ⟨n, l, hl, hpic, hslaves⟩
    · unfold AllChips
      rwa [hpic, hslaves]
    · refine ⟨hpic ▸ k.driveLines (k.serve n h.1) l, ?_⟩
      rw [hslaves]
      rcases hl with rfl | rfl
      · exact h.2
      · exact k.serveSlaves n h.2
  · cases hr; exact h

/-- Whatever the accesses to one chip keep, a step keeps for every chip of the machine. -/
theorem allChips_carried : CarriedByStep fun s t =>
    t.config = s.config ∧ ∀ P, KeptByChip s.config P → AllChips P s → AllChips P t :=
  carriedByStep_of_chips
    (fun hc hp hs => ⟨hc, fun P _ h => by unfold AllChips; rwa [hp, hs]⟩)
    (fun h h' => ⟨h'.1.trans h.1, fun P k hP => h'.2 P (h.1 ▸ k) (h.2 P k hP)⟩)
    (fun h => ⟨(acknowledge_same h).config, fun P k hP => hP.acknowledge k h⟩)
    (fun h => ⟨(portWrite_same h).config, fun P k hP => by
      obtain ⟨-, id, a0, p, p', -, hp, hw, rfl⟩ := portWrite_eq_next.1 h
      exact hP.setChip k id (k.write hw (hP.chipOf hp))⟩)
    (fun h => ⟨(portRead_same h).config, fun P k hP => by
      obtain ⟨-, id, a0, p, r, -, hp, hr, rfl⟩ := portRead_eq_next.1 h
      exact AllChips.setChip (s := withDraw _) hP k id (k.read hr (hP.chipOf hp))⟩)
    (fun id n v s => ⟨(driveIr_same id n v s).config, fun P k hP => by
      rcases driveIr_cases id n v s with h | ⟨p, hp, h⟩ <;> rw [h]
      · exact hP
      · exact hP.setChip k id (k.line n v (hP.chipOf hp))⟩)

end Sys2Proof.Machine
end

section
/-! Each 8259A stays in step with its initialization sequence (60_exceptions.md rules R122 to R132, R144). -/

namespace Sys2Proof.Machine

/-! ### What an access to one chip can do -/

/-- What a byte written does to a chip: the command word it is, where the chip stands in its initialization sequence, and
what the parameters and the rules asked of it before it was taken (R122). -/
inductive ChipWritten (c : Config) (d : Byte) (p : Pic) : Pic → Prop
  | icw1 (hc : c.picFull = false → d.getLsbD 1 = true ∧ d.getLsbD 0 = true) : ChipWritten c d p (icw1 c d p)
  | icw2 (hi : p.init = .wantICW2) : ChipWritten c d p (icw2 d p)
  | icw3 (hi : p.init = .wantICW3) (hid : p.ic4 = false → badIdentity (icw3 d p) = false) : ChipWritten c d p (icw3 d p)
  | icw4 (hi : p.init = .wantICW4) (hc : c.picFull = false → d.getLsbD 0 = true ∧ d.getLsbD 4 = false)
      (hid : badIdentity (icw4 d p) = false) : ChipWritten c d p (icw4 d p)
  | ocw1 (hi : p.init = .ready) : ChipWritten c d p (ocw1 d p)
  | ocw2 (hi : p.init = .ready) : ChipWritten c d p (ocw2 d p)
  | ocw3 (hi : p.init = .ready)
      (hc : c.picFull = false → (d.getLsbD 6 = true → d.getLsbD 5 = false) ∧ d.getLsbD 2 = false) :
      ChipWritten c d p (ocw3 d p)

/-- A test that refuses answers a value only where it fails. -/
theorem refuseIf_eq_next {α : Type} {b : Bool} {r : Refusal} {o : Res α} {q : α} :
    (if b = true then .refused r else o) = .next q ↔ b = false ∧ o = .next q := by
  cases b <;> simp

theorem writeIcw1_eq_next {c : Config} {d : Byte} {p q : Pic} :
    writeIcw1 c d p = .next q ↔ (c.picFull = false → d.getLsbD 1 = true ∧ d.getLsbD 0 = true) ∧ icw1 c d p = q := by
  simp only [writeIcw1, refuseIf_eq_next, Bool.and_eq_false_imp, Bool.not_eq_true', Bool.not_eq_false',
    Host.Outcome.next.injEq, imp_and, and_assoc]

theorem writeIcw3_eq_next {d : Byte} {p q : Pic} :
    writeIcw3 d p = .next q ↔ (p.ic4 = false → badIdentity (icw3 d p) = false) ∧ icw3 d p = q := by
  simp only [writeIcw3, refuseIf_eq_next, Bool.and_eq_false_imp, Bool.not_eq_true', Host.Outcome.next.injEq]

theorem writeIcw4_eq_next {c : Config} {d : Byte} {p q : Pic} :
    writeIcw4 c d p = .next q ↔ d.extractLsb' 5 3 = 0 ∧
      (c.picFull = false → d.getLsbD 0 = true ∧ d.getLsbD 4 = false) ∧ badIdentity (icw4 d p) = false ∧
      icw4 d p = q := by
  simp only [writeIcw4, refuseIf_eq_next, bne_eq_false_iff_eq, Bool.and_eq_false_imp, Bool.not_eq_true',
    Bool.not_eq_false', Host.Outcome.next.injEq, imp_and, and_assoc]

theorem writeOcw3_eq_next {c : Config} {d : Byte} {p q : Pic} :
    writeOcw3 c d p = .next q ↔ d.getLsbD 7 = false ∧
      (c.picFull = false → (d.getLsbD 6 = true → d.getLsbD 5 = false) ∧ d.getLsbD 2 = false) ∧ ocw3 d p = q := by
  rw [writeOcw3, refuseIf_eq_next, refuseIf_eq_next, refuseIf_eq_next]
  simp only [Bool.and_eq_false_imp, Bool.and_eq_true, Bool.not_eq_true', and_imp, Host.Outcome.next.injEq, imp_and,
    and_assoc]

theorem chipWritten_of_chipWrite {c : Config} {a0 : Bool} {d : Byte} {p q : Pic} (h : chipWrite c a0 d p = .next q) :
    ChipWritten c d p q := by
  unfold chipWrite at h
  split at h
  · obtain ⟨hc, rfl⟩ := writeIcw1_eq_next.1 h
    exact .icw1 hc
  split at h
  · cases h
  · next hi _ => cases h; exact .icw2 hi
  · next hi _ =>
    obtain ⟨hid, rfl⟩ := writeIcw3_eq_next.1 h
    exact .icw3 hi hid
  · next hi _ =>
    obtain ⟨-, hc, hid, rfl⟩ := writeIcw4_eq_next.1 h
    exact .icw4 hi hc hid
  · next hi _ => cases h; exact .ocw1 hi
  · next hi _ =>
    split at h
    · obtain ⟨-, hc, rfl⟩ := writeOcw3_eq_next.1 h
      exact .ocw3 hi hc
    · cases h; exact .ocw2 hi
  · cases h
  · cases h
  · cases h

/-- A read changes nothing, or it is the poll read (R133). -/
theorem chipRead_chip {free : Byte} {a0 : Bool} {p : Pic} {r : Byte × Pic} (h : chipRead free a0 p = .next r) :
    r.2 = p ∨ r.2 = { p with poll := false } ∨ ∃ n, r.2 = serve n { p with poll := false } := by
  unfold chipRead at h
  split at h
  · cases h
  split at h
  · cases h; exact .inl rfl
  split at h
  · cases h
    unfold pollWord
    split
    · exact .inr (.inr ⟨_, rfl⟩)
    · exact .inr (.inl rfl)
  split at h <;> cases h
  · exact .inl rfl
  · exact .inl rfl

/-- An OCW2 changes ISR, the lowest level and automatic rotation only (R131). -/
theorem ocw2_frame (d : Byte) (p : Pic) :
    ocw2 d p = { p with isr := (ocw2 d p).isr, lowest := (ocw2 d p).lowest, autoRotate := (ocw2 d p).autoRotate } := by
  have hns : ∀ rotate, nonSpecificEoi rotate p =
      { p with isr := (nonSpecificEoi rotate p).isr, lowest := (nonSpecificEoi rotate p).lowest } := by
    intro rotate
    unfold nonSpecificEoi
    split <;> rfl
  unfold ocw2
  dsimp only
  split
  · rw [hns]
  · rfl
  · rw [hns]
  · rfl
  · rfl
  · rfl
  · rfl
  · rfl

/-! ### A chip in step with its initialization sequence -/

/-- What is programmed into a chip by ICW1, ICW3 and ICW4, its strap, and its place in the sequence are the same. -/
def SameSetUp (p q : Pic) : Prop :=
  q = { p with
    ir := q.ir, edge := q.edge, isr := q.isr, imr := q.imr, lowest := q.lowest, autoRotate := q.autoRotate
    readIsr := q.readIsr, smm := q.smm, poll := q.poll }

/-- Outside the sequence what operation commands change is free: only the set-up counts. -/
theorem PicConsistent.of_sameSetUp {p q : Pic} (h : PicConsistent p) (hq : SameSetUp p q)
    (hfresh : p.init ≠ .uninit → p.init ≠ .ready → q.imr = p.imr ∧ q.lowest = p.lowest ∧ q.autoRotate = p.autoRotate ∧
      q.smm = p.smm ∧ q.readIsr = p.readIsr ∧ (p.poll = false → q.poll = false)) : PicConsistent q := by
  have hinit : q.init = p.init := by rw [hq]
  have hbad : badIdentity q = badIdentity p := by rw [hq]; rfl
  refine ⟨by rw [hq]; exact h.icw3, by rw [hq]; exact h.icw4, by rw [hq]; exact h.noIcw4, fun hu hr => ?_, ?_⟩
  · rw [hinit] at hu hr
    obtain ⟨himr, hlow, hrot, hsmm, hread, hpoll⟩ := hfresh hu hr
    obtain ⟨fimr, flow, frot, fsmm, fread, fpoll⟩ := h.fresh hu hr
    exact ⟨himr.trans fimr, hlow.trans flow, hrot.trans frot, hsmm.trans fsmm, hread.trans fread, hpoll fpoll⟩
  · rw [hinit, hbad]; exact h.identity

/-- An operation command to a ready chip keeps it consistent. -/
theorem PicConsistent.of_ready {p q : Pic} (h : PicConsistent p) (hr : p.init = .ready) (hq : SameSetUp p q) :
    PicConsistent q :=
  h.of_sameSetUp hq fun _ hnr => absurd hr hnr

theorem serve_consistent {p : Pic} (n : Level) (h : PicConsistent p) : PicConsistent (serve n p) := by
  refine h.of_sameSetUp rfl fun hu hr => ?_
  obtain ⟨-, -, hrot, -, -, -⟩ := h.fresh hu hr
  refine ⟨rfl, ?_, rfl, rfl, rfl, id⟩
  simp [serve, hrot]

theorem clearPoll_consistent {p : Pic} (h : PicConsistent p) : PicConsistent { p with poll := false } :=
  h.of_sameSetUp rfl fun _ _ => ⟨rfl, rfl, rfl, rfl, rfl, fun _ => rfl⟩

/-- Without a cascade no chip is a slave, so none has a bad identity. -/
theorem badIdentity_of_single {p : Pic} (h : p.sngl = true) : badIdentity p = false := by
  simp [badIdentity, isSlave, h]

theorem icw1_consistent (c : Config) (d : Byte) (p : Pic) : PicConsistent (icw1 c d p) where
  icw3 := nofun
  icw4 := nofun
  noIcw4 _ h := by
    have h0 : d.getLsbD 0 = false := h
    simp only [icw1, h0, Bool.false_and, and_self]
  fresh _ _ := ⟨rfl, rfl, rfl, rfl, rfl, rfl⟩
  identity := nofun

theorem phaseAfterIcw3_eq (p : Pic) :
    (p.ic4 = true ∧ phaseAfterIcw3 p = .wantICW4) ∨ (p.ic4 = false ∧ phaseAfterIcw3 p = .ready) := by
  unfold phaseAfterIcw3
  cases p.ic4 <;> simp

theorem icw3_consistent {p : Pic} {d : Byte} (h : PicConsistent p) (hi : p.init = .wantICW3)
    (hid : p.ic4 = false → badIdentity (icw3 d p) = false) : PicConsistent (icw3 d p) where
  icw3 hw := by
    rcases phaseAfterIcw3_eq p with ⟨-, hph⟩ | ⟨-, hph⟩ <;> exact absurd (hph.symm.trans hw) (by simp)
  icw4 hw := by
    rcases phaseAfterIcw3_eq p with ⟨hic4, -⟩ | ⟨-, hph⟩
    · exact hic4
    · exact absurd (hph.symm.trans hw) (by simp)
  noIcw4 _ := h.noIcw4 (by simp [hi])
  fresh _ _ := h.fresh (by simp [hi]) (by simp [hi])
  identity hw := by
    rcases phaseAfterIcw3_eq p with ⟨-, hph⟩ | ⟨hic4, -⟩
    · exact absurd (hph.symm.trans hw) (by simp)
    · exact hid hic4

theorem icw2_consistent {p : Pic} (d : Byte) (h : PicConsistent p) (hi : p.init = .wantICW2) :
    PicConsistent (icw2 d p) := by
  have hinit : (p.sngl = false ∧ (icw2 d p).init = .wantICW3) ∨
      (p.sngl = true ∧ (p.ic4 = true ∧ (icw2 d p).init = .wantICW4 ∨ p.ic4 = false ∧ (icw2 d p).init = .ready)) := by
    have := phaseAfterIcw3_eq p
    simp only [icw2]
    cases p.sngl <;> simp [this]
  refine ⟨fun hw => ?_, fun hw => ?_, fun _ => h.noIcw4 (by simp [hi]), fun _ _ => h.fresh (by simp [hi]) (by simp [hi]),
    fun hw => ?_⟩
  · rcases hinit with ⟨hs, -⟩ | ⟨-, ⟨-, hph⟩ | ⟨-, hph⟩⟩
    · exact hs
    · exact absurd (hph.symm.trans hw) (by simp)
    · exact absurd (hph.symm.trans hw) (by simp)
  · rcases hinit with ⟨-, hph⟩ | ⟨-, ⟨hic4, -⟩ | ⟨-, hph⟩⟩
    · exact absurd (hph.symm.trans hw) (by simp)
    · exact hic4
    · exact absurd (hph.symm.trans hw) (by simp)
  · rcases hinit with ⟨-, hph⟩ | ⟨hs, -⟩
    · exact absurd (hph.symm.trans hw) (by simp)
    · exact badIdentity_of_single (p := icw2 d p) hs

theorem icw4_consistent {p : Pic} {d : Byte} (h : PicConsistent p) (hi : p.init = .wantICW4)
    (hid : badIdentity (icw4 d p) = false) : PicConsistent (icw4 d p) where
  icw3 := nofun
  icw4 := nofun
  noIcw4 _ h0 := absurd ((h.icw4 hi).symm.trans h0) (by simp)
  fresh _ hr := absurd rfl hr
  identity _ := hid

theorem picConsistent_kept (c : Config) : KeptByChip c PicConsistent where
  line n v p h := h.of_sameSetUp rfl fun _ _ => ⟨rfl, rfl, rfl, rfl, rfl, id⟩
  serve n p h := serve_consistent n h
  write h hp := by
    cases chipWritten_of_chipWrite h with
    | icw1 hc => exact icw1_consistent _ _ _
    | icw2 hi => exact icw2_consistent _ hp hi
    | icw3 hi hid => exact icw3_consistent hp hi hid
    | icw4 hi hc hid => exact icw4_consistent hp hi hid
    | ocw1 hi => exact hp.of_ready hi rfl
    | ocw2 hi =>
      rw [ocw2_frame]
      exact hp.of_ready hi rfl
    | ocw3 hi hc => exact hp.of_ready hi rfl
  read h hp := by
    rcases chipRead_chip h with hr | hr | ⟨n, hr⟩ <;> rw [hr]
    · exact hp
    · exact clearPoll_consistent hp
    · exact serve_consistent n (clearPoll_consistent hp)

/-! ### The admitted subset (R144) -/

/-- A chip of the subset stays in it where its set-up stays and neither special mask mode nor a poll comes up. -/
theorem PicAdmitted.of_sameSetUp {p q : Pic} (h : PicAdmitted p) (hq : SameSetUp p q)
    (hmode : p.init = .ready → q.smm = false ∧ q.poll = false) : PicAdmitted q := by
  have hinit : q.init = p.init := by rw [hq]
  refine ⟨by rw [hq]; exact h.single, fun hr => ?_⟩
  rw [hinit] at hr
  obtain ⟨hupm, hsfnm, -, -⟩ := h.mode hr
  exact ⟨by rw [hq]; exact hupm, by rw [hq]; exact hsfnm, hmode hr⟩

/-- In the subset no ICW3 is ever awaited. -/
theorem PicAdmitted.init_ne_wantICW3 {p : Pic} (h : PicAdmitted p) (hc : PicConsistent p) : p.init ≠ .wantICW3 := by
  intro hi
  have hs := (h.single (by simp [hi])).1
  exact absurd ((hc.icw3 hi).symm.trans hs) Bool.false_ne_true

/-- In the subset ICW2 is followed by ICW4. -/
theorem icw2_init_of_admitted {p : Pic} (d : Byte) (h : PicAdmitted p) (hi : p.init = .wantICW2) :
    (icw2 d p).init = .wantICW4 := by
  obtain ⟨hs, h4⟩ := h.single (by simp [hi])
  simp [icw2, phaseAfterIcw3, hs, h4]

theorem serve_admitted {p : Pic} (n : Level) (h : PicAdmitted p) : PicAdmitted (serve n p) :=
  h.of_sameSetUp rfl fun hr => (h.mode hr).2.2

theorem clearPoll_admitted {p : Pic} (h : PicAdmitted p) : PicAdmitted { p with poll := false } :=
  h.of_sameSetUp rfl fun hr => ⟨(h.mode hr).2.2.1, rfl⟩

theorem write_admitted {c : Config} (hfull : c.picFull = false) {d : Byte} {p q : Pic} (h : ChipWritten c d p q)
    (hp : PicConsistent p) (ha : PicAdmitted p) : PicAdmitted q := by
  cases h with
  | icw1 hc => exact ⟨fun _ => hc hfull, nofun⟩
  | icw2 hi =>
    have hinit := icw2_init_of_admitted d ha hi
    exact ⟨fun _ => ha.single (by simp [hi]), fun hr => absurd (hinit.symm.trans hr) (by simp)⟩
  | icw3 hi _ => exact absurd hi (ha.init_ne_wantICW3 hp)
  | icw4 hi hc _ =>
    obtain ⟨hupm, hsfnm⟩ := hc hfull
    obtain ⟨-, -, -, hsmm, -, hpoll⟩ := hp.fresh (by simp [hi]) (by simp [hi])
    exact ⟨fun _ => ha.single (by simp [hi]), fun _ => ⟨hupm, hsfnm, hsmm, hpoll⟩⟩
  | ocw1 hi => exact ha.of_sameSetUp rfl fun _ => (ha.mode hi).2.2
  | ocw2 hi =>
    rw [ocw2_frame]
    exact ha.of_sameSetUp rfl fun _ => (ha.mode hi).2.2
  | ocw3 hi hc =>
    obtain ⟨hmask, hpollBit⟩ := hc hfull
    obtain ⟨-, -, hsmm, hpoll⟩ := ha.mode hi
    refine ha.of_sameSetUp rfl fun _ => ⟨?_, by simp only [ocw3, hpollBit, hpoll, Bool.or_self]⟩
    simp only [ocw3, hsmm]
    split
    · next h6 => exact hmask h6
    · rfl

theorem picAdmitted_kept {c : Config} (hfull : c.picFull = false) :
    KeptByChip c fun p => PicConsistent p ∧ PicAdmitted p where
  line n v p h := ⟨(picConsistent_kept c).line n v h.1,
    h.2.of_sameSetUp rfl fun hr => (h.2.mode hr).2.2⟩
  serve n p h := ⟨serve_consistent n h.1, serve_admitted n h.2⟩
  write h hp := ⟨(picConsistent_kept c).write h hp.1, write_admitted hfull (chipWritten_of_chipWrite h) hp.1 hp.2⟩
  read h hp := by
    refine ⟨(picConsistent_kept c).read h hp.1, ?_⟩
    rcases chipRead_chip h with hr | hr | ⟨n, hr⟩ <;> rw [hr]
    · exact hp.2
    · exact clearPoll_admitted hp.2
    · exact serve_admitted n (clearPoll_admitted hp.2)

theorem picInv_iff {s : State} :
    PicInv s ↔ AllChips PicConsistent s ∧
      (s.config.picFull = false → AllChips (fun p => PicConsistent p ∧ PicAdmitted p) s) := by
  unfold PicInv AllChips
  constructor
  · rintro ⟨hc, ha⟩
    exact ⟨hc, fun hf => ⟨⟨hc.1, (ha hf).1⟩, fun sl hsl => ⟨hc.2 sl hsl, (ha hf).2 sl hsl⟩⟩⟩
  · rintro ⟨hc, ha⟩
    exact ⟨hc, fun hf => ⟨(ha hf).1.2, fun sl hsl => ((ha hf).2 sl hsl).2⟩⟩

/-- Settles O41: the accesses to one chip keep it consistent and in the subset, so every step does for every chip. -/
theorem picInvariantIsKept : Obligations.PicInvariantIsKept := by
  intro s t hi h
  obtain ⟨hc, ha⟩ := picInv_iff.1 hi
  obtain ⟨hconfig, keeps⟩ := allChips_carried.step h
  refine picInv_iff.2 ⟨keeps _ (picConsistent_kept s.config) hc, fun hfull => ?_⟩
  rw [hconfig] at hfull
  exact keeps _ (picAdmitted_kept hfull) (ha hfull)

end Sys2Proof.Machine
end

section
/-! The environment's moves and the reset (60_exceptions.md rule R112, 70_reset_and_hazards.md rule R170). -/

namespace Sys2Proof.Machine

/-! ### The environment's moves -/

/-- Settles O37: the move is `driveNmi`, and `driveNmi_eq` says what it writes. -/
theorem nmiEdgeIsLatched : Obligations.NmiEdgeIsLatched := by
  intro s v rest ha
  rw [step_move ha, takeMove, driveNmi_eq]
  rfl

theorem DriveFrame.writesNothing {s t : State} (h : DriveFrame s t) :
    t.agenda = s.agenda ∧ t.regs = s.regs ∧ t.cs = s.cs ∧ t.ds = s.ds ∧ t.ss = s.ss ∧ t.es = s.es ∧ t.ip = s.ip ∧
      t.flags = s.flags ∧ t.mem = s.mem ∧ t.stiShadow = s.stiShadow ∧ t.tfBefore = s.tfBefore := by
  rw [h]
  exact ⟨rfl, rfl, rfl, rfl, rfl, rfl, rfl, rfl, rfl, rfl, rfl⟩

theorem lineTaken_eq_true {n : Level} {s : State} : lineTaken n s = true ↔ ∃ sl ∈ s.slaves, sl.line = n := by
  simp [lineTaken]

/-- A chip that does not exist, and an input a slave drives, take nothing from the environment (assumption 35). -/
theorem driveIr_ignored {id : ChipId} {n : Level} {s : State} (v : Bool)
    (h : chipOf id s = none ∨ id = .master ∧ ∃ sl ∈ s.slaves, sl.line = n) : driveIr id n v s = s := by
  unfold driveIr
  split
  · rfl
  · next hfree =>
    rcases h with h | ⟨rfl, h⟩
    · rw [h]
    · exact absurd (by simpa using lineTaken_eq_true.2 h) hfree

/-- Any other input of a chip takes the level driven (R134). -/
theorem driveIr_taken {id : ChipId} {n : Level} {s : State} {p : Pic} (v : Bool) (hp : chipOf id s = some p)
    (hfree : id = .master → ∀ sl ∈ s.slaves, sl.line ≠ n) : driveIr id n v s = setChip id (irChange n v p) s := by
  have hline : ¬ (id = .master && lineTaken n s) = true := by
    simp only [Bool.and_eq_true, decide_eq_true_eq, lineTaken_eq_true, not_and, not_exists]
    exact fun hid sl hsl => hfree hid sl hsl
  unfold driveIr
  rw [if_neg hline, hp]

theorem chipOf_withAgenda (id : ChipId) (l : List Move) (s : State) : chipOf id (withAgenda l s) = chipOf id s := by
  cases id <;> rfl

/-- RESET driven high, or low where it is low, is no event (R170). -/
theorem driveReset_level {v : Bool} {s : State} (h : v = true ∨ s.resetPin = false) :
    driveReset v s = { s with resetPin := v } := by
  rcases driveReset_eq v s with heq | ⟨hr, rfl, -⟩
  · exact heq
  · rcases h with h | h
    · cases h
    · exact absurd (h.symm.trans hr) Bool.false_ne_true

/-- Settles O36: a move of the environment keeps the frame of `DriveFrame`; what it drives is said move by move. -/
theorem environmentWritesNoRegisterOrMemory : Obligations.EnvironmentWritesNoRegisterOrMemory := by
  intro s m rest ha hm
  have answer {t : State} {Q : Prop} (ht : takeMove m (withAgenda rest s) = .next t)
      (hd : DriveFrame (withAgenda rest s) t) (hnmi : s.nmiPending = true → t.nmiPending = true) (hq : Q) :
      step s = .next t ∧ t.agenda = rest ∧ t.regs = s.regs ∧ t.cs = s.cs ∧ t.ds = s.ds ∧ t.ss = s.ss ∧
        t.es = s.es ∧ t.ip = s.ip ∧ t.flags = s.flags ∧ t.mem = s.mem ∧ t.stiShadow = s.stiShadow ∧
        t.tfBefore = s.tfBefore ∧ (s.nmiPending = true → t.nmiPending = true) ∧ Q := by
    obtain ⟨h1, h2, h3, h4, h5, h6, h7, h8, h9, h10, h11⟩ := hd.writesNothing
    exact ⟨(step_move ha).trans ht, h1, h2, h3, h4, h5, h6, h7, h8, h9, h10, h11, hnmi, hq⟩
  cases m with
  | processor => exact hm.elim
  | divideError len wide => exact hm.elim
  | portWrite len port d => exact hm.elim
  | portRead len port => exact hm.elim
  | nmi v =>
    refine ⟨_, answer (congrArg Host.Outcome.next (driveNmi_eq v _)) rfl (fun hn => ?_) rfl⟩
    simp only [withAgenda_nmiPending, hn, ite_self]
  | intr v => exact ⟨_, answer rfl rfl id rfl⟩
  | inta b => exact ⟨_, answer rfl rfl id rfl⟩
  | reset v => exact ⟨_, answer (congrArg Host.Outcome.next (driveReset_level (s := withAgenda rest s) hm)) rfl id rfl⟩
  | ir id n v =>
    have hsame := driveIr_same id n v (withAgenda rest s)
    have hd : DriveFrame (withAgenda rest s) (driveIr id n v (withAgenda rest s)) := by rw [hsame]; rfl
    refine ⟨_, answer rfl hd (fun hn => by rw [hsame]; exact hn) ⟨fun h => ?_, fun p hp hfree => ?_⟩⟩
    · exact driveIr_ignored v (by rwa [chipOf_withAgenda])
    · exact driveIr_taken v (by rwa [chipOf_withAgenda]) hfree

/-! ### The reset -/

/-- A turn with RESET asserted is the reset event, whatever the turn (R101, R170). -/
theorem takeMove_turn_reset {m : Move} {s : State} (hm : isTurn m = true) (hr : s.resetPin = true) :
    takeMove m s = .next (resetEvent s) := by
  cases m with
  | processor => exact if_pos hr
  | divideError len wide => exact if_pos hr
  | portWrite len port d => exact if_pos hr
  | portRead len port => exact if_pos hr
  | _ => cases hm

/-- The steps that are a reset, as one: the event, with the pin as driven and the move used up. -/
theorem step_resetEvent {s : State} {rest : List Move} {level : Bool} (hr : s.resetPin = true)
    (h : (s.agenda = [] ∧ rest = [] ∧ level = true) ∨ (∃ m, s.agenda = m :: rest ∧ isTurn m = true ∧ level = true) ∨
      (s.agenda = .reset false :: rest ∧ level = false)) :
    step s = .next (resetEvent { withAgenda rest s with resetPin := level }) := by
  have hpin : { withAgenda rest s with resetPin := true } = withAgenda rest s := by rw [← hr]; rfl
  rcases h with ⟨ha, rfl, rfl⟩ | ⟨m, ha, hm, rfl⟩ | ⟨ha, rfl⟩
  · rw [hpin, step_idle ha, withAgenda_eq_self ha, processorStep, if_pos hr]
  · rw [hpin, step_move ha, takeMove_turn_reset hm (by exact hr)]
  · rw [step_move ha, takeMove, driveReset, withAgenda_resetPin, hr]
    rfl

/-- The first fetch after a reset is at FFFF0H (R34). -/
theorem resetEvent_fetchAddr (s : State) : (phys (resetEvent s).cs (resetEvent s).ip).toNat = 0xFFFF0 :=
  phys_toNat 0xFFFF 0

/-- Settles O38: each of these steps is `resetEvent`, whose values are its definition. -/
theorem resetEventState : Obligations.ResetEventState :=
  fun _ _ _ hr h => ⟨_, step_resetEvent hr h, rfl, rfl, rfl, resetEvent_fetchAddr _⟩

/-- Settles O39: State.reset is a literal, and its memory lists no byte. -/
theorem resetStateValues : Obligations.ResetStateValues :=
  ⟨flagsLoad_zero.symm, rfl, by decide, rfl, rfl, rfl, rfl, rfl, rfl, rfl, rfl, rfl, fun _ => rfl⟩

/-! ### The state after reset meets the invariants -/

/-- Before its first ICW1 nothing is asked of a chip. -/
theorem PicConsistent.of_uninit {p : Pic} (h : p.init = .uninit) : PicConsistent p where
  icw3 hi := absurd (h.symm.trans hi) (by simp)
  icw4 hi := absurd (h.symm.trans hi) (by simp)
  noIcw4 hu := absurd h hu
  fresh hu := absurd h hu
  identity hi := absurd (h.symm.trans hi) (by simp)

theorem PicAdmitted.of_uninit {p : Pic} (h : p.init = .uninit) : PicAdmitted p where
  single hu := absurd h hu
  mode hi := absurd (h.symm.trans hi) (by simp)

theorem reset_memoryInv : MemoryInv State.reset :=
  ⟨reset_memory_wf, fun _ h => absurd h List.not_mem_nil⟩

theorem reset_picInv : PicInv State.reset :=
  ⟨⟨.of_uninit rfl, fun _ h => absurd h List.not_mem_nil⟩,
    fun _ => ⟨.of_uninit rfl, fun _ h => absurd h List.not_mem_nil⟩⟩

theorem reset_cascadeInv : CascadeInv State.reset :=
  ⟨by decide, List.nodup_nil, fun _ h => absurd h List.not_mem_nil⟩

/-- Settles O44: memory is empty, the one chip is before its first ICW1 and has no slaves, and no shadow stands. -/
theorem resetMeetsTheInvariants : Obligations.ResetMeetsTheInvariants :=
  ⟨reset_memoryInv, reset_picInv, reset_cascadeInv, rfl⟩

end Sys2Proof.Machine
end

section
/-! Memory, the stack, the vector table and the flag register (20_memory.md; 10_state.md section 4). -/

namespace Sys2Proof.Machine

/-! ### Bytes and words (R30, R41, R44) -/

theorem addr_succ_ne (a : Addr) : a + 1 ≠ a := by
  intro h
  bv_omega

/-- What a word write leaves: its two bytes as written, every other byte as it was (R42, R44). -/
theorem writeWord_bytes {a : Addr} {v : Word} {s t : State} (h : writeWord a v s = .next t) :
    readByte a t = .next (lowByte v) ∧ readByte (a + 1) t = .next (highByte v) ∧
      ∀ b : Addr, b ≠ a → b ≠ a + 1 → readByte b t = readByte b s := by
  obtain ⟨w0, w1, rfl⟩ := writeWord_eq_next.1 h
  have hne : a.toNat ≠ (a + 1).toNat := fun hh => addr_succ_ne a (BitVec.eq_of_toNat_eq hh.symm)
  refine ⟨readByte_eq_next.2 ⟨writableAt_existsAt w0, ?_⟩, readByte_eq_next.2 ⟨writableAt_existsAt w1, ?_⟩,
    fun b hb0 hb1 => readByte_congr b rfl ?_⟩
  · rw [withMem_mem, memGet_memPut_ne hne, memGet_memPut_same]
  · rw [withMem_mem, memGet_memPut_same]
  · rw [withMem_mem, memGet_memPut_ne fun hh => hb1 (BitVec.eq_of_toNat_eq hh),
      memGet_memPut_ne fun hh => hb0 (BitVec.eq_of_toNat_eq hh)]

/-- Settles O7: the two bytes are `writeWord_bytes`, and a word read puts them together again. -/
theorem wordsAreLittleEndian : Obligations.WordsAreLittleEndian := by
  intro s a v w0 w1
  obtain ⟨t, ht⟩ : ∃ t, writeWord a v s = .next t := ⟨_, writeWord_eq_next.2 ⟨w0, w1, rfl⟩⟩
  obtain ⟨hlow, hhigh, helse⟩ := writeWord_bytes ht
  refine ⟨t, ht, ?frame, hlow, hhigh, readWord_eq_next.2 ⟨_, _, hlow, hhigh, (wordOf_high_low v).symm⟩, helse⟩
  case frame =>
    obtain ⟨-, -, rfl⟩ := writeWord_eq_next.1 ht
    rfl

theorem writableAt_of_absent {c : Config} {a : Addr} (h : existsAt c a = false) : writableAt c a = false := by
  by_contra hw
  exact absurd (h.symm.trans (writableAt_existsAt (by simpa using hw))) Bool.false_ne_true

/-- Settles O8: the three faults, by which of the launch memory's tests fails. -/
theorem accessOutsideLaunchMemoryStops : Obligations.AccessOutsideLaunchMemoryStops := by
  refine fun s a => ⟨fun he => ⟨?_, fun v => ?_⟩, fun he hw v => ?_, fun he hm => ?_⟩
  · simp [readByte, he]
  · simp [writeByte, he, writableAt_of_absent he]
  · simp [writeByte, he, hw]
  · simp [readByte, he, hm]

/-! ### The stack (R45 to R47) -/

/-- A pop undoes a push: SP after a push is not FFFFH, and the word lies where the pop reads (R47). -/
theorem pop16_of_push16 {v : Word} {s t : State} (h : push16 v s = .next t) :
    pop16 t = .next (v, { s with mem := t.mem }) := by
  have hback := push16_readBack h
  obtain ⟨hsp, -, -, rfl⟩ := push16_eq_next.1 h
  refine pop16_eq_next.2 ⟨?_, hback, ?_⟩
  · show s.regs.sp - 2 ≠ 0xFFFF
    intro hh
    exact hsp (by bv_omega)
  · have hsum : s.regs.sp - 2 + 2 = s.regs.sp := BitVec.sub_add_cancel _ _
    simp only [withSp, withMem, hsum]

/-- Settles O9: push and pop as `push16_eq_next` and `pop16_eq_next` have them, and a pop after a push. -/
theorem pushAndPop : Obligations.PushAndPop := by
  refine ⟨fun v s => ⟨push16_at_one v, fun hsp w2 w1 => ?push⟩, fun s => pop16_at_FFFF, fun s v hsp hv => ?pop,
    fun v s t => pop16_of_push16⟩
  case push =>
    obtain ⟨t, ht⟩ := push16_completes v hsp w2 w1
    refine ⟨t, ht, ?_, push16_readBack ht, fun a h2 h1 => push16_elsewhere ht h1 h2⟩
    obtain ⟨-, -, -, rfl⟩ := push16_eq_next.1 ht
    rfl
  case pop => exact pop16_eq_next.2 ⟨hsp, hv, rfl⟩

/-! ### The vector table (R48 to R50) -/

/-- Settles O11: the entry's place is `vectorAddr_toNat`, and the vector read is two word reads. -/
theorem vectorTableEntry : Obligations.VectorTableEntry := by
  refine fun t => ⟨vectorAddr_toNat t, ?last, fun s b0 b1 b2 b3 h0 h1 h2 h3 => ?read⟩
  case last =>
    have hv := vectorAddr_toNat t
    have ht := t.isLt
    bv_omega
  case read =>
    have hsucc : vectorAddr t + 2 + 1 = vectorAddr t + 3 := BitVec.add_assoc _ 2 1
    exact ivtRead_eq_next.2 ⟨readWord_eq_next.2 ⟨b0, b1, h0, h1, rfl⟩,
      readWord_eq_next.2 ⟨b2, b3, h2, by rwa [hsucc], rfl⟩⟩

/-! ### FLAGS (R24, R28) -/

/-- Two words that agree under a mask agree on each bit of it. -/
theorem getLsbD_eq_of_and_eq {w v m : Word} (h : w &&& m = v &&& m) {j : Nat} (hj : m.getLsbD j = true) :
    w.getLsbD j = v.getLsbD j := by
  have := congrArg (fun x : Word => x.getLsbD j) h
  simpa only [BitVec.getLsbD_and, hj, Bool.and_true] using this

/-- Settles O12: the bits of the image are `getLsbD_imageWith`; a load looks at the bits of 0FD5H only. -/
theorem flagsImageAndLoadAgree : Obligations.FlagsImageAndLoadAgree := by
  refine ⟨fun f r => ⟨flagsLoad_imageWith f r, getLsbD_imageWith f r⟩, fun w v h => ?_⟩
  have bit {j : Nat} (hj : (0x0FD5 : Word).getLsbD j = true) : w.getLsbD j = v.getLsbD j := getLsbD_eq_of_and_eq h hj
  unfold flagsLoad
  rw [bit (j := 11) (by decide), bit (j := 10) (by decide), bit (j := 9) (by decide), bit (j := 8) (by decide),
    bit (j := 7) (by decide), bit (j := 6) (by decide), bit (j := 4) (by decide), bit (j := 2) (by decide),
    bit (j := 0) (by decide)]

end Sys2Proof.Machine
end

section
/-! The instructions (40_software_interrupts.md, 41_iret.md, 42_interrupt_flag_control.md): what each answers, its frame,
and where it is refused. -/

namespace Sys2Proof.Machine

/-! ### CLI and STI (R85, R86) -/

theorem exec_cli (s : State) :
    exec .cli s = .next { s with ip := s.ip + 1, flags := { s.flags with IF := false } } := rfl

theorem exec_sti (s : State) :
    exec .sti s = .next { s with
      ip := s.ip + 1, stiShadow := shadowAfterSti s, flags := { s.flags with IF := true } } := rfl

/-- Settles O16: the meaning of CLI. -/
theorem cliClearsIf : Obligations.CliClearsIf := exec_cli

/-- Settles O17: whether STI sets the shadow is `shadowAfterSti`. -/
theorem stiSetsIfAndShadow : Obligations.StiSetsIfAndShadow := by
  refine fun s => ⟨fun hc hf => ?_, fun h => ?_⟩
  · have hshadow : shadowAfterSti s = true := by simp [shadowAfterSti, hc, hf]
    rw [exec_sti, hshadow]
  · have hshadow : shadowAfterSti s = s.stiShadow := by
      rcases h with h | h <;> simp [shadowAfterSti, h]
    rw [exec_sti, hshadow]

/-! ### IRET (R80) -/

theorem exec_iret (s : State) : exec .iret s = interruptReturn (advanceIp 1 s) := rfl

/-- IRET where its three words can be read (R80). -/
theorem exec_iret_of_reads {s : State} {i c w : Word} (h1 : s.regs.sp ≠ 0xFFFF) (h2 : s.regs.sp ≠ 0xFFFD)
    (h3 : s.regs.sp ≠ 0xFFFB) (hi : readWord (phys s.ss s.regs.sp) s = .next i)
    (hc : readWord (phys s.ss (s.regs.sp + 2)) s = .next c) (hw : readWord (phys s.ss (s.regs.sp + 4)) s = .next w) :
    exec .iret s = .next { s with
      ip := i, cs := c, regs := { s.regs with sp := s.regs.sp + 6 }, flags := flagsLoad w } :=
  interruptReturn_eq_next.2 ⟨h1, h2, h3, i, c, w, hi, hc, hw, rfl⟩

/-- Settles O15: `exec_iret_of_reads`, with FLAGS loaded bit by bit. -/
theorem iretCompletes : Obligations.IretCompletes :=
  fun _ _ _ _ h1 h2 h3 hi hc hw => exec_iret_of_reads h1 h2 h3 hi hc hw

/-! ### The frame of every instruction -/

/-- An instruction that runs no sequence leaves every byte of memory. -/
theorem exec_reads_without_sequence {i : Instr} {s t : State} (h : exec i s = .next t)
    (hrun : runsSequence i s = false) (a : Addr) : readByte a t = readByte a s := by
  rcases exec_cases h with ⟨htrue, -⟩ | ⟨-, ⟨-, -, rfl⟩ | ⟨-, hret⟩ | ⟨-, rfl⟩ | ⟨-, rfl⟩⟩
  · exact absurd (hrun.symm.trans htrue) Bool.false_ne_true
  · rfl
  · obtain ⟨-, -, -, i, c, w, -, -, -, rfl⟩ := interruptReturn_eq_next.1 hret
    rfl
  · rfl
  · rfl

/-- An instruction that runs a sequence lowers SP by 6 and leaves every byte outside the frame. -/
theorem exec_with_sequence {i : Instr} {s t : State} (h : exec i s = .next t) (hrun : runsSequence i s = true) :
    t.regs.sp = s.regs.sp - 6 ∧ ∀ a : Addr, (∀ k < 6, a ≠ frameAddr s k) → readByte a t = readByte a s := by
  rcases exec_cases h with ⟨-, -, -, -, n, len, hs⟩ | ⟨hfalse, -⟩
  · have took := (interruptSequence_next hs).2
    exact ⟨by rw [took.rest]; rfl, took.elsewhere⟩
  · exact absurd (hfalse.symm.trans hrun) Bool.false_ne_true

/-- Settles O18: each clause is one of the frames, with `runsSequence` telling the two kinds of instruction apart. -/
theorem instructionFrames : Obligations.InstructionFrames := by
  intro i s t h
  have notTaken (hof : s.flags.OF = false) : runsSequence .into s = false := hof
  obtain ⟨-, -, hshadow, -⟩ := exec_latches h
  refine ⟨exec_frame h, hshadow, exec_flags h, ?quiet, ?intoFlags, ?reads, ?frame⟩
  case quiet =>
    rintro (rfl | rfl | ⟨rfl, hof⟩)
    · cases h; exact ⟨rfl, rfl, rfl, rfl⟩
    · cases h; exact ⟨rfl, rfl, rfl, rfl⟩
    · rw [exec_into_of_no_overflow hof] at h
      cases h; exact ⟨rfl, rfl, rfl, rfl⟩
  case intoFlags =>
    rintro rfl hof
    rw [exec_into_of_no_overflow hof] at h
    cases h; rfl
  case reads =>
    rintro (rfl | rfl | rfl | ⟨rfl, hof⟩)
    · exact exec_reads_without_sequence h rfl
    · exact exec_reads_without_sequence h rfl
    · exact exec_reads_without_sequence h rfl
    · exact exec_reads_without_sequence h (notTaken hof)
  case frame =>
    rintro (rfl | ⟨n, rfl⟩ | ⟨rfl, hof⟩)
    · exact exec_with_sequence h rfl
    · exact exec_with_sequence h rfl
    · exact exec_with_sequence h hof

/-! ### A sequence and its return (R80, R92) -/

/-- IRET in the state a sequence left undoes it: the frame holds the three words, and the image loads as the flags. -/
theorem exec_iret_of_took {n : Byte} {s t : State} (hroom : FrameRoom s) (h : TookInterrupt n s t) :
    exec .iret t = .next { s with mem := t.mem, draws := s.draws + 1 } := by
  obtain ⟨n1, n3, n5, -⟩ := hroom
  obtain ⟨f0, -, f2, -, f4, -⟩ := frameAddr_eq s
  have hsp : t.regs.sp = s.regs.sp - 6 := by rw [h.rest]
  have hss : t.ss = s.ss := by rw [h.rest]
  have k2 : s.regs.sp - 6 + 2 = s.regs.sp - 4 := by bv_omega
  have k4 : s.regs.sp - 6 + 4 = s.regs.sp - 2 := by bv_omega
  have k6 : s.regs.sp - 6 + 6 = s.regs.sp := BitVec.sub_add_cancel _ _
  rw [exec_iret_of_reads (s := t) (i := s.ip) (c := s.cs) (w := flagsImage s)]
  · rw [h.rest, flagsImage, flagsLoad_imageWith]
    simp only [k6]
  · rw [hsp]; intro hh; exact n5 (by bv_omega)
  · rw [hsp]; intro hh; exact n3 (by bv_omega)
  · rw [hsp]; intro hh; exact n1 (by bv_omega)
  · rw [hsp, hss, ← f0]; exact h.savedIp
  · rw [hsp, hss, k2, ← f2]; exact h.savedCs
  · rw [hsp, hss, k4, ← f4]; exact h.image

theorem TookInterrupt.config {n : Byte} {s t : State} (h : TookInterrupt n s t) : t.config = s.config := by
  rw [h.rest]

/-- Settles O19: INT n is a sequence from past the instruction, and `exec_iret_of_took` undoes it. -/
theorem iretReturnsFromIntN : Obligations.IretReturnsFromIntN := by
  intro n s hr hv
  obtain ⟨t, ht, took⟩ := interruptSequence_advanceIp_took 2 hr hv
  refine ⟨t, _, ht, exec_iret_of_took (frameRoom_advanceIp.2 hr) took, rfl, fun a ha => ?_⟩
  refine Eq.trans ?_ (took.elsewhere a ha)
  exact readByte_congr a took.config.symm rfl

/-! ### Words at offset FFFFH (R43) -/

/-- A push that completes lowers SP and keeps SS and the launch memory. -/
theorem exists_push16 (v : Word) {s : State} (h : s.regs.sp ≠ 1)
    (w2 : writableAt s.config (phys s.ss (s.regs.sp - 2)) = true)
    (w1 : writableAt s.config (phys s.ss (s.regs.sp - 1)) = true) :
    ∃ t, push16 v s = .next t ∧ t.regs.sp = s.regs.sp - 2 ∧ t.ss = s.ss ∧ t.config = s.config := by
  obtain ⟨t, ht⟩ := push16_completes v h w2 w1
  obtain ⟨-, -, -, rfl⟩ := push16_eq_next.1 ht
  exact ⟨_, ht, rfl, rfl, rfl⟩

/-- The first push of a sequence is refused. -/
theorem interruptSequence_refused_first (n : Byte) {s : State} (h : s.regs.sp = 1) :
    interruptSequence n s = .refused .wordPushAtFFFF := by
  rw [interruptSequence, push16_at_one _ (by exact h)]
  rfl

/-- The second push of a sequence is refused, the first having found its bytes writable. -/
theorem interruptSequence_refused_second (n : Byte) {s : State} (h : s.regs.sp = 3)
    (w4 : writableAt s.config (frameAddr s 4) = true) (w5 : writableAt s.config (frameAddr s 5) = true) :
    interruptSequence n s = .refused .wordPushAtFFFF := by
  obtain ⟨-, -, -, -, f4, f5⟩ := frameAddr_eq s
  rw [f4] at w4
  rw [f5] at w5
  obtain ⟨s1, h1, sp1, -, -⟩ := exists_push16 (flagsImage s) (s := withDraw s) (by simp [h]) w4 w5
  have at1 : s1.regs.sp = 1 := by rw [sp1, withDraw_regs, h]; rfl
  rw [interruptSequence, h1, andThen_next, push16_at_one _ (by exact at1)]
  rfl

/-- The third push of a sequence is refused, the first two having found their bytes writable. -/
theorem interruptSequence_refused_third (n : Byte) {s : State} (h : s.regs.sp = 5)
    (w2 : writableAt s.config (frameAddr s 2) = true) (w3 : writableAt s.config (frameAddr s 3) = true)
    (w4 : writableAt s.config (frameAddr s 4) = true) (w5 : writableAt s.config (frameAddr s 5) = true) :
    interruptSequence n s = .refused .wordPushAtFFFF := by
  obtain ⟨-, -, f2, f3, f4, f5⟩ := frameAddr_eq s
  rw [f4] at w4
  rw [f5] at w5
  obtain ⟨s1, h1, sp1, ss1, cf1⟩ := exists_push16 (flagsImage s) (s := withDraw s) (by simp [h]) w4 w5
  have at3 : s1.regs.sp = 3 := by rw [sp1, withDraw_regs, h]; rfl
  obtain ⟨s2, h2, sp2, -, -⟩ := exists_push16 s1.cs (s := withFlags (clearTF (clearIF s1.flags)) s1)
    (by simp [at3])
    (by rw [withFlags_config, withFlags_ss, withFlags_regs, cf1, ss1, at3]; rw [f2, h] at w2; exact w2)
    (by rw [withFlags_config, withFlags_ss, withFlags_regs, cf1, ss1, at3]; rw [f3, h] at w3; exact w3)
  have at1 : s2.regs.sp = 1 := by rw [sp2, withFlags_regs, at3]; rfl
  rw [interruptSequence, h1, andThen_next, h2, andThen_next, push16_at_one _ at1]
  rfl

/-- A pop answers the word at SS:SP (R46). -/
theorem pop16_of_read {s : State} {v : Word} (h : s.regs.sp ≠ 0xFFFF) (hv : readWord (phys s.ss s.regs.sp) s = .next v) :
    pop16 s = .next (v, withSp (s.regs.sp + 2) s) :=
  pop16_eq_next.2 ⟨h, hv, rfl⟩

/-- Settles O20: the push or pop that stands at SP = 0001H or FFFFH, by how many came before it. -/
theorem wordAtOffsetFFFFIsRefused : Obligations.WordAtOffsetFFFFIsRefused := by
  intro s n
  rw [exec_intN, exec_iret]
  refine ⟨fun h => ?push1, fun h hw => ?push2, fun h hw => ?push3, fun h => ?pop1, fun v h hv => ?pop2,
    fun v w h hv hw => ?pop3⟩
  case push1 => exact interruptSequence_refused_first n h
  case push2 =>
    exact interruptSequence_refused_second n h (hw 4 (by decide) (by decide)) (hw 5 (by decide) (by decide))
  case push3 =>
    exact interruptSequence_refused_third n h (hw 2 (by decide) (by decide)) (hw 3 (by decide) (by decide))
      (hw 4 (by decide) (by decide)) (hw 5 (by decide) (by decide))
  case pop1 =>
    rw [interruptReturn, pop16_at_FFFF (by exact h)]
    rfl
  case pop2 =>
    rw [interruptReturn, pop16_of_read (s := advanceIp 1 s) (by simp [h]) (by rw [advanceIp_regs, h]; exact hv),
      andThen_next, pop16_at_FFFF (by simp [h])]
    rfl
  case pop3 =>
    rw [interruptReturn, pop16_of_read (s := advanceIp 1 s) (by simp [h]) (by rw [advanceIp_regs, h]; exact hv),
      andThen_next, pop16_of_read (v := w) (by simp [h]) (by simp only [withSp_regs, advanceIp_regs, h]; exact hw),
      andThen_next, pop16_at_FFFF (by simp [h])]
    rfl

end Sys2Proof.Machine
end

section
/-! The instruction boundary after an instruction (60_exceptions.md rules R96 to R101): which of NMI, INTR and single step
is taken, from the model's laws on how a boundary ends. -/

namespace Sys2Proof.Machine

/-! ### The parts of a turn -/

theorem runInstr_of_exec {i : Instr} {s u : State} (h : exec i s = .next u) :
    runInstr i s = boundary (runsSequence i s) u := by
  rw [runInstr, h, andThen_next]

/-- IF = 0, a shadow and a low level each keep INTR from being recognised (R87, R98). -/
theorem intrRecognised_eq_false {shadow : Bool} {s : State}
    (h : s.flags.IF = false ∨ shadow = true ∨ intrLevel s = false) : intrRecognised shadow s = false := by
  rcases h with h | h | h <;> simp [intrRecognised, h]

theorem intrRecognised_eq_true {shadow : Bool} {s : State} (hf : s.flags.IF = true) (hs : shadow = false)
    (hl : intrLevel s = true) : intrRecognised shadow s = true := by
  simp [intrRecognised, hf, hs, hl]

theorem intrLevel_without_pic {s : State} (h : s.config.picPresent = false) : intrLevel s = s.intrPin := by
  simp [intrLevel, h]

/-- The level of INTR is a matter of the chip, the pin and the parameters. -/
theorem intrLevel_congr {s t : State} (hc : t.config = s.config) (hp : t.pic = s.pic) (hi : t.intrPin = s.intrPin) :
    intrLevel t = intrLevel s := by
  unfold intrLevel
  rw [hc, hp, hi]

/-- A boundary at which nothing is recognised clears the shadow and no more. -/
theorem boundary_takes_nothing {s : State} (hn : s.nmiPending = false) (ht : s.tfBefore = false)
    (hi : s.flags.IF = false ∨ s.stiShadow = true ∨ intrLevel s = false) :
    boundary false s = .next { s with stiShadow := false } :=
  boundary_quiet hn ht (intrRecognised_eq_false (s := withShadow false s) hi)

/-- A single step due at a boundary at which nothing else is recognised (R96, R101). -/
theorem boundary_takes_trap {s : State} (hn : s.nmiPending = false) (ht : s.tfBefore = true)
    (hi : s.flags.IF = false ∨ s.stiShadow = true ∨ intrLevel s = false) (hr : FrameRoom s) (hv : VectorReady 1 s) :
    ∃ t, boundary false s = .next t ∧ TookInterrupt 1 { s with stiShadow := false } t := by
  obtain ⟨t, htrap, took⟩ := interruptSequence_took (n := 1) (s := withShadow false s) hr hv
  exact ⟨t, boundary_trap hn ht (intrRecognised_eq_false (s := withShadow false s) hi) htrap, took⟩

/-- After a sequence taken at the boundary the turn ends, or a single step due follows (R101). -/
theorem ends_or_traps {o : Res State} {due : Bool} {v : State} (h : o = if due then takeTrap v else .next v) :
    (due = false → o = .next v) ∧
      (due = true → FrameRoom v → VectorReady 1 v → ∃ t, o = .next t ∧ TookInterrupt 1 v t) := by
  refine ⟨fun hd => ?_, fun hd hr hv => ?_⟩
  · rw [h, hd]; rfl
  · rw [h, hd]; exact interruptSequence_took hr hv

/-- A latched NMI at a boundary, whether or not the instruction ran a sequence (R97, R101). -/
theorem boundary_takes_nmi (internal : Bool) {s : State} (hn : s.nmiPending = true) (hr : FrameRoom s)
    (hv : VectorReady 2 s) :
    ∃ v, takeNmi { s with stiShadow := false } = .next v ∧
      TookInterrupt 2 { s with nmiPending := false, stiShadow := false } v ∧
      (s.tfBefore = false → boundary internal s = .next v) ∧
      (s.tfBefore = true → FrameRoom v → VectorReady 1 v →
        ∃ t, boundary internal s = .next t ∧ TookInterrupt 1 v t) := by
  obtain ⟨v, htake⟩ := takeNmi_completes (s := withShadow false s) hr hv
  exact ⟨v, htake, takeNmi_next htake, ends_or_traps (boundary_nmi hn htake)⟩

/-! What a sequence needs is not the chips' to change. -/

theorem SameButPics.frameRoom {s t : State} (h : SameButPics s t) (hr : FrameRoom s) : FrameRoom t := by
  rw [h]
  exact hr

theorem SameButPics.vectorReady {n : Byte} {s t : State} (h : SameButPics s t) (hv : VectorReady n s) :
    VectorReady n t := by
  rw [h]
  exact hv

/-- An INTR acknowledged is taken where the frame has room and the vector answered can be read (R98, R99). -/
theorem takeIntr_took {s : State} {r : Byte × State} (ha : acknowledge s = .next r) (hr : FrameRoom s)
    (hv : VectorReady r.1 s) : ∃ v, takeIntr s = .next v ∧ TookInterrupt r.1 r.2 v := by
  obtain ⟨v, ht, took⟩ := interruptSequence_took ((acknowledge_same ha).frameRoom hr) ((acknowledge_same ha).vectorReady hv)
  exact ⟨v, takeIntr_eq_next.2 ⟨r, ha, ht⟩, took⟩

/-- An INTR recognised at a boundary (R98, R101). -/
theorem boundary_takes_intr {s : State} (hn : s.nmiPending = false) (hf : s.flags.IF = true) (hs : s.stiShadow = false)
    (hl : intrLevel s = true) {r : Byte × State} (ha : acknowledge s = .next r) (hr : FrameRoom s)
    (hv : VectorReady r.1 s) :
    ∃ v, takeIntr s = .next v ∧ TookInterrupt r.1 r.2 v ∧
      (s.tfBefore = false → boundary false s = .next v) ∧
      (s.tfBefore = true → FrameRoom v → VectorReady 1 v →
        ∃ t, boundary false s = .next t ∧ TookInterrupt 1 v t) := by
  obtain ⟨v, htake, took⟩ := takeIntr_took ha hr hv
  have hself : withShadow false s = s := withShadow_eq_self hs
  refine ⟨v, htake, took, ends_or_traps (boundary_intr hn ?_ (by rwa [hself]))⟩
  rw [hself]
  exact intrRecognised_eq_true hf hs hl

/-- Without an 8259A a high INTR is taken, with the environment's byte as its type, and no single step follows. -/
theorem boundary_takes_intr_without_pic {s : State} (hn : s.nmiPending = false) (ht : s.tfBefore = false)
    (hf : s.flags.IF = true) (hs : s.stiShadow = false) (hp : s.config.picPresent = false) (hi : s.intrPin = true)
    (hr : FrameRoom s) (hv : VectorReady s.intaByte s) :
    ∃ t, boundary false s = .next t ∧ TookInterrupt s.intaByte s t := by
  obtain ⟨v, -, took, hends, -⟩ :=
    boundary_takes_intr hn hf hs ((intrLevel_without_pic hp).trans hi) (acknowledge_without_pic hp) hr hv
  exact ⟨v, hends ht, took⟩

/-- The boundary after an instruction that ran a sequence, with no NMI latched (R101). -/
theorem boundary_internal_quiet {s : State} (hn : s.nmiPending = false) :
    (s.tfBefore = false → boundary true s = .next { s with stiShadow := false }) ∧
      (s.tfBefore = true → FrameRoom s → VectorReady 1 s →
        ∃ t, boundary true s = .next t ∧ TookInterrupt 1 { s with stiShadow := false } t) :=
  ends_or_traps (boundary_internal hn)

/-! ### The turns of CLI, STI and IRET -/

/-- The turn of an instruction that runs no sequence, at whose boundary nothing is recognised. -/
theorem runInstr_takes_nothing {i : Instr} {s u : State} (h : exec i s = .next u) (hrun : runsSequence i s = false)
    (hn : s.nmiPending = false) (ht : s.tfBefore = false)
    (hi : u.flags.IF = false ∨ u.stiShadow = true ∨ intrLevel s = false) :
    runInstr i s = .next { u with stiShadow := false } := by
  obtain ⟨un, ut, -, uc, ui, -, up, -⟩ := exec_latches h
  rw [runInstr_of_exec h, hrun]
  rw [← intrLevel_congr uc up ui] at hi
  exact boundary_takes_nothing (un.trans hn) (ut.trans ht) hi

/-- The turn of an instruction that runs no sequence, at whose boundary a high INTR is taken without an 8259A. -/
theorem runInstr_takes_intr {i : Instr} {s u : State} (h : exec i s = .next u) (hrun : runsSequence i s = false)
    (hn : s.nmiPending = false) (ht : s.tfBefore = false) (hf : u.flags.IF = true) (hs : u.stiShadow = false)
    (hp : s.config.picPresent = false) (hi : s.intrPin = true) (hr : FrameRoom u) (hv : VectorReady s.intaByte u) :
    ∃ t, runInstr i s = .next t ∧ TookInterrupt s.intaByte u t := by
  obtain ⟨un, ut, -, uc, ui, ub, -⟩ := exec_latches h
  rw [runInstr_of_exec h, hrun, ← ub]
  exact boundary_takes_intr_without_pic (un.trans hn) (ut.trans ht) hf hs (by rw [uc, hp]) (ui.trans hi) hr
    (by rwa [ub])

/-- Settles O22: CLI leaves IF = 0, with which nothing is recognised. -/
theorem cliTurnTakesNoIntr : Obligations.CliTurnTakesNoIntr :=
  fun s hn ht => runInstr_takes_nothing (exec_cli s) rfl hn ht (.inl rfl)

/-- Settles O23: with the parameter the shadow keeps INTR from being recognised, without it nothing does. -/
theorem stiShadowDelaysIntr : Obligations.StiShadowDelaysIntr := by
  intro s hn ht hs hf
  refine ⟨fun hc => ?shadow, fun hc hp hi hr hv => ?noShadow⟩
  case shadow =>
    rw [runInstr_takes_nothing ((stiSetsIfAndShadow s).1 hc hf) rfl hn ht (.inr (.inl rfl)), ← hs]
  case noShadow =>
    exact runInstr_takes_intr ((stiSetsIfAndShadow s).2 (.inl hc)) rfl hn ht rfl hs hp hi hr hv

/-- Settles O24: IRET leaves the latches, the pins and the parameters as they were, so INTR is taken at its boundary. -/
theorem intrTakenRightAfterIret : Obligations.IntrTakenRightAfterIret := by
  intro s u h hf hn ht hs hp hi hr hv
  obtain ⟨-, -, us, -⟩ := exec_latches h
  exact runInstr_takes_intr h rfl hn ht hf ((us nofun).trans hs) hp hi hr hv

/-- Settles O28: TF is sampled before the IRET, so no single step is due at its boundary. -/
theorem iretLoadingTfIsNotTrapped : Obligations.IretLoadingTfIsNotTrapped := by
  intro s u hreset ha htf hfetch h _ hn hi
  rw [step_idle ha, processorStep_run hreset hfetch, htf]
  exact runInstr_takes_nothing (s := withTfBefore false s) h rfl hn rfl (hi.imp_right .inr)

/-! ### The order of recognition (R100, R101) -/

/-- Settles O25: the latch and the sampled TF are as before the instruction, and `boundary_takes_nmi` does not ask whether
it ran a sequence. -/
theorem nmiIsRecognisedFirst : Obligations.NmiIsRecognisedFirst := by
  intro i s u h hn hr hv
  obtain ⟨un, ut, -⟩ := exec_latches h
  rw [runInstr_of_exec h, ← ut]
  exact boundary_takes_nmi _ (un.trans hn) hr hv

/-- Settles O27: nothing recognised before the single step, NMI, and INTR, each by its boundary. -/
theorem singleStepIsTakenLast : Obligations.SingleStepIsTakenLast := fun _ =>
  ⟨fun hn hi => ⟨fun ht => boundary_takes_nothing hn ht hi, fun ht hr hv => boundary_takes_trap hn ht hi hr hv⟩,
    fun hn hr hv => boundary_takes_nmi false hn hr hv,
    fun hn hf hs hl _ ha hr hv => boundary_takes_intr hn hf hs hl ha hr hv⟩

/-- A frame holds the CS:IP its sequence began at (R92). -/
theorem TookInterrupt.return_address {n : Byte} {s t : State} (h : TookInterrupt n s t) :
    readWord (frameAddr s 0) t = .next s.ip ∧ readWord (frameAddr s 2) t = .next s.cs :=
  ⟨h.savedIp, h.savedCs⟩

/-- Settles O29: the instruction's own sequence is `exec`'s, and the boundary is told of it; what follows is the NMI
latched and the single step due, each with its frame. -/
theorem nmiAndTrapFollowTheInstructionsOwnSequence : Obligations.NmiAndTrapFollowTheInstructionsOwnSequence := by
  refine ⟨fun i s u h hrun => ?own, fun u => ⟨fun hn => (boundary_internal_quiet hn).1, fun hn ht hr hv => ?trap,
    fun hn hr hv => ?nmi⟩⟩
  case own =>
    obtain ⟨un, ut, -⟩ := exec_latches h
    refine ⟨by rw [runInstr_of_exec h, hrun], ut, un, ?_⟩
    cases i with
    | int3 => exact (interruptSequence_next h).2
    | intN n => exact (interruptSequence_next h).2
    | into => exact ⟨rfl, (interruptSequence_next (exec_into_of_overflow hrun ▸ h)).2⟩
    | iret => cases hrun
    | cli => cases hrun
    | sti => cases hrun
  case trap =>
    obtain ⟨t, hb, took⟩ := (boundary_internal_quiet hn).2 ht hr hv
    exact ⟨t, hb, took, took.return_address⟩
  case nmi =>
    obtain ⟨v, htake, took, hends, htraps⟩ := boundary_takes_nmi true hn hr hv
    refine ⟨v, htake, took, hends, fun ht hr1 hv1 => ?_⟩
    obtain ⟨t, hb, took1⟩ := htraps ht hr1 hv1
    exact ⟨t, hb, took1, took1.return_address⟩

/-! ### The divide error (R95) -/

theorem step_divideError {s : State} {len : Nat} {wide : Bool} {rest : List Move}
    (ha : s.agenda = .divideError len wide :: rest) (hr : s.resetPin = false) :
    step s = andThen (interruptSequence 0 (withDividendLost wide (advanceIp len (turnStart rest s)))) (boundary true) := by
  rw [step_move ha, takeMove_divideError, outsideTurn, if_neg (by simp [hr])]
  rfl

/-- Settles O21: the sequence of type 0 starts where `withDividendLost` leaves the turn, and a sequence keeps AX and DX. -/
theorem divideErrorIsTypeZero : Obligations.DivideErrorIsTypeZero := by
  intro len wide s rest ha hreset hr hv
  obtain ⟨u, hu, took⟩ :=
    interruptSequence_took (n := 0) (s := withDividendLost wide (advanceIp len (turnStart rest s))) hr hv
  have hax : u.regs.ax = Config.freeQuotient s.draws := by rw [took.rest]; rfl
  have hdx : u.regs.dx = if wide then Config.freeRemainder s.draws else s.regs.dx := by rw [took.rest]; rfl
  obtain ⟨un, -, ut, -⟩ := took.latches
  have hstep : step s = boundary true u := by rw [step_divideError ha hreset, hu, andThen_next]
  refine ⟨u, ?_, fun hw => by rw [hdx, hw]; rfl, hstep, fun htf hn => ?_⟩
  · rw [hax, hdx]
    exact took
  · rw [hstep]
    exact (boundary_internal_quiet (un.trans hn)).1 (ut.trans htf)

/-! ### An INTR through a single 8259A (R136) -/

/-- Settles O31: the winner makes INT high, and its acknowledge serves it, there being no slave. -/
theorem intrThroughThePic : Obligations.IntrThroughThePic := by
  intro s n hp hb hsp hslaves hready hupm hsngl haeoi hw hf hs hn ht hr hv
  have hlevel : intrLevel s = true := by
    rw [intrLevel_of_present hp]
    exact intOut_eq_true.2 ⟨hready, n, (winner_eq_some.1 hw).1⟩
  have hcascade : CascadeInv s := ⟨hb, by simp [hslaves], by simp [hslaves]⟩
  have hack : acknowledge s = .next (typeOf s.pic n, { s with pic := serve n s.pic }) := by
    rw [acknowledge_with_pic hp, ← settlePics_serve hcascade]
    exact picAcknowledge_winner hb hsp (by simp [hready]) hupm hw (hasSlave_eq_false.2 (.inl hsngl))
  obtain ⟨v, -, took, hends, -⟩ := boundary_takes_intr hn hf hs hlevel hack hr hv
  refine ⟨v, serve n s.pic, hends ht, took, ?_, ?_, fun m hm => ⟨?_, ?_⟩⟩
  · rw [bitAt_serve_isr, if_pos rfl, aeoiMode_eq (.inl haeoi), haeoi]
    rfl
  · rw [bitAt_serve_edge, if_pos rfl]
  · rw [bitAt_serve_isr, if_neg hm]
  · rw [bitAt_serve_edge, if_neg hm]

end Sys2Proof.Machine
end

section
/-! Two statements about a whole boundary: with IF = 0 it neither reads nor writes INTR and the chips, and a turn pushes at
most three frames (60_exceptions.md rule R101; 20_memory.md section 5). -/

namespace Sys2Proof.Machine

/-! ### Blindness to a masked INTR (R25, R98) -/

/-- The inputs an acknowledge looks at: INTR, the type byte and the chips. -/
def withInputs (level : Bool) (n : Byte) (p : Pic) (l : List Slave) (s : State) : State :=
  { s with intrPin := level, intaByte := n, pic := p, slaves := l }

/-- An operation does the same whatever those inputs are, and leaves them. -/
def BlindToInputs (f : State → Res State) : Prop :=
  ∀ level n p l s, f (withInputs level n p l s) = andThen (f s) fun u => .next (withInputs level n p l u)

theorem BlindToInputs.andThen {f g : State → Res State} (hf : BlindToInputs f) (hg : BlindToInputs g) :
    BlindToInputs fun s => andThen (f s) g := by
  intro level n p l s
  dsimp only
  rw [hf, andThen_assoc, andThen_assoc]
  cases f s with
  | next u => exact hg level n p l u
  | fault r => rfl
  | refused r => rfl

theorem writeByte_blind (a : Addr) (v : Byte) : BlindToInputs (writeByte a v) := by
  intro level n p l s
  unfold writeByte
  have hconfig : (withInputs level n p l s).config = s.config := rfl
  rw [hconfig]
  split
  · rfl
  · split <;> rfl

theorem writeWord_blind (a : Addr) (v : Word) : BlindToInputs (writeWord a v) :=
  (writeByte_blind a (lowByte v)).andThen (writeByte_blind (a + 1) (highByte v))

theorem push16_blind (v : Word) : BlindToInputs (push16 v) := by
  intro level n p l s
  unfold push16
  have hregs : (withInputs level n p l s).regs = s.regs := rfl
  rw [hregs]
  split
  · rfl
  · exact writeWord_blind _ v level n p l (withSp (s.regs.sp - 2) s)

/-- A sequence is three pushes and the entry at the vector, each an operation on the state before it (R92). -/
theorem interruptSequence_blind (n : Byte) : BlindToInputs (interruptSequence n) := by
  have enter : BlindToInputs fun s => andThen (ivtRead n s) fun vector => .next (withCsIp vector.1 vector.2 s) := by
    intro level t p l s
    have hread : ivtRead n (withInputs level t p l s) = ivtRead n s := rfl
    dsimp only
    rw [hread, andThen_assoc]
    rfl
  have saveIp : BlindToInputs fun s => push16 s.ip s := fun level t p l s => push16_blind s.ip level t p l s
  have saveCs : BlindToInputs fun s => push16 s.cs (withFlags (clearTF (clearIF s.flags)) s) :=
    fun level t p l s => push16_blind s.cs level t p l (withFlags (clearTF (clearIF s.flags)) s)
  have saveFlags : BlindToInputs fun s => push16 (flagsImage s) (withDraw s) :=
    fun level t p l s => push16_blind (flagsImage s) level t p l (withDraw s)
  exact saveFlags.andThen (saveCs.andThen (saveIp.andThen enter))

theorem takeNmi_blind : BlindToInputs takeNmi :=
  fun level n p l s => interruptSequence_blind 2 level n p l (withNmi false s)

theorem afterNmi_blind (due : Bool) : BlindToInputs (afterNmi due) := by
  cases due with
  | false => exact fun _ _ _ _ _ => rfl
  | true => exact interruptSequence_blind 1

theorem afterSequence_blind (due : Bool) : BlindToInputs (afterSequence due) := by
  intro level n p l s
  unfold afterSequence
  have hnmi : (withInputs level n p l s).nmiPending = s.nmiPending := rfl
  rw [hnmi]
  split
  · exact takeNmi_blind.andThen (afterNmi_blind due) level n p l s
  · exact afterNmi_blind due level n p l s

/-- With IF = 0 INTR is not recognised, so of what may be, nothing looks at the inputs (R98). -/
theorem recognise_blind {s : State} (hf : s.flags.IF = false) (shadow level : Bool) (n : Byte) (p : Pic) (l : List Slave) :
    recognise shadow (withInputs level n p l s) =
      andThen (recognise shadow s) fun u => .next (withInputs level n p l u) := by
  have masked : intrRecognised shadow s = false := intrRecognised_eq_false (.inl hf)
  have masked' : intrRecognised shadow (withInputs level n p l s) = false := intrRecognised_eq_false (.inl hf)
  have hnmi : (withInputs level n p l s).nmiPending = s.nmiPending := rfl
  have htf : (withInputs level n p l s).tfBefore = s.tfBefore := rfl
  unfold recognise
  rw [masked, masked', hnmi, htf]
  split
  · exact takeNmi_blind.andThen (afterSequence_blind s.tfBefore) level n p l s
  rw [if_neg Bool.false_ne_true, if_neg Bool.false_ne_true]
  split
  · exact (interruptSequence_blind 1).andThen (afterSequence_blind false) level n p l s
  · rfl

/-- Settles O26: after a sequence INTR is not looked at, and before one `recognise_blind` keeps it out. -/
theorem boundaryIsBlindToMaskedIntr : Obligations.BoundaryIsBlindToMaskedIntr := by
  intro internal s level n p l hf
  cases internal with
  | true => exact afterSequence_blind s.tfBefore level n p l (withShadow false s)
  | false => exact recognise_blind (s := withShadow false s) hf s.stiShadow level n p l

/-! ### The frames a turn pushes (R47, R92) -/

/-- From `s` to `t` exactly `k` frames were pushed: SP is lowered by 6 for each, and no byte changed but those directly
below the stack pointer. -/
structure PushedFrames (k : Nat) (s t : State) : Prop where
  ss : t.ss = s.ss
  sp : t.regs.sp = s.regs.sp - BitVec.ofNat 16 (6 * k)
  elsewhere : ∀ a : Addr, (∀ j < 6 * k, a ≠ phys s.ss (s.regs.sp - 1 - BitVec.ofNat 16 j)) → readByte a t = readByte a s

theorem PushedFrames.none {s t : State} (hss : t.ss = s.ss) (hsp : t.regs.sp = s.regs.sp)
    (hread : ∀ a, readByte a t = readByte a s) : PushedFrames 0 s t where
  ss := hss
  sp := by rw [hsp]; exact (BitVec.sub_zero _).symm
  elsewhere a _ := hread a

theorem PushedFrames.trans {j k : Nat} {s t u : State} (h : PushedFrames j s t) (h' : PushedFrames k t u) :
    PushedFrames (j + k) s u where
  ss := h'.ss.trans h.ss
  sp := by rw [h'.sp, h.sp, BitVec.sub_sub, ← BitVec.ofNat_add, Nat.mul_add]
  elsewhere a ha := by
    have below (i : Nat) : t.regs.sp - 1 - BitVec.ofNat 16 i = s.regs.sp - 1 - BitVec.ofNat 16 (6 * j + i) := by
      rw [h.sp, BitVec.ofNat_add]
      bv_omega
    rw [h'.elsewhere a, h.elsewhere a]
    · exact fun i hi => ha i (by omega)
    · intro i hi
      rw [h.ss, below]
      exact ha (6 * j + i) (by omega)

/-- A sequence pushes one frame. -/
theorem TookInterrupt.pushedFrames {n : Byte} {s t : State} (h : TookInterrupt n s t) : PushedFrames 1 s t where
  ss := by rw [h.rest]
  sp := by rw [h.rest]; rfl
  elsewhere a ha := by
    obtain ⟨f0, f1, f2, f3, f4, f5⟩ := frameAddr_eq s
    have below (k i : Word) (hi : i = k + 1) : s.regs.sp - 1 - k = s.regs.sp - i := by rw [hi]; bv_omega
    refine h.elsewhere a (forall_lt_six.2 ⟨?_, ?_, ?_, ?_, ?_, ?_⟩)
    · rw [f0, ← below 5 6 (by decide)]; exact ha 5 (by decide)
    · rw [f1, ← below 4 5 (by decide)]; exact ha 4 (by decide)
    · rw [f2, ← below 3 4 (by decide)]; exact ha 3 (by decide)
    · rw [f3, ← below 2 3 (by decide)]; exact ha 2 (by decide)
    · rw [f4, ← below 1 2 (by decide)]; exact ha 1 (by decide)
    · rw [f5, ← below 0 1 (by decide)]; exact ha 0 (by decide)

/-- From `s` to `t` at most `m` frames were pushed. -/
def PushedAtMost (m : Nat) (s t : State) : Prop :=
  ∃ k ≤ m, PushedFrames k s t

theorem PushedAtMost.trans {j k : Nat} {s t u : State} (h : PushedAtMost j s t) (h' : PushedAtMost k t u) :
    PushedAtMost (j + k) s u := by
  obtain ⟨a, ha, hs⟩ := h
  obtain ⟨b, hb, ht⟩ := h'
  exact ⟨a + b, Nat.add_le_add ha hb, hs.trans ht⟩

theorem PushedAtMost.mono {j k : Nat} (hjk : j ≤ k) {s t : State} (h : PushedAtMost j s t) : PushedAtMost k s t := by
  obtain ⟨a, ha, hs⟩ := h
  exact ⟨a, Nat.le_trans ha hjk, hs⟩

/-- A change that leaves SS, SP and every byte pushes nothing. -/
theorem PushedAtMost.none {s t : State} (hss : t.ss = s.ss) (hsp : t.regs.sp = s.regs.sp)
    (hread : ∀ a, readByte a t = readByte a s) : PushedAtMost 0 s t :=
  ⟨0, Nat.le_refl 0, .none hss hsp hread⟩

theorem PushedAtMost.refl (m : Nat) (s : State) : PushedAtMost m s s :=
  ⟨0, Nat.zero_le m, .none rfl rfl fun _ => rfl⟩

theorem interruptSequence_pushes {n : Byte} {s t : State} (h : interruptSequence n s = .next t) : PushedAtMost 1 s t :=
  ⟨1, Nat.le_refl 1, (interruptSequence_next h).2.pushedFrames⟩

theorem SameButPics.pushedAtMost {s t : State} (h : SameButPics s t) : PushedAtMost 0 s t :=
  .none (by rw [h]) (by rw [h]) fun a => readByte_congr a h.config (by rw [h.mem])

theorem takeNmi_pushes {s t : State} (h : takeNmi s = .next t) : PushedAtMost 1 s t :=
  (PushedAtMost.none (s := s) (t := withNmi false s) rfl rfl fun _ => rfl).trans (interruptSequence_pushes h)

theorem takeIntr_pushes {s t : State} (h : takeIntr s = .next t) : PushedAtMost 1 s t := by
  obtain ⟨r, hr, ht⟩ := takeIntr_eq_next.1 h
  exact (acknowledge_same hr).pushedAtMost.trans (interruptSequence_pushes ht)

theorem afterNmi_pushes {due : Bool} {s t : State} (h : afterNmi due s = .next t) : PushedAtMost 1 s t := by
  cases due with
  | false => cases h; exact .refl 1 s
  | true => exact interruptSequence_pushes h

theorem afterSequence_pushes {due : Bool} {s t : State} (h : afterSequence due s = .next t) : PushedAtMost 2 s t := by
  unfold afterSequence at h
  split at h
  · obtain ⟨u, hu, ht⟩ := andThen_eq_next.1 h
    exact (takeNmi_pushes hu).trans (afterNmi_pushes ht)
  · exact (afterNmi_pushes h).mono (by decide)

theorem recognise_pushes {shadow : Bool} {s t : State} (h : recognise shadow s = .next t) : PushedAtMost 3 s t := by
  unfold recognise at h
  split at h
  · obtain ⟨u, hu, ht⟩ := andThen_eq_next.1 h
    exact (takeNmi_pushes hu).trans (afterSequence_pushes ht)
  split at h
  · obtain ⟨u, hu, ht⟩ := andThen_eq_next.1 h
    exact (takeIntr_pushes hu).trans (afterSequence_pushes ht)
  split at h
  · obtain ⟨u, hu, ht⟩ := andThen_eq_next.1 h
    exact (interruptSequence_pushes hu).trans (afterSequence_pushes ht)
  · cases h; exact .refl 3 s

/-- The stack pointer from which a turn pushes: an IRET has raised it by 6 (R80). -/
def turnBase (i : Instr) (s : State) : State :=
  withSp (if i = .iret then s.regs.sp + 6 else s.regs.sp) s

/-- An instruction pushes one frame if it runs a sequence, else none. -/
theorem exec_pushes {i : Instr} {s t : State} (h : exec i s = .next t) :
    (runsSequence i s = true ∧ PushedAtMost 1 (turnBase i s) t) ∨
      (runsSequence i s = false ∧ PushedAtMost 0 (turnBase i s) t) := by
  have quiet {u : State} (hi : i ≠ .iret) (hss : u.ss = s.ss) (hsp : u.regs.sp = s.regs.sp)
      (hread : ∀ a, readByte a u = readByte a s) : PushedAtMost 0 (turnBase i s) u :=
    .none hss (by rw [hsp, turnBase, if_neg hi]; rfl) hread
  rcases exec_cases h with ⟨hrun, hi, -, -, n, len, hs⟩ | ⟨hrun, ⟨rfl, -, rfl⟩ | ⟨rfl, hret⟩ | ⟨rfl, rfl⟩ | ⟨rfl, rfl⟩⟩
  · have hbase : turnBase i s = s := by rw [turnBase, if_neg hi]; rfl
    rw [hbase]
    have advanced : PushedAtMost 0 s (advanceIp len s) := .none rfl rfl fun _ => rfl
    exact .inl ⟨hrun, advanced.trans (interruptSequence_pushes hs)⟩
  · exact .inr ⟨hrun, quiet nofun rfl rfl fun _ => rfl⟩
  · obtain ⟨-, -, -, i, c, w, -, -, -, rfl⟩ := interruptReturn_eq_next.1 hret
    exact .inr ⟨hrun, .none rfl rfl fun _ => rfl⟩
  · exact .inr ⟨hrun, quiet nofun rfl rfl fun _ => rfl⟩
  · exact .inr ⟨hrun, quiet nofun rfl rfl fun _ => rfl⟩

/-- A boundary after a sequence pushes at most two frames, another at most three. -/
theorem runInstr_pushes {i : Instr} {s t : State} (h : runInstr i s = .next t) : PushedAtMost 3 (turnBase i s) t := by
  obtain ⟨u, hu, ht⟩ := runInstr_eq_next.1 h
  have cleared : PushedAtMost 0 u (withShadow false u) := .none rfl rfl fun _ => rfl
  rcases exec_pushes hu with ⟨hrun, hp⟩ | ⟨hrun, hp⟩ <;> rw [hrun] at ht
  · exact (hp.trans cleared).trans (afterSequence_pushes ht)
  · exact (hp.trans cleared).trans (recognise_pushes ht)

/-- Settles O30: `runInstr_pushes`, from the stack pointer after the pops of an IRET. -/
theorem turnPushesAtMostThreeFrames : Obligations.TurnPushesAtMostThreeFrames := by
  intro i s t h
  obtain ⟨k, hk, -, hsp, helse⟩ := runInstr_pushes h
  exact ⟨k, hk, hsp, helse⟩

end Sys2Proof.Machine
end

section
/-! Port turns (10_state.md rule R31; 60_exceptions.md rules R122, R133): the decoding of a port, the access to the chip it
selects, and what a chip replaced leaves. -/

namespace Sys2Proof.Machine

/-! ### The access to a port -/

theorem portWrite_refused {port : Word} {s : State} (d : Byte)
    (h : s.config.picPresent = false ∨ portChip port s = none) : portWrite port d s = .refused (.noPicAtPort port) := by
  unfold portWrite
  rcases h with h | h
  · rw [h]
  · rw [h]; cases s.config.picPresent <;> rfl

theorem portRead_refused {port : Word} {s : State} (h : s.config.picPresent = false ∨ portChip port s = none) :
    portRead port s = .refused (.noPicAtPort port) := by
  unfold portRead
  rcases h with h | h
  · rw [h]
  · rw [h]; cases s.config.picPresent <;> rfl

theorem portWrite_board {port : Word} {s : State} (d : Byte) (hp : s.config.picPresent = true)
    (hc : portChip port s ≠ none) (hb : boardAdmitted s = false) :
    portWrite port d s = .refused .picCountNotAdmitted := by
  obtain ⟨r, hr⟩ := Option.ne_none_iff_exists'.1 hc
  simp [portWrite, hp, hr, hb]

theorem portRead_board {port : Word} {s : State} (hp : s.config.picPresent = true) (hc : portChip port s ≠ none)
    (hb : boardAdmitted s = false) : portRead port s = .refused .picCountNotAdmitted := by
  obtain ⟨r, hr⟩ := Option.ne_none_iff_exists'.1 hc
  simp [portRead, hp, hr, hb]

/-- The chip the port selects takes the byte (R122). -/
theorem portWrite_of_chip {port : Word} {s : State} {id : ChipId} {a0 : Bool} {p : Pic} (d : Byte)
    (hp : s.config.picPresent = true) (hb : boardAdmitted s = true) (hc : portChip port s = some (id, a0))
    (hch : chipOf id s = some p) :
    portWrite port d s = andThen (chipWrite s.config a0 d p) fun p' => .next (setChip id p' s) := by
  simp only [portWrite, hp, hc, hb, if_true, picWrite, hch]

/-- The chip the port selects gives the byte, which `ioData` keeps (R133). -/
theorem portRead_of_chip {port : Word} {s : State} {id : ChipId} {a0 : Bool} {p : Pic}
    (hp : s.config.picPresent = true) (hb : boardAdmitted s = true) (hc : portChip port s = some (id, a0))
    (hch : chipOf id s = some p) :
    portRead port s = andThen (chipRead (Config.freePollByte s.draws) a0 p) fun r =>
      .next { setChip id r.2 (withDraw s) with ioData := r.1 } := by
  simp only [portRead, hp, hc, hb, if_true, picRead, hch, andThen_assoc, andThen_next]

/-! ### The turn -/

theorem step_portWrite {s : State} {len : Nat} {port : Word} {d : Byte} {rest : List Move}
    (ha : s.agenda = .portWrite len port d :: rest) (hr : s.resetPin = false) :
    step s = andThen (portWrite port d (advanceIp len (turnStart rest s))) (boundary false) := by
  rw [step_move ha, takeMove_portWrite, outsideTurn, if_neg (by simp [hr])]
  rfl

theorem step_portRead {s : State} {len : Nat} {port : Word} {rest : List Move}
    (ha : s.agenda = .portRead len port :: rest) (hr : s.resetPin = false) :
    step s = andThen (portRead port (advanceIp len (turnStart rest s))) fun v => boundary false (withAl v.ioData v) := by
  rw [step_move ha, takeMove_portRead, outsideTurn, if_neg (by simp [hr]), andThen_assoc]
  rfl

theorem chipOf_turnStart (id : ChipId) (len : Nat) (l : List Move) (s : State) :
    chipOf id (advanceIp len (turnStart l s)) = chipOf id s := by cases id <;> rfl

/-- A byte read by an IN stands in AL and in `ioData`, whichever chip gave it. -/
theorem withAl_setChip (id : ChipId) (p : Pic) (v : Byte) (s : State) :
    withAl v { setChip id p s with ioData := v } =
      setChip id p { s with ioData := v, regs := { s.regs with ax := s.regs.ax.extractLsb' 8 8 ++ v } } := by
  cases id <;> rfl

/-! ### Which chip a port selects (R31, D15) -/

theorem findIdx?_eq_some_of_first {α : Type} {q : α → Bool} {l : List α} {k : Nat} {x : α} (hk : l[k]? = some x)
    (hq : q x = true) (hfirst : ∀ j y, l[j]? = some y → q y = true → k ≤ j) : l.findIdx? q = some k := by
  obtain ⟨hlt, rfl⟩ := List.getElem?_eq_some_iff.1 hk
  refine List.findIdx?_eq_some_iff_getElem.2 ⟨hlt, hq, fun j hj hqj => ?_⟩
  have := hfirst j _ (List.getElem?_eq_getElem (by omega)) hqj
  omega

theorem portChip_base {port : Word} {s : State} (h : port = s.config.picBase) :
    portChip port s = some (.master, false) := if_pos h

theorem portChip_base_A0 {port : Word} {s : State} (h : port ≠ s.config.picBase)
    (h1 : port = s.config.picBase + s.config.picA0Step) : portChip port s = some (.master, true) := by
  rw [portChip, if_neg h, if_pos h1]

/-- A port that is not the master's is looked up in the slaves' bases, then in their A0 ports. -/
theorem portChip_of_slaves {port : Word} {s : State} (h : port ≠ s.config.picBase)
    (h1 : port ≠ s.config.picBase + s.config.picA0Step) :
    portChip port s =
      ((s.slaves.findIdx? fun sl => port == sl.base).map fun k => (ChipId.slave k, false)).or
        ((s.slaves.findIdx? fun sl => port == sl.base + s.config.picA0Step).map fun k => (ChipId.slave k, true)) := by
  rw [portChip, if_neg h, if_neg h1]
  cases s.slaves.findIdx? fun sl => port == sl.base with
  | some k => rfl
  | none => cases s.slaves.findIdx? fun sl => port == sl.base + s.config.picA0Step <;> rfl

theorem portChip_slave_base {port : Word} {s : State} {k : Nat} {sl : Slave} (h : port ≠ s.config.picBase)
    (h1 : port ≠ s.config.picBase + s.config.picA0Step) (hk : s.slaves[k]? = some sl)
    (hfirst : ∀ j x, s.slaves[j]? = some x → port = x.base → k ≤ j) (hb : port = sl.base) :
    portChip port s = some (.slave k, false) := by
  have hfind : (s.slaves.findIdx? fun sl => port == sl.base) = some k :=
    findIdx?_eq_some_of_first hk (by simpa using hb) fun j x hj hx => hfirst j x hj (by simpa using hx)
  rw [portChip_of_slaves h h1, hfind]
  rfl

theorem portChip_slave_A0 {port : Word} {s : State} {k : Nat} {sl : Slave} (h : port ≠ s.config.picBase)
    (h1 : port ≠ s.config.picBase + s.config.picA0Step) (hk : s.slaves[k]? = some sl)
    (hnone : ∀ x ∈ s.slaves, port ≠ x.base)
    (hfirst : ∀ j x, s.slaves[j]? = some x → port = x.base + s.config.picA0Step → k ≤ j)
    (hb : port = sl.base + s.config.picA0Step) : portChip port s = some (.slave k, true) := by
  have hfindBase : (s.slaves.findIdx? fun sl => port == sl.base) = none :=
    List.findIdx?_eq_none_iff.2 fun x hx => by simpa using hnone x hx
  have hfind : (s.slaves.findIdx? fun sl => port == sl.base + s.config.picA0Step) = some k :=
    findIdx?_eq_some_of_first hk (by simpa using hb) fun j x hj hx => hfirst j x hj (by simpa using hx)
  rw [portChip_of_slaves h h1, hfindBase, hfind]
  rfl

theorem portChip_eq_none {port : Word} {s : State} :
    portChip port s = none ↔ port ≠ s.config.picBase ∧ port ≠ s.config.picBase + s.config.picA0Step ∧
      ∀ x ∈ s.slaves, port ≠ x.base ∧ port ≠ x.base + s.config.picA0Step := by
  by_cases h : port = s.config.picBase
  · rw [portChip_base h]
    exact ⟨nofun, fun hh => absurd h hh.1⟩
  by_cases h1 : port = s.config.picBase + s.config.picA0Step
  · rw [portChip_base_A0 h h1]
    exact ⟨nofun, fun hh => absurd h1 hh.2.1⟩
  · rw [portChip_of_slaves h h1]
    simp only [Option.or_eq_none_iff, Option.map_eq_none_iff, List.findIdx?_eq_none_iff, beq_eq_false_iff_ne, ne_eq, h, h1,
      not_false_eq_true, true_and]
    exact ⟨fun hh x hx => ⟨hh.1 x hx, hh.2 x hx⟩, fun hh => ⟨fun x hx => (hh x hx).1, fun x hx => (hh x hx).2⟩⟩

/-! ### A chip replaced -/

theorem setSlave_getElem?_same {k : Nat} {p : Pic} {l : List Slave} {sl : Slave} (h : l[k]? = some sl) :
    (setSlave k p l)[k]? = some { sl with chip := p } := by
  simp [setSlave, h]

theorem setSlave_getElem?_ne {j k : Nat} (p : Pic) (l : List Slave) (h : j ≠ k) : (setSlave j p l)[k]? = l[k]? := by
  rw [setSlave, List.getElem?_modify]
  simp [h]

/-- The chip replaced is the new one, but for the inputs and edge latches of a master with slaves (R142). -/
theorem chipOf_setChip_same {id : ChipId} {p p' : Pic} {s : State} (h : chipOf id s = some p) :
    ∃ q, chipOf id (setChip id p' s) = some q ∧ q = { p' with ir := q.ir, edge := q.edge } ∧
      (id ≠ .master ∨ s.slaves = [] → q = p') := by
  cases id with
  | master =>
    refine ⟨driveLines p' s.slaves, rfl, driveLines_eq p' s.slaves, fun hs => ?_⟩
    rw [hs.resolve_left fun hne => hne rfl]
    rfl
  | slave k =>
    obtain ⟨sl, hsl, -⟩ := Option.map_eq_some_iff.1 h
    refine ⟨p', ?_, rfl, fun _ => rfl⟩
    exact Option.map_eq_some_iff.2 ⟨{ sl with chip := p' }, setSlave_getElem?_same hsl, rfl⟩

theorem chipOf_slave_setChip_ne {id : ChipId} {k : Nat} (p' : Pic) (s : State) (h : id ≠ .slave k) :
    chipOf (.slave k) (setChip id p' s) = chipOf (.slave k) s := by
  cases id with
  | master => rfl
  | slave j => exact congrArg (Option.map Slave.chip) (setSlave_getElem?_ne p' s.slaves fun hj => h (hj ▸ rfl))

theorem chipOf_master_setChip {id : ChipId} (p' : Pic) (s : State) (h : id ≠ .master) :
    ∃ q, chipOf .master (setChip id p' s) = some q ∧ q = { s.pic with ir := q.ir, edge := q.edge } := by
  cases id with
  | master => exact absurd rfl h
  | slave k => exact ⟨driveLines s.pic (setSlave k p' s.slaves), rfl, driveLines_eq _ _⟩

/-- Settles O10: the turns are accesses to a port from past the instruction; the chip selected is `portChip`'s, and what
becomes of the chips is `setChip`'s. -/
theorem portTurnsReachTheChip : Obligations.PortTurnsReachTheChip := by
  refine ⟨fun s len port rest hr => ⟨fun d ha => ?write, fun ha => ?read⟩, fun s port => ?decode,
    fun s id p p' hp => ?chips⟩
  case write =>
    rw [step_portWrite ha hr]
    refine ⟨fun h => ?_, fun hp hc hb => ?_, fun hp hb id a0 p hc hch => ?_⟩
    · rw [portWrite_refused (s := advanceIp len (turnStart rest s)) d h]; rfl
    · rw [portWrite_board (s := advanceIp len (turnStart rest s)) d hp hc hb]; rfl
    · rw [portWrite_of_chip (s := advanceIp len (turnStart rest s)) d hp hb hc ((chipOf_turnStart id len rest s).trans hch),
        andThen_assoc]
      rfl
  case read =>
    rw [step_portRead ha hr]
    refine ⟨fun h => ?_, fun hp hc hb => ?_, fun hp hb id a0 p hc hch => ?_⟩
    · rw [portRead_refused (s := advanceIp len (turnStart rest s)) h]; rfl
    · rw [portRead_board (s := advanceIp len (turnStart rest s)) hp hc hb]; rfl
    · rw [portRead_of_chip (s := advanceIp len (turnStart rest s)) hp hb hc ((chipOf_turnStart id len rest s).trans hch),
        andThen_assoc]
      simp only [andThen_next, withAl_setChip]
      rfl
  case decode =>
    exact ⟨portChip_base, portChip_base_A0,
      fun h h1 k sl hk => ⟨portChip_slave_base h h1 hk, portChip_slave_A0 h h1 hk⟩, portChip_eq_none⟩
  case chips =>
    exact ⟨by cases id <;> rfl, chipOf_setChip_same hp, fun k => chipOf_slave_setChip_ne p' s, chipOf_master_setChip p' s⟩

end Sys2Proof.Machine
end

section
/-! Initialization of an 8259A and what it refuses (60_exceptions.md rules R122 to R132, R144). -/

namespace Sys2Proof.Machine

/-! ### Which word a byte is, by the chip's place in the sequence (R122, R129) -/

theorem chipWrite_icw1 {c : Config} {d : Byte} (h4 : d.getLsbD 4 = true) (p : Pic) :
    chipWrite c false d p = writeIcw1 c d p := by
  simp [chipWrite, h4, -BitVec.getLsbD_eq_getElem]

theorem chipWrite_wantICW2 {p : Pic} (h : p.init = .wantICW2) (c : Config) (d : Byte) :
    chipWrite c true d p = .next (icw2 d p) := by
  simp [chipWrite, h]

theorem chipWrite_wantICW3 {p : Pic} (h : p.init = .wantICW3) (c : Config) (d : Byte) :
    chipWrite c true d p = writeIcw3 d p := by
  simp [chipWrite, h]

theorem chipWrite_wantICW4 {p : Pic} (h : p.init = .wantICW4) (c : Config) (d : Byte) :
    chipWrite c true d p = writeIcw4 c d p := by
  simp [chipWrite, h]

theorem writeIcw1_of_full {c : Config} (hf : c.picFull = true) (d : Byte) (p : Pic) :
    writeIcw1 c d p = .next (icw1 c d p) :=
  writeIcw1_eq_next.2 ⟨fun hf' => absurd (hf'.symm.trans hf) Bool.false_ne_true, rfl⟩

/-- No fault is found with a single chip, with a master, or with an identity that has no other bit (R127). -/
theorem badIdentity_eq_false {p : Pic} (h : p.sngl = true ∨ isMaster p = true ∨ p.s.extractLsb' 3 5 = 0) :
    badIdentity p = false := by
  rcases h with h | h | h <;> simp [badIdentity, isSlave, h]

theorem badIdentity_eq_true {p : Pic} (hs : p.sngl = false) (hm : isMaster p = false) (hid : p.s.extractLsb' 3 5 ≠ 0) :
    badIdentity p = true := by
  simp only [badIdentity, isSlave, hs, hm, Bool.not_false, Bool.and_self, Bool.true_and, bne_iff_ne, ne_eq]
  exact hid

/-- An ICW4 is taken with every mode admitted, D7 to D5 clear and no fault in ICW3 (R128). -/
theorem chipWrite_icw4 {c : Config} {d : Byte} {p : Pic} (h : p.init = .wantICW4) (hr : d.extractLsb' 5 3 = 0)
    (hc : c.picFull = false → d.getLsbD 0 = true ∧ d.getLsbD 4 = false) (hid : badIdentity (icw4 d p) = false) :
    chipWrite c true d p = .next (icw4 d p) := by
  rw [chipWrite_wantICW4 h]
  exact writeIcw4_eq_next.2 ⟨hr, hc, hid, rfl⟩

theorem phaseAfterIcw3_of_ic4 {p : Pic} (h : p.ic4 = true) : phaseAfterIcw3 p = .wantICW4 := by
  simp [phaseAfterIcw3, h]

theorem phaseAfterIcw3_of_no_ic4 {p : Pic} (h : p.ic4 = false) : phaseAfterIcw3 p = .ready := by
  simp [phaseAfterIcw3, h]

/-- ICW2 is followed by ICW3 in a cascade, else as ICW3 would be (R125, R129). -/
theorem icw2_init_of_cascade {p : Pic} (d : Byte) (h : p.sngl = false) : (icw2 d p).init = .wantICW3 := by
  simp [icw2, h]

theorem icw2_init_of_single {p : Pic} (d : Byte) (h : p.sngl = true) : (icw2 d p).init = phaseAfterIcw3 p := by
  simp [icw2, h]

/-! ### The sequence (R123 to R129) -/

theorem icw1_identity (c : Config) (d : Byte) (p : Pic) : (icw1 c d p).s.extractLsb' 0 3 = 7 := by
  show (p.s ||| 0x07#8).extractLsb' 0 3 = 7
  generalize p.s = s
  revert s
  decide

/-- Without ICW4 buffered mode is off, so the strap decides (R124, R127). -/
theorem isMaster_icw1_of_no_ic4 (c : Config) (p : Pic) {d : Byte} (h0 : d.getLsbD 0 = false) :
    isMaster (icw1 c d p) = p.sp := by
  have hbuf : (icw1 c d p).buf = false := by simp only [icw1, h0, Bool.false_and]
  rw [isMaster, hbuf]
  rfl

/-- Settles O45: each word finds the chip waiting for it, and is taken because every mode is admitted and a slave's ICW3
is in order. -/
theorem initializationSequence : Obligations.InitializationSequence := by
  refine ⟨fun c p d h => ⟨chipWrite_ocw1 h c d, fun h4 => chipWrite_icw1 h4 p, chipWrite_ocw2 h c, chipWrite_ocw3 h c⟩,
    fun c p d1 d2 d3 d4 hf h4 hrole hres => ?_⟩
  have hfull {P : Prop} (h : c.picFull = false) : P := absurd (h.symm.trans hf) Bool.false_ne_true
  have h1 : chipWrite c false d1 p = .next (icw1 c d1 p) := by rw [chipWrite_icw1 h4, writeIcw1_of_full hf]
  have h2 : chipWrite c true d2 (icw1 c d1 p) = .next (icw2 d2 (icw1 c d1 p)) := chipWrite_wantICW2 rfl c d2
  refine ⟨icw1 c d1 p, icw2 d2 (icw1 c d1 p), h1, rfl, icw1_identity c d1 p, rfl, h2, rfl, fun hs => ?cascade,
    fun hs => ⟨fun h0 => ?single4, fun h0 => ?singleReady⟩⟩
  case cascade =>
    have hw3 : (icw2 d2 (icw1 c d1 p)).init = .wantICW3 := icw2_init_of_cascade d2 hs
    refine ⟨icw3 d3 (icw2 d2 (icw1 c d1 p)), hw3, ?_, rfl, fun h0 => ?_, fun h0 => phaseAfterIcw3_of_no_ic4 h0⟩
    · rw [chipWrite_wantICW3 hw3]
      refine writeIcw3_eq_next.2 ⟨fun hic4 => badIdentity_eq_false (.inr ?_), rfl⟩
      have h0 : d1.getLsbD 0 = false := hic4
      have hstrap : p.sp = true ∨ d3.extractLsb' 3 5 = 0 := by
        simpa only [h0, Bool.false_eq_true, false_and, if_false] using hrole
      exact hstrap.imp_left (isMaster_icw1_of_no_ic4 c p h0).trans
    · have hw4 : (icw3 d3 (icw2 d2 (icw1 c d1 p))).init = .wantICW4 := phaseAfterIcw3_of_ic4 h0
      have hmaster : (if d4.getLsbD 3 = true then d4.getLsbD 2 else p.sp) = true ∨ d3.extractLsb' 3 5 = 0 := by
        simpa only [h0, true_and] using hrole
      exact ⟨hw4, chipWrite_icw4 hw4 hres hfull (badIdentity_eq_false (.inr hmaster))⟩
  case single4 =>
    have hw4 : (icw2 d2 (icw1 c d1 p)).init = .wantICW4 := (icw2_init_of_single d2 hs).trans (phaseAfterIcw3_of_ic4 h0)
    exact ⟨hw4, chipWrite_icw4 hw4 hres hfull (badIdentity_eq_false (.inl hs))⟩
  case singleReady => exact (icw2_init_of_single d2 hs).trans (phaseAfterIcw3_of_no_ic4 h0)

/-! ### A single 8259A (R144) -/

/-- An ICW1 with D4, SNGL and IC4 set. -/
theorem icw1_bits_of_mask {d : Byte} (h : d &&& 0x13#8 = 0x13#8) :
    d.getLsbD 4 = true ∧ d.getLsbD 1 = true ∧ d.getLsbD 0 = true := by
  revert d
  decide

/-- An ICW4 with uPM set and D7 to D4 clear. -/
theorem icw4_bits_of_mask {d : Byte} (h : d &&& 0xF1#8 = 0x01#8) :
    d.extractLsb' 5 3 = 0 ∧ d.getLsbD 4 = false ∧ d.getLsbD 0 = true := by
  revert d
  decide

/-- Settles O46: the three words are in the admitted subset, so they are taken whatever the parameters, and what the chip
holds then is what they load. -/
theorem singlePicSetUp : Obligations.SinglePicSetUp := by
  intro c p d1 d2 d4 hd1 hd4
  obtain ⟨h4, hsngl, hic4⟩ := icw1_bits_of_mask hd1
  obtain ⟨hres, hsfnm, hupm⟩ := icw4_bits_of_mask hd4
  have h1 : chipWrite c false d1 p = .next (icw1 c d1 p) := by
    rw [chipWrite_icw1 h4]
    exact writeIcw1_eq_next.2 ⟨fun _ => ⟨hsngl, hic4⟩, rfl⟩
  have hw4 : (icw2 d2 (icw1 c d1 p)).init = .wantICW4 :=
    (icw2_init_of_single d2 hsngl).trans (phaseAfterIcw3_of_ic4 hic4)
  refine ⟨icw1 c d1 p, icw2 d2 (icw1 c d1 p), icw4 d4 (icw2 d2 (icw1 c d1 p)), h1, chipWrite_wantICW2 rfl c d2,
    chipWrite_icw4 hw4 hres (fun _ => ⟨hupm, hsfnm⟩) (badIdentity_eq_false (.inl hsngl)), rfl, hupm, rfl, rfl, rfl, rfl,
    rfl, rfl, rfl, fun n => ?_⟩
  rw [typeOf_toNat, ← icw2_type_toNat d2 (icw1 c d1 p)]
  rfl

/-! ### What is refused (R122 to R132, R144) -/

theorem chipWrite_before_icw1 {p : Pic} (h : p.init = .uninit) (c : Config) {a0 : Bool} {d : Byte}
    (hd : a0 = true ∨ d.getLsbD 4 = false) : chipWrite c a0 d p = .refused .picWriteBeforeIcw1 := by
  rcases hd with rfl | hd
  · simp [chipWrite, h]
  · cases a0 <;> simp [chipWrite, h, hd, -BitVec.getLsbD_eq_getElem]

/-- During the sequence an A0 = 0 byte is ICW1 or is refused (R122, D21). -/
theorem chipWrite_during_init {p : Pic} (hu : p.init ≠ .uninit) (hr : p.init ≠ .ready) (c : Config) {d : Byte}
    (hd : d.getLsbD 4 = false) : chipWrite c false d p = .refused .picCommandDuringInit := by
  cases hi : p.init with
  | uninit => exact absurd hi hu
  | ready => exact absurd hi hr
  | _ => simp [chipWrite, hi, hd, -BitVec.getLsbD_eq_getElem]

theorem writeIcw4_reserved {c : Config} {d : Byte} (p : Pic) (h : d.extractLsb' 5 3 ≠ 0) :
    writeIcw4 c d p = .refused .picIcw4Reserved :=
  if_pos (bne_iff_ne.2 h)

theorem writeIcw4_mcs {c : Config} {d : Byte} (p : Pic) (hf : c.picFull = false) (hr : d.extractLsb' 5 3 = 0)
    (h0 : d.getLsbD 0 = false) : writeIcw4 c d p = .refused .picMcsNotAdmitted := by
  simp [writeIcw4, hr, hf, h0, -BitVec.getLsbD_eq_getElem]

theorem writeIcw4_specialNesting {c : Config} {d : Byte} (p : Pic) (hf : c.picFull = false)
    (hr : d.extractLsb' 5 3 = 0) (h0 : d.getLsbD 0 = true) (h4 : d.getLsbD 4 = true) :
    writeIcw4 c d p = .refused .picSpecialNestingNotAdmitted := by
  simp [writeIcw4, hr, hf, h0, h4, -BitVec.getLsbD_eq_getElem]

theorem writeIcw4_identity {c : Config} {d : Byte} {p : Pic} (hf : c.picFull = true) (hr : d.extractLsb' 5 3 = 0)
    (hid : badIdentity (icw4 d p) = true) : writeIcw4 c d p = .refused .picIcw3Reserved := by
  simp [writeIcw4, hr, hf, hid, -BitVec.getLsbD_eq_getElem]

theorem writeIcw3_identity {d : Byte} {p : Pic} (h4 : p.ic4 = false) (hid : badIdentity (icw3 d p) = true) :
    writeIcw3 d p = .refused .picIcw3Reserved := by
  simp [writeIcw3, h4, hid]

/-- The bits of an OCW3 fixed under a mask: with D7 set, with ESMM and SMM set, and with P set but not both of those. -/
theorem ocw3_bits_of_reserved {d : Byte} (h : d &&& 0x98#8 = 0x88#8) :
    d.getLsbD 4 = false ∧ d.getLsbD 3 = true ∧ d.getLsbD 7 = true := by
  revert d
  decide

theorem ocw3_bits_of_specialMask {d : Byte} (h : d &&& 0xF8#8 = 0x68#8) :
    d.getLsbD 4 = false ∧ d.getLsbD 3 = true ∧ d.getLsbD 7 = false ∧ d.getLsbD 6 = true ∧ d.getLsbD 5 = true := by
  revert d
  decide

theorem ocw3_bits_of_poll {d : Byte} (h : d &&& 0x9C#8 = 0x0C#8) (hm : d &&& 0x60#8 ≠ 0x60#8) :
    d.getLsbD 4 = false ∧ d.getLsbD 3 = true ∧ d.getLsbD 7 = false ∧ d.getLsbD 2 = true ∧
      (d.getLsbD 6 = false ∨ d.getLsbD 5 = false) := by
  revert d
  decide

theorem chipWrite_ocw3_reserved {p : Pic} (hp : p.init = .ready) (c : Config) {d : Byte} (h : d &&& 0x98#8 = 0x88#8) :
    chipWrite c false d p = .refused .picOcw3Reserved := by
  obtain ⟨h4, h3, h7⟩ := ocw3_bits_of_reserved h
  rw [chipWrite_ocw3 hp c h4 h3]
  simp [writeOcw3, h7, -BitVec.getLsbD_eq_getElem]

theorem chipWrite_ocw3_specialMask {p : Pic} (hp : p.init = .ready) {c : Config} (hf : c.picFull = false) {d : Byte}
    (h : d &&& 0xF8#8 = 0x68#8) : chipWrite c false d p = .refused .picSpecialMaskNotAdmitted := by
  obtain ⟨h4, h3, h7, h6, h5⟩ := ocw3_bits_of_specialMask h
  rw [chipWrite_ocw3 hp c h4 h3]
  simp [writeOcw3, hf, h7, h6, h5, -BitVec.getLsbD_eq_getElem]

theorem chipWrite_ocw3_poll {p : Pic} (hp : p.init = .ready) {c : Config} (hf : c.picFull = false) {d : Byte}
    (h : d &&& 0x9C#8 = 0x0C#8) (hm : d &&& 0x60#8 ≠ 0x60#8) :
    chipWrite c false d p = .refused .picPollNotAdmitted := by
  obtain ⟨h4, h3, h7, h2, h65⟩ := ocw3_bits_of_poll h hm
  rw [chipWrite_ocw3 hp c h4 h3]
  rcases h65 with h65 | h65 <;> simp [writeOcw3, hf, h7, h2, h65, -BitVec.getLsbD_eq_getElem]

theorem picAcknowledge_board {s : State} (h : boardAdmitted s = false) :
    picAcknowledge s = .refused .picCountNotAdmitted := by
  simp [picAcknowledge, h]

theorem picAcknowledge_before_icw1 {s : State} (hb : boardAdmitted s = true) (hi : s.pic.init = .uninit) :
    picAcknowledge s = .refused .picAcknowledgeBeforeIcw1 := by
  simp [picAcknowledge, hb, hi]

/-- Settles O60: each refusal is the test of one command word, reached from the chip's place in the sequence. -/
theorem picRefusesByName : Obligations.PicRefusesByName := by
  refine ⟨fun c p d => ⟨fun h => ⟨chipWrite_before_icw1 h c (.inl rfl), fun h4 => chipWrite_before_icw1 h c (.inr h4)⟩,
    fun hu hr h4 => chipWrite_during_init hu hr c h4, fun h => ?icw3, fun h => ?icw4,
    fun h => chipWrite_ocw3_reserved h c, fun hf => ?subset⟩, fun s hp => ?acknowledge⟩
  case icw3 =>
    rw [chipWrite_wantICW3 h]
    refine ⟨fun h4 hs hm hid => writeIcw3_identity h4 (badIdentity_eq_true (p := icw3 d p) hs hm hid), fun hok => ?_⟩
    refine writeIcw3_eq_next.2 ⟨fun h4 => badIdentity_eq_false (.inr ?_), rfl⟩
    exact hok.resolve_left fun h4' => absurd (h4.symm.trans h4') Bool.false_ne_true
  case icw4 =>
    rw [chipWrite_wantICW4 h]
    exact ⟨writeIcw4_reserved p,
      fun hr hf hs hm hid => writeIcw4_identity hf hr (badIdentity_eq_true (p := icw4 d p) hs hm hid)⟩
  case subset =>
    refine ⟨fun h4 h1 => ?_, fun h4 h1 h0 => ?_, fun h hr h0 => ?_, fun h hr h0 h4 => ?_,
      fun h hd => chipWrite_ocw3_specialMask h hf hd, fun h hd hm => chipWrite_ocw3_poll h hf hd hm⟩
    · rw [chipWrite_icw1 h4]
      simp [writeIcw1, hf, h1, -BitVec.getLsbD_eq_getElem]
    · rw [chipWrite_icw1 h4]
      simp [writeIcw1, hf, h1, h0, -BitVec.getLsbD_eq_getElem]
    · rw [chipWrite_wantICW4 h, writeIcw4_mcs p hf hr h0]
    · rw [chipWrite_wantICW4 h, writeIcw4_specialNesting p hf hr h0 h4]
  case acknowledge =>
    rw [acknowledge_with_pic hp]
    exact ⟨picAcknowledge_board, picAcknowledge_before_icw1⟩

end Sys2Proof.Machine
end

section
/-! Priority, end of interrupt, rotation and poll (60_exceptions.md rules R135 to R141), and the default level 7 answer
(R143). -/

namespace Sys2Proof.Machine

/-! ### A level in service (R135) -/

theorem nestsInService_of_no_sfnm {p : Pic} (h : p.sfnm = false) (n : Level) : nestsInService p n = false := by
  simp [nestsInService, h]

/-- Eligibility with special mask mode and special fully nested mode off: every level in service is of lower priority. -/
theorem eligible_iff_default {p : Pic} (hsmm : p.smm = false) (hsfnm : p.sfnm = false) {n : Level} :
    eligible p n = true ↔ bitAt (irr p) n = true ∧ bitAt p.imr n = false ∧
      ∀ m, bitAt p.isr m = true → (rank p n).toNat < (rank p m).toNat := by
  simp only [eligible_iff, hsmm, true_or, true_implies, nestsInService_of_no_sfnm hsfnm, Bool.false_eq_true, if_false]

/-- Without AEOI serving a level rotates nothing. -/
theorem rank_serve_of_no_aeoi {p : Pic} (h : p.aeoi = false) (n m : Level) : rank (serve n p) m = rank p m := by
  have hlow : (serve n p).lowest = p.lowest := by simp [serve, aeoiMode, h]
  rw [rank, hlow]
  rfl

/-- Serving a level leaves the requests of the others. -/
theorem bitAt_irr_serve_ne {p : Pic} {n m : Level} (h : m ≠ n) : bitAt (irr (serve n p)) m = bitAt (irr p) m := by
  rw [bitAt_irr, bitAt_irr, bitAt_serve_edge, if_neg h]
  rfl

/-- Settles O51: the level served is in service, and of the others nothing has changed. -/
theorem inServiceHoldsBackLowerLevels : Obligations.InServiceHoldsBackLowerLevels := by
  intro p n haeoi hsmm hsfnm
  have hserved (m : Level) : bitAt (serve n p).isr m = if m = n then true else bitAt p.isr m := by
    rw [bitAt_serve_isr, aeoiMode_eq (.inl haeoi), haeoi]
    rfl
  have helig (m : Level) : eligible (serve n p) m = true ↔ bitAt (irr (serve n p)) m = true ∧ bitAt p.imr m = false ∧
      ∀ k, (if k = n then true else bitAt p.isr k) = true → (rank p m).toNat < (rank p k).toNat := by
    simp only [eligible_iff_default (p := serve n p) hsmm hsfnm, hserved, rank_serve_of_no_aeoi haeoi]
    rfl
  refine ⟨fun m hle => ?heldBack, fun m hlt => ?asBefore⟩
  case heldBack =>
    by_contra he
    obtain ⟨-, -, hall⟩ := (helig m).1 (by simpa using he)
    have := hall n (if_pos rfl)
    omega
  case asBefore =>
    have hne : m ≠ n := by rintro rfl; exact absurd hlt (Nat.lt_irrefl _)
    rw [Bool.eq_iff_iff, helig m, eligible_iff_default hsmm hsfnm, bitAt_irr_serve_ne hne]
    refine and_congr_right fun _ => and_congr_right fun _ => ⟨fun h k hk => h k ?_, fun h k hk => ?_⟩
    · split
      · rfl
      · exact hk
    · split at hk
      · next hkn => rwa [hkn]
      · exact h k hk

/-! ### End of interrupt (R137) -/

/-- The level a non-specific EOI ends is the one of highest priority among those in service that count. -/
theorem eoiLevel_eq_some {p : Pic} {n : Level} :
    eoiLevel p = some n ↔ inServiceCounts p n = true ∧
      ∀ m, inServiceCounts p m = true → (rank p n).toNat ≤ (rank p m).toNat :=
  find_byPriority p (inServiceCounts p) n

theorem eoiLevel_eq_none {p : Pic} : eoiLevel p = none ↔ ∀ m, inServiceCounts p m = false :=
  find_byPriority_none p (inServiceCounts p)

theorem nonSpecificEoi_of_level {p : Pic} {n : Level} (h : eoiLevel p = some n) (rotate : Bool) :
    nonSpecificEoi rotate p = specificEoi n rotate p := by
  simp only [nonSpecificEoi, h]

theorem nonSpecificEoi_of_none {p : Pic} (h : eoiLevel p = none) (rotate : Bool) : nonSpecificEoi rotate p = p := by
  simp only [nonSpecificEoi, h]

/-- Settles O52: which level is ended is `eoiLevel`, and what a specific EOI changes is its definition. -/
theorem endOfInterrupt : Obligations.EndOfInterrupt := by
  refine fun p rotate => ⟨fun n hn hcounts hmin => ?some, fun h => ?none, fun n => ⟨rfl, fun m => bitAt_withoutBit _ _ _⟩⟩
  case some =>
    refine nonSpecificEoi_of_level (eoiLevel_eq_some.2 ⟨inServiceCounts_eq_true.2 ⟨hn, hcounts⟩, fun m hm => ?_⟩) rotate
    obtain ⟨hisr, hc⟩ := inServiceCounts_eq_true.1 hm
    exact hmin m hisr hc
  case none =>
    refine nonSpecificEoi_of_none (eoiLevel_eq_none.2 fun m => Bool.eq_false_iff.2 fun hm => ?_) rotate
    obtain ⟨hisr, hc⟩ := inServiceCounts_eq_true.1 hm
    obtain ⟨hsmm, hmask⟩ := h m hisr
    simp [hsmm, hmask] at hc

/-! ### Rotation (R139) -/

theorem rank_withLowest (p : Pic) (n m : Level) : rank { p with lowest := n } m = m - n - 1 := rfl

theorem rank_lowest (p : Pic) (n : Level) : rank { p with lowest := n } n = 7 := by
  rw [rank_withLowest]
  bv_omega

/-- Settles O58: ranks count on from the level after the lowest, modulo 8. -/
theorem rotationMakesALevelLowest : Obligations.RotationMakesALevelLowest := by
  refine fun p n => ⟨by rw [rank_lowest]; rfl, ?first, fun m hm => ?next, rank_lowest p n, fun ha hr => ⟨?served, ?isr⟩⟩
  case first =>
    rw [rank_withLowest]
    bv_omega
  case next =>
    rw [rank_withLowest, rank_withLowest]
    bv_omega
  case served =>
    have hlow : (serve n p).lowest = n := by simp [serve, ha, hr]
    rw [rank, hlow]
    bv_omega
  case isr => simp [serve, ha]

/-! ### Poll (R141) -/

theorem ocw3_poll (p : Pic) : ocw3 0x0C p = { p with poll := true } := by
  simp [ocw3]

theorem pollWord_of_winner {p : Pic} {n : Level} (h : winner p = some n) (free : Byte) :
    pollWord free p = (0x80#8 ||| n.setWidth 8, serve n p) := by
  simp only [pollWord, h]

theorem pollWord_of_none {p : Pic} (h : winner p = none) (free : Byte) : pollWord free p = (free &&& 0x7F#8, p) := by
  simp only [pollWord, h]

/-- The poll word of level `n` is 80H + n. -/
theorem pollByte_toNat (n : Level) : (0x80#8 ||| n.setWidth 8).toNat = 0x80 + n.toNat := by
  revert n
  decide

/-- Settles O57: the poll read is `pollWord` of the chip with the poll no longer pending. -/
theorem pollReads : Obligations.PollReads := by
  intro c p free hf hr
  have hwrite : chipWrite c false 0x0C p = .next { p with poll := true } := by
    rw [chipWrite_ocw3 hr c (by decide) (by decide), writeOcw3_of_full hf (by decide), ocw3_poll]
  have hread : chipRead free false { p with poll := true } = .next (pollWord free { p with poll := false }) :=
    chipRead_poll (by simp [hr]) rfl free
  refine ⟨_, hwrite, rfl, fun n hw => ?served, fun hw => ?none⟩
  case served =>
    rw [hread, pollWord_of_winner (p := { p with poll := false }) hw]
    refine ⟨_, _, rfl, pollByte_toNat n, rfl, ?_, ?_, fun m hm => ⟨?_, ?_⟩⟩
    · rw [bitAt_serve_isr, if_pos rfl]; rfl
    · rw [bitAt_serve_edge, if_pos rfl]
    · rw [bitAt_serve_isr, if_neg hm]
    · rw [bitAt_serve_edge, if_neg hm]
  case none =>
    rw [hread, pollWord_of_none (p := { p with poll := false }) hw]
    refine ⟨_, rfl, ?_⟩
    rw [BitVec.getLsbD_and, show (0x7F#8).getLsbD 7 = false from rfl, Bool.and_false]

/-! ### The default level 7 answer (R143) -/

/-- The state in which the acknowledge goes on once PIC_SPURIOUS has drawn and not answered: the parameter off. -/
def withoutSpurious (s : State) : State :=
  { s with draws := s.draws + 1, config := { s.config with picSpurious := false } }

/-- The cascade's part does not look at PIC_SPURIOUS. -/
theorem cascadeAcknowledge_withoutSpurious (n : Level) (p : Pic) (s : State) :
    cascadeAcknowledge n p (withDraw s) =
      andThen (cascadeAcknowledge n p (withoutSpurious s)) fun r => .next (r.1, { r.2 with config := s.config }) := by
  unfold cascadeAcknowledge
  have hslaves : (withoutSpurious s).slaves = (withDraw s).slaves := rfl
  dsimp only
  rw [hslaves]
  split
  · rfl
  · split <;> rfl

theorem picAcknowledge_spurious {s : State} (hb : boardAdmitted s = true) (hi : s.pic.init ≠ .uninit)
    (hu : s.pic.upm = true) (hs : s.config.picSpurious = true) (hnow : spuriousNow s = true) :
    picAcknowledge s = .next (typeOf s.pic 7, withDraw s) := by
  simp [picAcknowledge, hb, hi, hu, hs, hnow]

theorem spuriousNow_withoutSpurious (s : State) : spuriousNow (withoutSpurious s) = false := rfl

theorem boardAdmitted_withoutSpurious (s : State) : boardAdmitted (withoutSpurious s) = boardAdmitted s := rfl

/-- An acknowledge whose draw says that no default answer is given is the one without the parameter. -/
theorem picAcknowledge_not_spurious {s : State} (hb : boardAdmitted s = true) (hi : s.pic.init ≠ .uninit)
    (hu : s.pic.upm = true) (hs : s.config.picSpurious = true) (hnow : spuriousNow s = false) :
    picAcknowledge s =
      andThen (picAcknowledge (withoutSpurious s)) fun r => .next (r.1, { r.2 with config := s.config }) := by
  have hpic : (withoutSpurious s).pic = s.pic := rfl
  have hslaves : (withoutSpurious s).slaves = s.slaves := rfl
  have hoff : (withoutSpurious s).config.picSpurious = false := rfl
  simp only [picAcknowledge, boardAdmitted_withoutSpurious, spuriousNow_withoutSpurious, hpic, hslaves, hoff, hb, hi, hu,
    hs, hnow, Bool.not_true, Bool.false_eq_true, if_false, if_true]
  cases winner s.pic with
  | none => rfl
  | some n =>
    dsimp only
    split
    · split
      · exact cascadeAcknowledge_withoutSpurious n (serve n s.pic) s
      · rfl
    · rfl

/-- Settles O50: the free value decides between the two answers. -/
theorem spuriousAcknowledge : Obligations.SpuriousAcknowledge := by
  intro s hp hb hs hi hu
  have hp' : (withoutSpurious s).config.picPresent = true := hp
  rw [acknowledge_with_pic hp]
  cases hnow : spuriousNow s with
  | true => exact .inl (picAcknowledge_spurious hb hi hu hs hnow)
  | false =>
    refine .inr ((picAcknowledge_not_spurious hb hi hu hs hnow).trans ?_)
    rw [← acknowledge_with_pic hp']
    rfl

end Sys2Proof.Machine
end

section
/-! The acknowledge of a cascade (60_exceptions.md rule R142). -/

namespace Sys2Proof.Machine

/-! ### The slaves' part -/

/-- The answer of the one slave that answers (R142). -/
theorem cascadeAcknowledge_of_single {s : State} {n : Level} {sl : Slave} (master : Pic)
    (h : (s.slaves.filter fun x => answers n x.chip) = [sl]) (hu : sl.chip.upm = true) :
    cascadeAcknowledge n master s = .next (slaveType sl.chip, settlePics master (serveSlaves n s.slaves) s) := by
  simp [cascadeAcknowledge, h, hu]

/-- A master with a slave behind the level it serves leaves the answer to the slaves. -/
theorem picAcknowledge_cascade {s : State} {n : Level} (hb : boardAdmitted s = true)
    (hsp : s.config.picSpurious = false) (hi : s.pic.init ≠ .uninit) (hu : s.pic.upm = true)
    (hw : winner s.pic = some n) (hs : hasSlave s.pic n = true) (hm : isMaster s.pic = true) :
    picAcknowledge s = cascadeAcknowledge n (serve n s.pic) s := by
  simp [picAcknowledge, spuriousNow, hb, hsp, hi, hu, hw, hs, hm]

theorem slaveType_of_winner {p : Pic} {m : Level} (h : winner p = some m) : slaveType p = p.t ++ m := by
  simp only [slaveType, h]
  rfl

theorem slaveServe_of_winner {p : Pic} {m : Level} (h : winner p = some m) : slaveServe p = serve m p := by
  simp only [slaveServe, h]

/-- Every slave that answers is the one, so to serve those that answer is to serve it. -/
theorem serveSlaves_of_single {l : List Slave} {n : Level} {sl : Slave}
    (h : (l.filter fun x => answers n x.chip) = [sl]) :
    serveSlaves n l = l.map fun x => if answers n x.chip then { x with chip := slaveServe sl.chip } else x := by
  refine List.map_congr_left fun x hx => ?_
  split
  · next ha =>
    have hmem : x ∈ l.filter fun x => answers n x.chip := List.mem_filter.2 ⟨hx, ha⟩
    rw [h, List.mem_singleton] at hmem
    rw [hmem]
  · rfl

/-- A slave that answers is ready and a slave of a cascade, so AEOI is not in force in it (assumption 37). -/
theorem ready_and_no_aeoiMode_of_answers {n : Level} {p : Pic} (h : answers n p = true) :
    p.init = .ready ∧ aeoiMode p = false := by
  simp only [answers, Bool.and_eq_true, beq_iff_eq] at h
  obtain ⟨⟨hready, hslave⟩, -⟩ := h
  exact ⟨hready, by simp [aeoiMode, hslave]⟩

/-! ### The master's inputs -/

/-- The chips after the acknowledge: one slave, of all that hang on the master, is served. -/
structure OneServed (n : Level) (sl : Slave) (s : State) : Prop where
  mem : sl ∈ s.slaves
  answering : answers n sl.chip = true
  only : ∀ x ∈ s.slaves, answers n x.chip = true → x = sl

theorem oneServed_of_filter {n : Level} {sl : Slave} {s : State}
    (h : (s.slaves.filter fun x => answers n x.chip) = [sl]) : OneServed n sl s := by
  have hsl : sl ∈ s.slaves.filter fun x => answers n x.chip := by simp [h]
  refine ⟨(List.mem_filter.1 hsl).1, (List.mem_filter.1 hsl).2, fun x hx ha => ?_⟩
  have hmem : x ∈ s.slaves.filter fun x => answers n x.chip := List.mem_filter.2 ⟨hx, ha⟩
  rwa [h, List.mem_singleton] at hmem

/-- Each slave after the acknowledge is the one served, or one as it was that did not answer. -/
theorem OneServed.mem_serveSlaves {n : Level} {sl x : Slave} {s : State} (h : OneServed n sl s)
    (hx : x ∈ serveSlaves n s.slaves) :
    x = { sl with chip := slaveServe sl.chip } ∨ (x ∈ s.slaves ∧ answers n x.chip = false) := by
  obtain ⟨y, hy, rfl⟩ := List.mem_map.1 hx
  split
  · next ha => rw [h.only y hy ha]; exact .inl rfl
  · next ha => exact .inr ⟨hy, Bool.eq_false_iff.2 ha⟩

theorem OneServed.served_mem {n : Level} {sl : Slave} {s : State} (h : OneServed n sl s) :
    { sl with chip := slaveServe sl.chip } ∈ serveSlaves n s.slaves :=
  List.mem_map.2 ⟨sl, h.mem, if_pos h.answering⟩

theorem map_line_serveSlaves (n : Level) (l : List Slave) : (serveSlaves n l).map Slave.line = l.map Slave.line :=
  map_line_eq_of_wiring (wiring_serveSlaves n l)

/-- The outputs put on the master's inputs latch no edge there: the slave served was requesting already, and the others
are as they were. -/
theorem OneServed.driveLines_edge {n m : Level} {sl : Slave} {s : State} (h : OneServed n sl s) (hc : CascadeInv s)
    (hw : winner sl.chip = some m) :
    (driveLines (serve n s.pic) (serveSlaves n s.slaves)).edge = (serve n s.pic).edge := by
  obtain ⟨-, hnd, hlines⟩ := hc
  refine Machine.driveLines_edge (fun x hx hout => ?_) (by rwa [map_line_serveSlaves])
  rcases h.mem_serveSlaves hx with rfl | ⟨hx, -⟩
  · have hint : intOut sl.chip = true :=
      intOut_eq_true.2 ⟨(ready_and_no_aeoiMode_of_answers h.answering).1, m, (winner_eq_some.1 hw).1⟩
    exact (hlines sl h.mem).trans hint
  · exact (hlines x hx).trans hout

/-- Of the master's inputs only the one the slave served hangs on may change, to that slave's new INT level. -/
theorem OneServed.driveLines_ir {n : Level} {sl : Slave} {s : State} (h : OneServed n sl s) (hc : CascadeInv s)
    (k : Level) :
    bitAt (driveLines (serve n s.pic) (serveSlaves n s.slaves)).ir k =
      if k = sl.line then intOut (slaveServe sl.chip) else bitAt s.pic.ir k := by
  obtain ⟨-, hnd, hlines⟩ := hc
  have hdriven := bitAt_driveLines (serve n s.pic) (serveSlaves n s.slaves) (by rwa [map_line_serveSlaves])
  split
  · next hk => rw [hk]; exact hdriven _ h.served_mem
  · next hk =>
    by_cases hmem : k ∈ (serveSlaves n s.slaves).map Slave.line
    · obtain ⟨x, hx, rfl⟩ := List.mem_map.1 hmem
      rcases h.mem_serveSlaves hx with rfl | ⟨hold, -⟩
      · exact absurd rfl hk
      · rw [hdriven x hx, hlines x hold]
    · rw [bitAt_driveLines_of_not_mem _ _ _ hmem]
      rfl

/-! ### What a level served changes of the master -/

theorem bitAt_serve_isr_of_master {p : Pic} (hm : isMaster p = true) (n k : Level) :
    bitAt (serve n p).isr k = if k = n then !p.aeoi else bitAt p.isr k := by
  rw [bitAt_serve_isr, aeoiMode_eq (.inr (.inr hm))]

theorem serve_lowest_of_master {p : Pic} (hm : isMaster p = true) (n : Level) :
    (serve n p).lowest = if p.aeoi = true ∧ p.autoRotate = true then n else p.lowest := by
  simp [serve, aeoiMode_eq (.inr (.inr hm))]

/-- What the slaves' outputs leave of the master: everything but its inputs and edge latches. -/
theorem driveLines_registers (p : Pic) (l : List Slave) :
    (driveLines p l).isr = p.isr ∧ (driveLines p l).lowest = p.lowest := by
  rw [driveLines_eq]
  exact ⟨rfl, rfl⟩

/-- Settles O59: the master serves its winner, `OneServed` tells the slaves apart, and a level without a slave is a single
chip's. -/
theorem cascadedAcknowledge : Obligations.CascadedAcknowledge := by
  intro s n hc hp hsp hready hupm hsngl hm hw
  rw [acknowledge_with_pic hp]
  refine ⟨fun hs sl m hfilter hslUpm hslw => ?slave, fun hs => ?alone⟩
  case slave =>
    have one := oneServed_of_filter hfilter
    have hslave : hasSlave s.pic n = true := by simp [hasSlave, hsngl, hs]
    have hserve := slaveServe_of_winner hslw
    obtain ⟨-, hnoAeoi⟩ := ready_and_no_aeoiMode_of_answers one.answering
    obtain ⟨hisr, hlowest⟩ := driveLines_registers (serve n s.pic) (serveSlaves n s.slaves)
    refine ⟨driveLines (serve n s.pic) (serveSlaves n s.slaves), serve m sl.chip, ?answer, ?frame, fun k => ?isr,
      fun k => ?edge, ?lowest, fun k => ?ir, ?slaveFrame, fun k => ?slaveIsr, fun k => ?slaveEdge⟩
    case answer =>
      rw [picAcknowledge_cascade hc.1 hsp (by simp [hready]) hupm hw hslave hm,
        cascadeAcknowledge_of_single _ hfilter hslUpm, slaveType_of_winner hslw, settlePics, ← hserve,
        ← serveSlaves_of_single hfilter]
      rfl
    case frame =>
      rw [driveLines_eq]
      rfl
    case isr => rw [hisr, bitAt_serve_isr_of_master hm]
    case edge => rw [one.driveLines_edge hc hslw, bitAt_serve_edge]
    case lowest => rw [hlowest, serve_lowest_of_master hm]
    case ir => rw [one.driveLines_ir hc, hserve]
    case slaveFrame => simp [serve, hnoAeoi]
    case slaveIsr => rw [bitAt_serve_isr, hnoAeoi]; rfl
    case slaveEdge => exact bitAt_serve_edge m k sl.chip
  case alone =>
    refine ⟨serve n s.pic, ?_, rfl, bitAt_serve_isr_of_master hm n, fun k => bitAt_serve_edge n k s.pic,
      serve_lowest_of_master hm n⟩
    rw [picAcknowledge_winner hc.1 hsp (by simp [hready]) hupm hw (hasSlave_eq_false.2 (.inr hs)), settlePics_serve hc]
    rfl

end Sys2Proof.Machine
end
